-- ==== Sys2Proof/Word.lean ====
section
/-! DEFINITION. The word types of the block (spec/00_scope.md R6, R8: every value is unsigned, bit 0 is the least
significant bit). -/

namespace Sys2Proof

/-- A command word or a response word: `CMD_WIDTH = RSP_WIDTH = 32` (R6, R70, R74). -/
abbrev Word := BitVec 32

/-- A buffer cell, a data register or a pin error code: 8 bits (R6, R20, R50). -/
abbrev Byte := BitVec 8

/-- A count of microseconds: `US_WIDTH = 16` (R6, R11). -/
abbrev Us := BitVec 16

end Sys2Proof
end

