-- ==== Sys2Proof/Config.lean ====
section
/-! DEFINITION. The parameters of the block (spec/00_scope.md R6, R7), and the free values: what the spec leaves open
and the machine goes on with. A free value is an opaque constant with no body; nothing can be proved of it. -/

namespace Sys2Proof

/-- The ten named intervals of the Timing Table (R32, R33). -/
inductive Interval where
  | A | B | C | D | E | F | G | H | I | J
  deriving DecidableEq, Repr

/-- One half of the Timing Table: ten durations in microseconds, each of `US_WIDTH` bits (R6, R7 (c), R32). -/
structure TimingTable where
  A : Us
  B : Us
  C : Us
  D : Us
  E : Us
  F : Us
  G : Us
  H : Us
  I : Us
  J : Us
  deriving DecidableEq, Repr

/-- The parameters a model "takes as an argument" (R6). They are constants of one block: `TIMING` is "immutable" (R32),
no command writes any of them. They stand in `State` so that every statement holds for every parameter set. -/
structure Params where
  /-- `T_STD`, the Standard half of `TIMING`. -/
  std : TimingTable
  /-- `T_OD`, the Overdrive half of `TIMING`: no rule reads it (R12, R31). -/
  od : TimingTable
  /-- `BUF_DEPTH`, the number of byte cells of `BUF`. -/
  bufDepth : Nat
  deriving DecidableEq, Repr

/-- The constraints every admissible parameter set meets: R7 (a), (b) and (d); (c) is in the type `Us`. -/
abbrev Params.Admissible (p : Params) : Prop :=
  p.std.A.toNat + p.std.B.toNat = p.std.C.toNat + p.std.D.toNat ∧ p.std.A.toNat < p.std.C.toNat ∧
    1 ≤ p.bufDepth ∧ p.bufDepth ≤ 256

/-- The default Standard table of R6 (`[from general knowledge, not in source]`). PRESUMED, log entry 1. -/
def defaultStd : TimingTable :=
  { A := 6, B := 64, C := 60, D := 10, E := 9, F := 55, G := 0, H := 480, I := 70, J := 410 }

/-- The Overdrive table has no default (R6) and no rule reads it: all zero here. DESIGN CHOICE, log entry 2. -/
def defaultOd : TimingTable :=
  { A := 0, B := 0, C := 0, D := 0, E := 0, F := 0, G := 0, H := 0, I := 0, J := 0 }

/-- The parameter set the reset state carries: the defaults of R6. -/
def defaultParams : Params := { std := defaultStd, od := defaultOd, bufDepth := 256 }

/-- What the pin capability answers to one access (R10, R230, R231): success, with the level on `pin_level` (which only
a sample looks at; log entry 13), or failure with an 8-bit error code. -/
inductive PinAnswer where
  | ok (level : Bool)
  | err (code : Byte)
  deriving DecidableEq, Repr, Inhabited

/-- Free value: the pin capability's answer to the n-th access beyond a scripted list of answers. "The block's rules
place no condition on them" (R10, R232). Log entry 3. -/
opaque Config.freeAnswer : Nat → PinAnswer

/-- Free value: what cell `a` of `BUF` holds after the hardware reset numbered `era` until it is written (R45,
spec/93_implementation_defined.md U3 and U15). Log entry 4. -/
opaque Config.freeByte : Nat → Nat → Byte

end Sys2Proof
end

