-- ==== Sys2Proof/Machine/State.lean ====
section
/-! DEFINITION. The state of the block (spec/10_state.md R20, R35, R45), as plain data, and its value after reset. The
last eight fields are not registers of the hardware: they are the environment's inputs to the block, the ghosts the spec
asks a model to keep (R14, R35) and the model's own counters. -/

namespace Sys2Proof.Machine

/-- `SPEED`: 0 = Standard, 1 = Overdrive; "there is no reserved value" (R30). -/
inductive Speed where
  | standard
  | overdrive
  deriving DecidableEq, Repr

/-- The six outcomes of a command, in the order of their codes 0 to 5 (R75, R210). Codes 6 to 15 are never produced. -/
inductive Status where
  | ok
  | pinError
  | crcNonzero
  | illegal
  | badOperand
  | badState
  deriving DecidableEq, Repr

/-- `PADOUT` (R35): what the pin capability is doing to the line on the block's behalf. -/
inductive PadOut where
  | released
  | low
  | unknown
  deriving DecidableEq, Repr

/-- A micro-operation: one pin access or one wait (R10, R11, R17). -/
inductive MicroOp where
  /-- `PinLow()`. -/
  | low
  /-- `PinHigh()`. -/
  | high
  /-- `PinSample()`. -/
  | sample
  /-- `Wait(us)`. -/
  | wait (us : Us)
  deriving DecidableEq, Repr

/-- An event of the trace (R14). -/
inductive Event where
  /-- `L`. -/
  | low
  /-- `H`. -/
  | high
  /-- `S=l`. -/
  | sampled (level : Bool)
  /-- `W(n)`. -/
  | waited (us : Us)
  /-- `L!e`. -/
  | lowFailed (code : Byte)
  /-- `H!e`. -/
  | highFailed (code : Byte)
  /-- `S!e`. -/
  | sampleFailed (code : Byte)
  deriving DecidableEq, Repr

/-- The oracle of R16: the answers the pin capability gives to the coming accesses, oldest first, and how many free
answers have been drawn beyond them. Every answer is admitted (R232). -/
structure Oracle where
  script : List PinAnswer
  draws : Nat
  deriving DecidableEq, Repr

/-- `BUF` as a list of (index, value) pairs of the cells that hold a value. An unlisted cell holds none (R45); what it
reads as is `State.memRead` in `Machine/Ops.lean`. -/
abbrev Memory := List Host.Cell

structure State where
  /-- The parameters of the block, `TIMING` among them (R6, R32): constants (log entry 6). -/
  params : Params
  /-- `CONSTRUCTED` (R27). -/
  constructed : Bool
  /-- `SPEED` (R30). -/
  speed : Speed
  /-- `BUF` (R50). -/
  buf : Memory
  /-- `BUSY` (R27, R93): 1 from acceptance of a command to the hand-over of its response. -/
  busy : Bool
  /-- `CMD` (R24, R93): the command word being executed. -/
  cmd : Word
  /-- `PHASE` (R24): index of the next micro-operation in the current slot or reset sequence. -/
  phase : BitVec 4
  /-- `BITC` (R24): bit index 0..8 inside a byte. -/
  bitc : BitVec 4
  /-- `IDX` (R24): byte index 0..256 inside a multi-byte command. -/
  idx : BitVec 9
  /-- `SR` (R21): the byte being assembled or sent. -/
  sr : Byte
  /-- `SAMP` (R22): the last line level sampled, 1 = high. -/
  samp : Bool
  /-- `CRC` (R23): the running checksum. -/
  crc : Byte
  /-- The pending response, `rsp_valid` with `rsp_data` (R92, R94). -/
  rsp : Option Word
  /-- Ghost `PADOUT` (R35), outside the block; the line and the devices are not state (log entry 14). -/
  padout : PadOut
  /-- Ghost event history (R14), newest event first. -/
  history : List Event
  /-- Input: the command words the host will offer, oldest first (R92). The block itself has no queue (R93). -/
  offers : List Word
  /-- Input: the pin capability's answers (R16, R232). -/
  oracle : Oracle
  /-- The response words the host has taken, newest first: the model's record of R94 (log entry 11). -/
  taken : List Word
  /-- The model's own counter of hardware resets; it indexes the free bytes of unwritten cells (log entry 4). -/
  era : Nat
  /-- The model's own mark that the latest edge was one with `rst_n = 0` (log entry 22). -/
  inReset : Bool
  deriving DecidableEq, Repr

/-- Why a step can stop. No command does: every command ends with a response word (R17, R210). -/
inductive Fault where
  /-- Raised by `step` alone, on a state with `BUSY` set and no response pending whose sequencing registers name no
  micro-operation. No run reaches such a state (`State.Inv` in `Safety.lean`). Safe: the model stops. Log entry 11. -/
  | sequencerLost
  deriving DecidableEq, Repr

/-- Why an instruction has no meaning here. -/
inductive Refusal where
  /-- Raised by a refused arm of `exec`, for an instruction not modelled yet. Safe. No arm is refused. -/
  | notModelled (mnemonic : String)
  deriving DecidableEq, Repr

/-- The block after power-on hardware reset (R45, R250): `CONSTRUCTED`, `SPEED`, `BUSY` 0, no response pending, no cell of
`BUF` holding a value, `PADOUT` unknown, idle until the host gives a word. The transient registers are "unspecified; never
read before written": 0 here, DESIGN CHOICE, log entry 5. No host program, no scripted pin answer, an empty history. -/
def State.reset : State :=
  { params := defaultParams
    constructed := false
    speed := .standard
    buf := []
    busy := false
    cmd := 0
    phase := 0
    bitc := 0
    idx := 0
    sr := 0
    samp := false
    crc := 0
    rsp := none
    padout := .unknown
    history := []
    offers := []
    oracle := { script := [], draws := 0 }
    taken := []
    era := 0
    inReset := false }

end Sys2Proof.Machine
end

