-- ==== Sys2Proof/Syntax.lean ====
section
/-! DEFINITION. The 21 commands of the command set OWC-1, one constructor per row of spec/opcode_table.json
(spec/30_encoding.md R72, R80). Operands have the width of their field (R73): no sign, no scaling. -/

namespace Sys2Proof

/-- A command of the block: "the unit the checklist calls an instruction". -/
inductive Instr where
  /-- INIT, format N, R101. -/
  | init
  /-- SETHI, format N, R102. -/
  | sethi
  /-- SETLO, format N, R103. -/
  | setlo
  /-- ISHI, format N, R104. -/
  | ishi
  /-- ISLO, format N, R105. -/
  | islo
  /-- WAIT us, format U, R106. -/
  | wait (us : Us)
  /-- RESET, format N, R121. -/
  | reset
  /-- RDBIT, format N, R135. -/
  | rdbit
  /-- WRBIT1, format N, R136. -/
  | wrbit1
  /-- WRBIT0, format N, R137. -/
  | wrbit0
  /-- WRBIT b, format B, R138. -/
  | wrbit (b : Bool)
  /-- RDBYTE, format N, R151. -/
  | rdbyte
  /-- WRBYTE v, format V, R152. -/
  | wrbyte (v : Byte)
  /-- RDBYTES len, format L, R154. -/
  | rdbytes (len : BitVec 16)
  /-- WRBYTES len, format L, R155. -/
  | wrbytes (len : BitVec 16)
  /-- CRC8 len, format L, R172. -/
  | crc8 (len : BitVec 16)
  /-- CHKCRC len, format L, R173. -/
  | chkcrc (len : BitVec 16)
  /-- LDBUF idx, format I, R185. -/
  | ldbuf (idx : BitVec 16)
  /-- STBUF idx, v, format X, R186. -/
  | stbuf (idx : BitVec 16) (v : Byte)
  /-- GETSPD, format N, R187. -/
  | getspd
  /-- SETSPD b, format B, R188. -/
  | setspd (b : Bool)
  deriving DecidableEq, Repr

end Sys2Proof
end

