-- ==== Sys2Proof/Machine/Flags.lean ====
section
/-! DEFINITION. The status codes and the response word (spec/30_encoding.md R74, R75), the `CONSTRUCTED` gate
(spec/60_exceptions.md R216), and the speed bit (spec/10_state.md R30). The block has no arithmetic flags (R27). -/

namespace Sys2Proof.Machine

/-- The code of an outcome, `rsp.status` (R75). -/
def Status.code : Status → BitVec 4
  | .ok => 0
  | .pinError => 1
  | .crcNonzero => 2
  | .illegal => 3
  | .badOperand => 4
  | .badState => 5

/-- `respond`'s word: status in [31:28], zeros in [27:16], `ecode` in [15:8], `data` in [7:0] (R74). -/
def responseWord (status : Status) (ecode data : Byte) : Word :=
  status.code ++ (0 : BitVec 12) ++ ecode ++ data

/-- `rsp.status` of a response word (R74). -/
def rspStatus (rsp : Word) : BitVec 4 := rsp.extractLsb' 28 4

/-- The reserved bits `rsp[27:16]` (R74). -/
def rspReserved (rsp : Word) : BitVec 12 := rsp.extractLsb' 16 12

/-- `rsp.ecode` of a response word (R74). -/
def rspEcode (rsp : Word) : Byte := rsp.extractLsb' 8 8

/-- `rsp.data` of a response word (R74). -/
def rspData (rsp : Word) : Byte := rsp.extractLsb' 0 8

/-- Whether the state check passes with `CONSTRUCTED = constructed` (R216): INIT needs 0; the pin, delay and speed
commands need 1; the CRC and buffer commands "are never refused for state". -/
def stateAllows (constructed : Bool) : Instr → Bool
  | .init => !constructed
  | .sethi => constructed
  | .setlo => constructed
  | .ishi => constructed
  | .islo => constructed
  | .wait _ => constructed
  | .reset => constructed
  | .rdbit => constructed
  | .wrbit1 => constructed
  | .wrbit0 => constructed
  | .wrbit _ => constructed
  | .rdbyte => constructed
  | .wrbyte _ => constructed
  | .rdbytes _ => constructed
  | .wrbytes _ => constructed
  | .crc8 _ => true
  | .chkcrc _ => true
  | .ldbuf _ => true
  | .stbuf _ _ => true
  | .getspd => constructed
  | .setspd _ => constructed

/-- `SPEED` as its bit (R30, R187). -/
def Speed.bit : Speed → Bool
  | .standard => false
  | .overdrive => true

/-- `SPEED` from its bit (R30, R188). -/
def Speed.ofBit (b : Bool) : Speed := if b then .overdrive else .standard

end Sys2Proof.Machine
end

