-- ==== Sys2Proof/Decode.lean ====
section
/-! DEFINITION. The decoder of spec/30_encoding.md R83, its opcode map (R80), the encoder (R72, R73), and the textual
form of a command (R88). -/

namespace Sys2Proof

/-- `zext_8` of a one-bit value (R8). -/
def boolByte (b : Bool) : Byte := if b then 1 else 0

/-! ### Fields of the command word (R71) -/

/-- `cmd.op = cmd[31:24]`. -/
def opField (w : Word) : BitVec 8 := w.extractLsb' 24 8

/-- `cmd.a = cmd[23:8]`. -/
def aField (w : Word) : BitVec 16 := w.extractLsb' 8 16

/-- `cmd.d = cmd[7:0]`. -/
def dField (w : Word) : Byte := w.extractLsb' 0 8

/-- `b = cmd[0]` (R73). -/
def bField (w : Word) : Bool := w.getLsbD 0

/-- The seven formats of R72. -/
inductive Format where
  | N | U | B | V | L | I | X
  deriving DecidableEq, Repr

/-- A row of the opcode map R80: `w` is this command exactly when `w & mask = pattern`. `operands` reads the operands of
R73 from the word. -/
structure OpcodeRow where
  op : BitVec 8
  mnemonic : String
  format : Format
  pattern : Word
  mask : Word
  operands : Word → Instr

/-- The opcode map of R80, row by row. -/
def opcodeRows : List OpcodeRow :=
  [ ⟨0x01, "INIT", .N, 0x01000000, 0xFFFFFFFF, fun _ => .init⟩,
    ⟨0x02, "SETHI", .N, 0x02000000, 0xFFFFFFFF, fun _ => .sethi⟩,
    ⟨0x03, "SETLO", .N, 0x03000000, 0xFFFFFFFF, fun _ => .setlo⟩,
    ⟨0x04, "ISHI", .N, 0x04000000, 0xFFFFFFFF, fun _ => .ishi⟩,
    ⟨0x05, "ISLO", .N, 0x05000000, 0xFFFFFFFF, fun _ => .islo⟩,
    ⟨0x06, "WAIT", .U, 0x06000000, 0xFF0000FF, fun w => .wait (aField w)⟩,
    ⟨0x07, "RESET", .N, 0x07000000, 0xFFFFFFFF, fun _ => .reset⟩,
    ⟨0x08, "RDBIT", .N, 0x08000000, 0xFFFFFFFF, fun _ => .rdbit⟩,
    ⟨0x09, "WRBIT1", .N, 0x09000000, 0xFFFFFFFF, fun _ => .wrbit1⟩,
    ⟨0x0A, "WRBIT0", .N, 0x0A000000, 0xFFFFFFFF, fun _ => .wrbit0⟩ ] ++
  [ ⟨0x0B, "WRBIT", .B, 0x0B000000, 0xFFFFFFFE, fun w => .wrbit (bField w)⟩,
    ⟨0x0C, "RDBYTE", .N, 0x0C000000, 0xFFFFFFFF, fun _ => .rdbyte⟩,
    ⟨0x0D, "WRBYTE", .V, 0x0D000000, 0xFFFFFF00, fun w => .wrbyte (dField w)⟩,
    ⟨0x0E, "RDBYTES", .L, 0x0E000000, 0xFF0000FF, fun w => .rdbytes (aField w)⟩,
    ⟨0x0F, "WRBYTES", .L, 0x0F000000, 0xFF0000FF, fun w => .wrbytes (aField w)⟩,
    ⟨0x10, "CRC8", .L, 0x10000000, 0xFF0000FF, fun w => .crc8 (aField w)⟩,
    ⟨0x11, "CHKCRC", .L, 0x11000000, 0xFF0000FF, fun w => .chkcrc (aField w)⟩,
    ⟨0x12, "LDBUF", .I, 0x12000000, 0xFF0000FF, fun w => .ldbuf (aField w)⟩,
    ⟨0x13, "STBUF", .X, 0x13000000, 0xFF000000, fun w => .stbuf (aField w) (dField w)⟩,
    ⟨0x14, "GETSPD", .N, 0x14000000, 0xFFFFFFFF, fun _ => .getspd⟩,
    ⟨0x15, "SETSPD", .B, 0x15000000, 0xFFFFFFFE, fun w => .setspd (bField w)⟩ ]

/-- Why a word is no command. The block answers both with `ILLEGAL` (R81, R82). -/
inductive DecodeError where
  /-- The opcode is 0x00 or in 0x16 to 0xFF (R81). -/
  | undefinedOpcode (op : BitVec 8)
  /-- A bit that the format marks "zero" is 1 (R82). -/
  | reservedBits (op : BitVec 8)
  deriving DecidableEq, Repr

/-- The procedure of R83: "look up `w[31:24]` in rule R80; if absent, illegal; else if `w & mask != match`, illegal; else
extract the operands". -/
def decode (w : Word) : Except DecodeError Instr :=
  match opcodeRows.find? (fun r => r.op == opField w) with
  | none => .error (.undefinedOpcode (opField w))
  | some r => if w &&& r.mask = r.pattern then .ok (r.operands w) else .error (.reservedBits r.op)

/-! ### The encoder -/

/-- A command word from its three fields (R71). -/
def pack (op : BitVec 8) (a : BitVec 16) (d : Byte) : Word := op ++ a ++ d

/-- The word of a command, from the formats of R72 and the opcodes of R80. -/
def encode : Instr → Word
  | .init => pack 0x01 0 0
  | .sethi => pack 0x02 0 0
  | .setlo => pack 0x03 0 0
  | .ishi => pack 0x04 0 0
  | .islo => pack 0x05 0 0
  | .wait us => pack 0x06 us 0
  | .reset => pack 0x07 0 0
  | .rdbit => pack 0x08 0 0
  | .wrbit1 => pack 0x09 0 0
  | .wrbit0 => pack 0x0A 0 0
  | .wrbit b => pack 0x0B 0 (boolByte b)
  | .rdbyte => pack 0x0C 0 0
  | .wrbyte v => pack 0x0D 0 v
  | .rdbytes len => pack 0x0E len 0
  | .wrbytes len => pack 0x0F len 0
  | .crc8 len => pack 0x10 len 0
  | .chkcrc len => pack 0x11 len 0
  | .ldbuf idx => pack 0x12 idx 0
  | .stbuf idx v => pack 0x13 idx v
  | .getspd => pack 0x14 0 0
  | .setspd b => pack 0x15 0 (boolByte b)

/-- What the decoder reads from an opcode-table word. A command is one 32-bit word on a 32-bit port, "never split into
bytes by the block" (R56, R70), so the numbering of the table is the word's own (log entry 18). -/
def decodeTableWord (nbits w : Nat) : Option Instr :=
  match decode (BitVec.ofNat 32 (w % 2 ^ nbits)) with
  | .ok i => some i
  | .error _ => none

/-! ### Assembler text (R88) -/

/-- The mnemonic of a command (R80, R88). -/
def Instr.mnemonic : Instr → String
  | .init => "INIT"
  | .sethi => "SETHI"
  | .setlo => "SETLO"
  | .ishi => "ISHI"
  | .islo => "ISLO"
  | .wait _ => "WAIT"
  | .reset => "RESET"
  | .rdbit => "RDBIT"
  | .wrbit1 => "WRBIT1"
  | .wrbit0 => "WRBIT0"
  | .wrbit _ => "WRBIT"
  | .rdbyte => "RDBYTE"
  | .wrbyte _ => "WRBYTE"
  | .rdbytes _ => "RDBYTES"
  | .wrbytes _ => "WRBYTES"
  | .crc8 _ => "CRC8"
  | .chkcrc _ => "CHKCRC"
  | .ldbuf _ => "LDBUF"
  | .stbuf _ _ => "STBUF"
  | .getspd => "GETSPD"
  | .setspd _ => "SETSPD"

/-- The operands of a command as numbers, in the order R88 writes them. -/
def Instr.operands : Instr → List Nat
  | .wait us => [us.toNat]
  | .wrbit b => [b.toNat]
  | .wrbyte v => [v.toNat]
  | .rdbytes len => [len.toNat]
  | .wrbytes len => [len.toNat]
  | .crc8 len => [len.toNat]
  | .chkcrc len => [len.toNat]
  | .ldbuf idx => [idx.toNat]
  | .stbuf idx v => [idx.toNat, v.toNat]
  | .setspd b => [b.toNat]
  | .init => []
  | .sethi => []
  | .setlo => []
  | .ishi => []
  | .islo => []
  | .reset => []
  | .rdbit => []
  | .wrbit1 => []
  | .wrbit0 => []
  | .rdbyte => []
  | .getspd => []

/-- "The mnemonic of rule R80 followed by its operands, decimal ..., separated by a comma" (R88). -/
def Instr.text (i : Instr) : String :=
  match i.operands with
  | [] => i.mnemonic
  | n :: rest => rest.foldl (fun t m => t ++ ", " ++ m.repr) (i.mnemonic ++ " " ++ n.repr)

end Sys2Proof
end

