-- ==== Sys2Proof/Machine/Operands.lean ====
section
/-! DEFINITION. Operand ranges (spec/60_exceptions.md R215), the interval function `T` (spec/00_scope.md R12), the bit
operations on `SR` (spec/10_state.md R21), and the micro-operation lists of the slots and of the reset sequence
(spec/41_reset_presence.md R121, spec/42_bit_slots.md R133). -/

namespace Sys2Proof.Machine

/-- The operand check on a block with `depth` cells: a sequence command is refused when `len > BUF_DEPTH`, LDBUF and STBUF
when `idx >= BUF_DEPTH`, over all 16 bits of the field (R73, R215). -/
def operandInRange (depth : Nat) : Instr → Bool
  | .rdbytes len => decide (len.toNat ≤ depth)
  | .wrbytes len => decide (len.toNat ≤ depth)
  | .crc8 len => decide (len.toNat ≤ depth)
  | .chkcrc len => decide (len.toNat ≤ depth)
  | .ldbuf idx => decide (idx.toNat < depth)
  | .stbuf idx _ => decide (idx.toNat < depth)
  | .init => true
  | .sethi => true
  | .setlo => true
  | .ishi => true
  | .islo => true
  | .wait _ => true
  | .reset => true
  | .rdbit => true
  | .wrbit1 => true
  | .wrbit0 => true
  | .wrbit _ => true
  | .rdbyte => true
  | .wrbyte _ => true
  | .getspd => true
  | .setspd _ => true

/-- The entry of a table half (R32). -/
def tableEntry (t : TimingTable) : Interval → Us
  | .A => t.A
  | .B => t.B
  | .C => t.C
  | .D => t.D
  | .E => t.E
  | .F => t.F
  | .G => t.G
  | .H => t.H
  | .I => t.I
  | .J => t.J

/-- `T(X) = T_STD[X]` "whatever the value of the SPEED register is" (R12, R31; conflict C1). -/
def T (p : Params) (x : Interval) : Us := tableEntry p.std x

/-- `SR <- (SR >> 1) | (zext_8(b) << 7)` (R21, R150). -/
def shiftInBit (sr : Byte) (b : Bool) : Byte := (sr >>> 1) ||| (boolByte b <<< 7)

/-- `SR[BITC]` (R21, R150). -/
def selectBit (sr : Byte) (bitc : BitVec 4) : Bool := sr.getLsbD bitc.toNat

/-- The read slot, in order (R133). -/
def readSlot (p : Params) : List MicroOp :=
  [.low, .wait (T p .A), .high, .wait (T p .E), .sample, .wait (T p .F)]

/-- `write_bit_1()` (R133, with the letters of R131; PRESUMED, log entry 15). -/
def writeSlot1 (p : Params) : List MicroOp :=
  [.low, .wait (T p .A), .high, .wait (T p .B)]

/-- `write_bit_0()` (R133, with the letters of R131; PRESUMED, log entry 15). -/
def writeSlot0 (p : Params) : List MicroOp :=
  [.low, .wait (T p .C), .high, .wait (T p .D)]

/-- `write_bit(b)`: "if b = 1 then write_bit_1() else write_bit_0()" (R133). -/
def writeSlot (p : Params) (b : Bool) : List MicroOp := if b then writeSlot1 p else writeSlot0 p

/-- The reset sequence, PHASE 0 to 6 (R121). -/
def resetSequence (p : Params) : List MicroOp :=
  [.wait (T p .G), .low, .wait (T p .H), .high, .wait (T p .I), .sample, .wait (T p .J)]

/-- The states of the reset state machine (R26). -/
inductive ResetPhase where
  | idleHigh
  | lowPulse
  | releasedWaitingSample
  | sampledPresence
  | recoveryIdleHigh
  deriving DecidableEq, Repr

/-- The reset state of each value of `PHASE` during RESET (R26): "`RecoveryIdle(high)` is `PHASE` 6 (the wait of `T(J)`) and
the end of the command". That the end of the command is the end marker 7 of R24 is DEDUCED, log entry 24. RESET reaches no
value above it. -/
def resetPhase (phase : BitVec 4) : Option ResetPhase :=
  match phase.toNat with
  | 0 => some .idleHigh
  | 1 => some .lowPulse
  | 2 => some .lowPulse
  | 3 => some .releasedWaitingSample
  | 4 => some .releasedWaitingSample
  | 5 => some .sampledPresence
  | 6 => some .recoveryIdleHigh
  | 7 => some .recoveryIdleHigh
  | _ => none

end Sys2Proof.Machine
end

