-- ==== Sys2Proof/Machine/Ops.lean ====
section
/-! DEFINITION. The named operations every meaning is written over: `BUF` accesses (spec/20_memory.md R52), responses,
refusals and the pin failure (spec/60_exceptions.md R212, R214, R219: what this block has in place of taking an
exception), the micro-operations (spec/00_scope.md R10, R11, R14), the bit and byte procedures (R133, R150), and the host
port's hand-overs (R93, R94). -/

namespace Sys2Proof.Machine

/-! ### The buffer as plain data -/

/-- The value a listed cell holds; an unlisted cell holds none (R45). -/
def Memory.read : Memory → Nat → Option Byte
  | [], _ => none
  | (b, w) :: m, a => if a = b then some w else Memory.read m a

/-- The buffer with cell `a` holding `v`, kept in rising order of index. -/
def Memory.write : Memory → Nat → Byte → Memory
  | [], a, v => [(a, v)]
  | (b, w) :: m, a, v =>
    if a < b then (a, v) :: (b, w) :: m
    else if a = b then (a, v) :: m
    else (b, w) :: Memory.write m a v

/-- The canonical form: indices strictly rising. An entry always differs from what an unlisted cell reads as (no value). -/
def Memory.wf : Memory → Bool
  | [] => true
  | [_] => true
  | (a, _) :: (b, w) :: m => decide (a < b) && Memory.wf ((b, w) :: m)

/-- Every listed cell exists: its index is below `depth` (R50). -/
def Memory.below (depth : Nat) (m : Memory) : Bool := m.all fun c => decide (c.1 < depth)

/-- `MemRead(a, 1)` (R52). A cell that holds no value reads as a free byte, the same one until it is written (R45, R58,
U3; log entry 4). -/
def State.memRead (s : State) (a : Nat) : Byte :=
  match Memory.read s.buf a with
  | some v => v
  | none => Config.freeByte s.era a

/-- `MemWrite(a, 1, v)` (R52). -/
def State.memWrite (s : State) (a : Nat) (v : Byte) : State := { s with buf := Memory.write s.buf a v }

/-! ### Ending a command -/

/-- `respond(status, ecode, data)`: the command ends and its response is offered to the host (R9, R74, R94). -/
def State.respond (s : State) (status : Status) (ecode data : Byte) : State :=
  { s with rsp := some (responseWord status ecode data) }

/-- `respond(OK, 0, data)`. -/
def State.reply (s : State) (data : Byte) : State := s.respond .ok 0 data

/-- A refusal: "the only thing that happens is the response" (R214). -/
def State.refuse (s : State) (status : Status) : State := s.respond status 0 0

/-- What a pin error does once the failed access is recorded: `respond(PIN_ERROR, e, 0)` and nothing else. "Nothing is
saved"; there is no handler, no mode change, and nothing to return to (R13, R212 (d), (e), R219, R220). -/
def State.pinFailure (s : State) (e : Byte) : State := s.respond .pinError e 0

/-- The checks (2) and (3) of R214, in that order: operand range, then state. -/
def refusal (i : Instr) (s : State) : Option Status :=
  if operandInRange s.params.bufDepth i then
    if stateAllows s.constructed i then none else some .badState
  else some .badOperand

/-- Runs the body of command `i` when its checks pass, and refuses otherwise (R214). -/
def checked (i : Instr) (s : State) (body : State → State) : State :=
  match refusal i s with
  | some status => s.refuse status
  | none => body s

/-! ### Micro-operations -/

/-- What a procedure comes to: it ran to its end, or a pin access in it failed with `code` (R13). -/
inductive Run where
  | done (s : State)
  | failed (code : Byte) (s : State)
  deriving DecidableEq, Repr

/-- Goes on after a procedure; an error is not caught but propagates (R13). -/
def Run.andThen : Run → (State → Run) → Run
  | .done s, k => k s
  | .failed e s, _ => .failed e s

/-- The end of a command whose micro-operations came to `r`: `close` where all succeeded, the pin failure otherwise. -/
def Run.finish : Run → (State → State) → State
  | .done s, close => close s
  | .failed e s, _ => s.pinFailure e

/-- Whether a micro-operation is an access on the pin port. -/
def MicroOp.isPin : MicroOp → Bool
  | .low => true
  | .high => true
  | .sample => true
  | .wait _ => false

/-- The next answer of the pin capability and the oracle after it: the script's head, or a free answer once the script is
used up (R10, R232; log entry 3). -/
def Oracle.next (o : Oracle) : PinAnswer × Oracle :=
  match o.script with
  | a :: rest => (a, { o with script := rest })
  | [] => (Config.freeAnswer o.draws, { o with draws := o.draws + 1 })

/-- One more event at the end of the history (R14). -/
def State.log (s : State) (e : Event) : State := { s with history := e :: s.history }

/-- The effect of a micro-operation once it is answered: its event, `PADOUT` after a drive, `SAMP` after a sample (R10,
R11, R14, R35). A failed drive leaves `PADOUT` unknown and a failed sample leaves it and `SAMP` as they were (R212 (c)). -/
def complete (op : MicroOp) (answer : PinAnswer) (s : State) : Run :=
  match op with
  | .wait n => .done (s.log (.waited n))
  | .low =>
    match answer with
    | .ok _ => .done { s.log .low with padout := .low }
    | .err e => .failed e { s.log (.lowFailed e) with padout := .unknown }
  | .high =>
    match answer with
    | .ok _ => .done { s.log .high with padout := .released }
    | .err e => .failed e { s.log (.highFailed e) with padout := .unknown }
  | .sample =>
    match answer with
    | .ok l => .done { s.log (.sampled l) with samp := l }
    | .err e => .failed e (s.log (.sampleFailed e))

/-- Performs a micro-operation: a pin access takes the oracle's next answer, a wait needs none ("delay is assumed
infallible", R11). -/
def perform (op : MicroOp) (s : State) : Run :=
  if op.isPin then complete op s.oracle.next.1 { s with oracle := s.oracle.next.2 }
  else complete op (.ok false) s

/-- `PHASE` moves to the next micro-operation (R24). -/
def State.nextPhase (s : State) : State := { s with phase := s.phase + 1 }

/-- Performs the micro-operations of one slot or of the reset sequence in order (R24, R61 (b)). -/
def runSlot : List MicroOp → State → Run
  | [], s => .done s
  | op :: ops, s => (perform op s).andThen fun s' => runSlot ops s'.nextPhase

/-- A slot or the reset sequence begins at `PHASE` 0. -/
def State.startSlot (s : State) : State := { s with phase := 0 }

/-! ### Bits and bytes -/

/-- `read_bit()` (R133); the bit read is `SAMP`. -/
def readBit (s : State) : Run := runSlot (readSlot s.params) s

/-- `write_bit(b)` (R133). -/
def writeBit (b : Bool) (s : State) : Run := runSlot (writeSlot s.params b) s

/-- "When a slot ends, `PHASE <- 0` and `BITC <- BITC + 1`" (R24). -/
def State.endSlot (s : State) : State := { s with phase := 0, bitc := s.bitc + 1 }

/-- "When `BITC` reaches 8, `BITC <- 0` and `IDX <- IDX + 1`" (R24). -/
def State.endByte (s : State) : State := { s with bitc := 0, idx := s.idx + 1 }

/-- The bit just read enters `SR` at the top (R150). -/
def State.shiftIn (s : State) : State := { s with sr := shiftInBit s.sr s.samp }

/-- A byte begins: `SR` is loaded, `BITC` and `PHASE` are 0 (R150). -/
def State.startByte (s : State) (v : Byte) : State := { s with sr := v, bitc := 0, phase := 0 }

/-- `n` more read slots of a byte (R150). -/
def readBits : Nat → State → Run
  | 0, s => .done s
  | n + 1, s => (readBit s).andThen fun s' => readBits n s'.shiftIn.endSlot

/-- `n` more write slots of a byte, each of bit `SR[BITC]` (R150). -/
def writeBits : Nat → State → Run
  | 0, s => .done s
  | n + 1, s => (writeBit (selectBit s.sr s.bitc) s).andThen fun s' => writeBits n s'.endSlot

/-- `read_byte()` (R150): `SR <- 0`, then eight read slots; the byte read is `SR`. -/
def readByte (s : State) : Run := readBits 8 (s.startByte 0)

/-- `write_byte(v)` (R150): `SR <- v`, then eight write slots. -/
def writeByte (v : Byte) (s : State) : Run := writeBits 8 (s.startByte v)

/-! ### The host port -/

/-- Acceptance of a command word, an illegal one too: `CMD <- cmd_data`, `BUSY <- 1` (R93; log entry 16). A block
that accepts a word is out of hardware reset (log entry 22). -/
def State.latch (s : State) (w : Word) : State := { s with cmd := w, busy := true, inReset := false }

/-- Hand-over of the response: `rsp_valid <- 0`, `BUSY <- 0` (R94); the host has the word. -/
def State.handOver (s : State) : State :=
  { s with busy := false, rsp := none, taken := s.rsp.toList ++ s.taken }

/-- The end of a whole command for the host: it takes the response (R95). -/
def deliver : Host.Outcome State Fault Refusal → Host.Outcome State Fault Refusal
  | .next t => .next t.handOver
  | .fault f => .fault f
  | .refused r => .refused r

end Sys2Proof.Machine
end

