-- ==== Sys2Proof/Machine/Buffer.lean ====
section
/-! DEFINITION. Buffer access and speed commands: LDBUF, STBUF, GETSPD, SETSPD (spec/45_buffer_speed.md R185 to R192). -/

namespace Sys2Proof.Machine

/-- LDBUF after its checks (R185). -/
def ldbufBody (idx : BitVec 16) (s : State) : State := s.reply (s.memRead idx.toNat)

/-- STBUF after its checks (R186). -/
def stbufBody (idx : BitVec 16) (v : Byte) (s : State) : State := (s.memWrite idx.toNat v).reply 0

/-- GETSPD after its checks (R187). -/
def getspdBody (s : State) : State := s.reply (boolByte s.speed.bit)

/-- SETSPD after its checks (R188). -/
def setspdBody (b : Bool) (s : State) : State := ({ s with speed := Speed.ofBit b } : State).reply 0

/-- LDBUF idx (R185). -/
def execLdbuf (idx : BitVec 16) (s : State) : Host.Outcome State Fault Refusal :=
  .next (checked (.ldbuf idx) s (ldbufBody idx))

/-- STBUF idx, v (R186). -/
def execStbuf (idx : BitVec 16) (v : Byte) (s : State) : Host.Outcome State Fault Refusal :=
  .next (checked (.stbuf idx v) s (stbufBody idx v))

/-- GETSPD (R187). -/
def execGetspd (s : State) : Host.Outcome State Fault Refusal :=
  .next (checked .getspd s getspdBody)

/-- SETSPD b (R188). -/
def execSetspd (b : Bool) (s : State) : Host.Outcome State Fault Refusal :=
  .next (checked (.setspd b) s (setspdBody b))

end Sys2Proof.Machine
end

