-- ==== Sys2Proof/Machine/Bytes.lean ====
section
/-! DEFINITION. The byte commands RDBYTE, WRBYTE, RDBYTES, WRBYTES (spec/43_byte_ops.md R150 to R158). -/

namespace Sys2Proof.Machine

/-- RDBYTE (R151): the answer is the byte read. -/
def execRdbyte (s : State) : Host.Outcome State Fault Refusal :=
  .next (checked .rdbyte s fun s => (readByte s).finish fun t => t.reply t.sr)

/-- WRBYTE v (R152). -/
def execWrbyte (v : Byte) (s : State) : Host.Outcome State Fault Refusal :=
  .next (checked (.wrbyte v) s fun s => (writeByte v s).finish fun t => t.reply 0)

/-- `BUF[IDX] <- SR`, "only after the whole byte arrived" (R154). -/
def State.storeByte (s : State) : State := s.memWrite s.idx.toNat s.sr

/-- `n` more bytes of RDBYTES (R154). -/
def readBytes : Nat → State → Run
  | 0, s => .done s
  | n + 1, s => (readByte s).andThen fun t => readBytes n t.storeByte.endByte

/-- `n` more bytes of WRBYTES (R155): `v <- BUF[IDX]` before the byte's first slot. -/
def writeBytes : Nat → State → Run
  | 0, s => .done s
  | n + 1, s => (writeByte (s.memRead s.idx.toNat) s).andThen fun t => writeBytes n t.endByte

/-- A sequence begins at `IDX` 0 (R51, R153). -/
def State.startSequence (s : State) : State := { s with idx := 0 }

/-- RDBYTES len (R154). -/
def execRdbytes (len : BitVec 16) (s : State) : Host.Outcome State Fault Refusal :=
  .next (checked (.rdbytes len) s fun s =>
    (readBytes len.toNat s.startSequence).finish fun t => t.reply 0)

/-- WRBYTES len (R155). -/
def execWrbytes (len : BitVec 16) (s : State) : Host.Outcome State Fault Refusal :=
  .next (checked (.wrbytes len) s fun s =>
    (writeBytes len.toNat s.startSequence).finish fun t => t.reply 0)

end Sys2Proof.Machine
end

