-- ==== Sys2Proof/Machine/Crc.lean ====
section
/-! DEFINITION. The CRC8 validator: CRC8 and CHKCRC (spec/44_crc8.md R170 to R176). -/

namespace Sys2Proof.Machine

/-- `crc8_bit(c, bit)` (R170). -/
def crcBit (c : Byte) (bit : Bool) : Byte :=
  if c.getLsbD 0 ^^ bit then (c >>> 1) ^^^ 0x8C else c >>> 1

/-- `crc8_byte(c, v)`: the bits of `v`, least significant first (R170). -/
def crcByte (c v : Byte) : Byte := (List.range 8).foldl (fun c i => crcBit c (v.getLsbD i)) c

/-- `crc8_seq(seq)`, initial value 0 (R170). -/
def crcSeq (seq : List Byte) : Byte := seq.foldl crcByte 0

/-- `n` more buffer bytes folded into `CRC` (R171, R172). -/
def crcFold : Nat → State → State
  | 0, s => s
  | n + 1, s => crcFold n { s with crc := crcByte s.crc (s.memRead s.idx.toNat), idx := s.idx + 1 }

/-- `CRC <- 0`, then the fold over `BUF[0 .. len-1]` (R172, R173): one internal step (R176). -/
def crcOfBuffer (len : BitVec 16) (s : State) : State := crcFold len.toNat { s with crc := 0, idx := 0 }

/-- The end of CHKCRC: "if CRC = 0 then respond(OK, 0, 0) else respond(CRC_NONZERO, 0, 0)" (R173). -/
def State.crcVerdict (s : State) : State := s.respond (if s.crc = 0 then .ok else .crcNonzero) 0 0

/-- The end of CRC8: `respond(OK, 0, CRC)` (R172). -/
def State.crcReply (s : State) : State := s.reply s.crc

/-- CRC8 after its checks (R172). -/
def crc8Body (len : BitVec 16) (s : State) : State := (crcOfBuffer len s).crcReply

/-- CHKCRC after its checks (R173). -/
def chkcrcBody (len : BitVec 16) (s : State) : State := (crcOfBuffer len s).crcVerdict

/-- CRC8 len (R172). -/
def execCrc8 (len : BitVec 16) (s : State) : Host.Outcome State Fault Refusal :=
  .next (checked (.crc8 len) s (crc8Body len))

/-- CHKCRC len (R173). -/
def execChkcrc (len : BitVec 16) (s : State) : Host.Outcome State Fault Refusal :=
  .next (checked (.chkcrc len) s (chkcrcBody len))

end Sys2Proof.Machine
end

