-- ==== Sys2Proof/Machine/Pin.lean ====
section
/-! DEFINITION. Construction, raw pin and delay commands: INIT, SETHI, SETLO, ISHI, ISLO, WAIT
(spec/40_pin_delay_primitives.md R100 to R106). -/

namespace Sys2Proof.Machine

/-- After INIT's access succeeded: `CONSTRUCTED <- 1`, `SPEED <- 0`, `respond(OK, 0, 0)` (R101). -/
def State.construct (s : State) : State :=
  ({ s with constructed := true, speed := .standard } : State).reply 0

/-- INIT (R101). -/
def execInit (s : State) : Host.Outcome State Fault Refusal :=
  .next (checked .init s fun s => (perform .high s).finish State.construct)

/-- SETHI (R102). -/
def execSethi (s : State) : Host.Outcome State Fault Refusal :=
  .next (checked .sethi s fun s => (perform .high s).finish fun t => t.reply 0)

/-- SETLO (R103). -/
def execSetlo (s : State) : Host.Outcome State Fault Refusal :=
  .next (checked .setlo s fun s => (perform .low s).finish fun t => t.reply 0)

/-- ISHI (R104): the answer is `SAMP`. -/
def execIshi (s : State) : Host.Outcome State Fault Refusal :=
  .next (checked .ishi s fun s => (perform .sample s).finish fun t => t.reply (boolByte t.samp))

/-- ISLO (R105): the answer is the complement of `SAMP`. -/
def execIslo (s : State) : Host.Outcome State Fault Refusal :=
  .next (checked .islo s fun s => (perform .sample s).finish fun t => t.reply (boolByte !t.samp))

/-- WAIT us (R106): one request `Wait(us)`, also for `us = 0`. -/
def execWait (us : Us) (s : State) : Host.Outcome State Fault Refusal :=
  .next (checked (.wait us) s fun s => (perform (.wait us) s).finish fun t => t.reply 0)

end Sys2Proof.Machine
end

