-- ==== Sys2Proof/Machine/Presence.lean ====
section
/-! DEFINITION. The reset and presence-detect command RESET (spec/41_reset_presence.md R120 to R125). -/

namespace Sys2Proof.Machine

/-- RESET (R121): the seven micro-operations of the reset sequence, then `respond(OK, 0, zext_8(!SAMP))`. -/
def execReset (s : State) : Host.Outcome State Fault Refusal :=
  .next (checked .reset s fun s =>
    (runSlot (resetSequence s.params) s.startSlot).finish fun t => t.reply (boolByte !t.samp))

end Sys2Proof.Machine
end

