-- ==== Sys2Proof/Machine/Slots.lean ====
section
/-! DEFINITION. The bit commands RDBIT, WRBIT1, WRBIT0, WRBIT (spec/42_bit_slots.md R130 to R141). -/

namespace Sys2Proof.Machine

/-- RDBIT (R135): one read slot; the answer is the level sampled. -/
def execRdbit (s : State) : Host.Outcome State Fault Refusal :=
  .next (checked .rdbit s fun s => (readBit s.startSlot).finish fun t => t.reply (boolByte t.samp))

/-- WRBIT1 (R136): one write-1 slot. -/
def execWrbit1 (s : State) : Host.Outcome State Fault Refusal :=
  .next (checked .wrbit1 s fun s => (runSlot (writeSlot1 s.params) s.startSlot).finish fun t => t.reply 0)

/-- WRBIT0 (R137): one write-0 slot. -/
def execWrbit0 (s : State) : Host.Outcome State Fault Refusal :=
  .next (checked .wrbit0 s fun s => (runSlot (writeSlot0 s.params) s.startSlot).finish fun t => t.reply 0)

/-- WRBIT b (R138): one write slot for the bit `b`. -/
def execWrbit (b : Bool) (s : State) : Host.Outcome State Fault Refusal :=
  .next (checked (.wrbit b) s fun s => (writeBit b s.startSlot).finish fun t => t.reply 0)

end Sys2Proof.Machine
end

