-- ==== Sys2Proof/Machine/Dispatch.lean ====
section
/-! DEFINITION. One arm per command of spec/30_encoding.md R80: its meaning, from the checks (2) and (3) of R214 to the
response word. -/

namespace Sys2Proof.Machine

def exec (i : Instr) (s : State) : Host.Outcome State Fault Refusal :=
  match i with
  | .init => Sys2Proof.Machine.execInit s
  | .sethi => Sys2Proof.Machine.execSethi s
  | .setlo => Sys2Proof.Machine.execSetlo s
  | .ishi => Sys2Proof.Machine.execIshi s
  | .islo => Sys2Proof.Machine.execIslo s
  | .wait us => Sys2Proof.Machine.execWait us s
  | .reset => Sys2Proof.Machine.execReset s
  | .rdbit => Sys2Proof.Machine.execRdbit s
  | .wrbit1 => Sys2Proof.Machine.execWrbit1 s
  | .wrbit0 => Sys2Proof.Machine.execWrbit0 s
  | .wrbit b => Sys2Proof.Machine.execWrbit b s
  | .rdbyte => Sys2Proof.Machine.execRdbyte s
  | .wrbyte v => Sys2Proof.Machine.execWrbyte v s
  | .rdbytes len => Sys2Proof.Machine.execRdbytes len s
  | .wrbytes len => Sys2Proof.Machine.execWrbytes len s
  | .crc8 len => Sys2Proof.Machine.execCrc8 len s
  | .chkcrc len => Sys2Proof.Machine.execChkcrc len s
  | .ldbuf idx => Sys2Proof.Machine.execLdbuf idx s
  | .stbuf idx v => Sys2Proof.Machine.execStbuf idx v s
  | .getspd => Sys2Proof.Machine.execGetspd s
  | .setspd b => Sys2Proof.Machine.execSetspd b s

end Sys2Proof.Machine
end

