-- ==== Sys2Proof/Machine/Sequencer.lean ====
section
/-! DEFINITION. The block at its three ports, one clock edge at a time: the host port (spec/30_encoding.md R92 to R94), the
pin port (spec/60_exceptions.md R230, R231), the delay port (R235, R236), hardware reset (spec/70_reset_and_hazards.md
R250, R251), and the sequencer that the tuple `(CMD, IDX, BITC, PHASE)` drives (spec/10_state.md R24). The command-level
meanings of `Dispatch.lean` say what a whole command does; this file says how it gets there. Between two edges at which
something is handed over any number of idle edges may pass; internal steps take no edge of their own (log entry 8). -/

namespace Sys2Proof.Machine

/-! ### What the sequencer requests -/

/-- The micro-operations of the current slot, of the reset sequence, or of a raw command; an internal command has none
(R101 to R106, R121, R133, R150, R176, R190). The bit of a byte write is `SR[BITC]`. -/
def slotOps (i : Instr) (s : State) : List MicroOp :=
  match i with
  | .init => [.high]
  | .sethi => [.high]
  | .setlo => [.low]
  | .ishi => [.sample]
  | .islo => [.sample]
  | .wait us => [.wait us]
  | .reset => resetSequence s.params
  | .rdbit => readSlot s.params
  | .wrbit1 => writeSlot1 s.params
  | .wrbit0 => writeSlot0 s.params
  | .wrbit b => writeSlot s.params b
  | .rdbyte => readSlot s.params
  | .wrbyte _ => writeSlot s.params (selectBit s.sr s.bitc)
  | .rdbytes _ => readSlot s.params
  | .wrbytes _ => writeSlot s.params (selectBit s.sr s.bitc)
  | .crc8 _ => []
  | .chkcrc _ => []
  | .ldbuf _ => []
  | .stbuf _ _ => []
  | .getspd => []
  | .setspd _ => []

/-- The raw commands are one micro-operation and do not use `PHASE` (R100; DEDUCED, log entry 12). -/
def isRaw : Instr → Bool
  | .init => true
  | .sethi => true
  | .setlo => true
  | .ishi => true
  | .islo => true
  | .wait _ => true
  | .reset => false
  | .rdbit => false
  | .wrbit1 => false
  | .wrbit0 => false
  | .wrbit _ => false
  | .rdbyte => false
  | .wrbyte _ => false
  | .rdbytes _ => false
  | .wrbytes _ => false
  | .crc8 _ => false
  | .chkcrc _ => false
  | .ldbuf _ => false
  | .stbuf _ _ => false
  | .getspd => false
  | .setspd _ => false

/-- Which micro-operation of `slotOps` is next. -/
def slotIndex (i : Instr) (s : State) : Nat := if isRaw i then 0 else s.phase.toNat

/-- A command is being executed: accepted, and its response not yet offered (R93, R94). -/
def State.running (s : State) : Bool := s.busy && s.rsp.isNone

/-- The micro-operation the block requests now, on the pin port or on the delay port. -/
def State.currentOp (s : State) : Option MicroOp :=
  if s.running then
    match decode s.cmd with
    | .ok i => (slotOps i s)[slotIndex i s]?
    | .error _ => none
  else none

/-! ### Starting and advancing a command -/

/-- The start of a command whose checks have passed. An internal command runs to its response in one step (R17, R176,
R190); a sequence of zero bytes ends at once (R153); the others load their transient registers. -/
def launch (i : Instr) (s : State) : State :=
  match i with
  | .init => s
  | .sethi => s
  | .setlo => s
  | .ishi => s
  | .islo => s
  | .wait _ => s
  | .reset => s.startSlot
  | .rdbit => s.startSlot
  | .wrbit1 => s.startSlot
  | .wrbit0 => s.startSlot
  | .wrbit _ => s.startSlot
  | .rdbyte => s.startByte 0
  | .wrbyte v => s.startByte v
  | .rdbytes len => if len = 0 then s.startSequence.reply 0 else s.startSequence.startByte 0
  | .wrbytes len =>
    if len = 0 then s.startSequence.reply 0
    else s.startSequence.startByte (s.memRead 0)
  | .crc8 len => crc8Body len s
  | .chkcrc len => chkcrcBody len s
  | .ldbuf idx => ldbufBody idx s
  | .stbuf idx v => stbufBody idx v s
  | .getspd => getspdBody s
  | .setspd b => setspdBody b s

/-- The edge at which a command word is accepted: it is latched, decoded and checked (R83, R93, R214), then refused or
started. -/
def State.acceptEdge (s : State) (w : Word) : State :=
  match decode w with
  | .error _ => (s.latch w).refuse .illegal
  | .ok i => checked i (s.latch w) (launch i)

/-- A read slot of a byte has ended; `last` says what a complete byte does (R24, R150). -/
def afterReadSlot (s : State) (last : State → State) : State :=
  if s.shiftIn.endSlot.bitc = 8 then last s.shiftIn.endSlot else s.shiftIn.endSlot

/-- A write slot of a byte has ended (R24, R150). -/
def afterWriteSlot (s : State) (last : State → State) : State :=
  if s.endSlot.bitc = 8 then last s.endSlot else s.endSlot

/-- A byte of RDBYTES has arrived: it is stored, and the next byte begins unless `IDX` has reached `len` (R24, R154). -/
def afterReadByte (len : BitVec 16) (s : State) : State :=
  if s.storeByte.endByte.idx.toNat = len.toNat then s.storeByte.endByte.reply 0
  else s.storeByte.endByte.startByte 0

/-- A byte of WRBYTES has been sent: the next one is read from `BUF`, unless `IDX` has reached `len` (R24, R155, R66). -/
def afterWriteByte (len : BitVec 16) (s : State) : State :=
  if s.endByte.idx.toNat = len.toNat then s.endByte.reply 0
  else s.endByte.startByte (s.endByte.memRead s.endByte.idx.toNat)

/-- What follows the last micro-operation of a slot, of the reset sequence or of a raw command. -/
def endOfSlot (i : Instr) (s : State) : State :=
  match i with
  | .init => s.construct
  | .sethi => s.reply 0
  | .setlo => s.reply 0
  | .ishi => s.reply (boolByte s.samp)
  | .islo => s.reply (boolByte !s.samp)
  | .wait _ => s.reply 0
  | .reset => s.reply (boolByte !s.samp)
  | .rdbit => s.reply (boolByte s.samp)
  | .wrbit1 => s.reply 0
  | .wrbit0 => s.reply 0
  | .wrbit _ => s.reply 0
  | .rdbyte => afterReadSlot s fun t => t.reply t.sr
  | .wrbyte _ => afterWriteSlot s fun t => t.reply 0
  | .rdbytes len => afterReadSlot s (afterReadByte len)
  | .wrbytes len => afterWriteSlot s (afterWriteByte len)
  | .crc8 _ => s
  | .chkcrc _ => s
  | .ldbuf _ => s
  | .stbuf _ _ => s
  | .getspd => s
  | .setspd _ => s

/-- `PHASE` after a micro-operation that succeeded: a raw command has none to move. -/
def State.passOp (s : State) (i : Instr) : State := if isRaw i then s else s.nextPhase

/-- A micro-operation has succeeded: the sequencer moves to the next one, or past the end of the slot (R24). -/
def advance (i : Instr) (s : State) : State :=
  if isRaw i ∨ (slotOps i s).length ≤ (s.passOp i).phase.toNat then endOfSlot i (s.passOp i) else s.passOp i

/-- The answered micro-operation takes effect: on success the sequencer advances, on a pin error the command ends (R13,
R212). -/
def State.answerOp (s : State) (op : MicroOp) (answer : PinAnswer) : State :=
  match decode s.cmd with
  | .error _ => s
  | .ok i =>
    match complete op answer s with
    | .done t => advance i t
    | .failed e t => t.pinFailure e

/-! ### Hardware reset -/

/-- The command in `CMD` has passed its checks: it runs, or its response is none of the refusals (R214). -/
def State.executed (s : State) : Bool :=
  match s.rsp with
  | none => true
  | some r => decide ((rspStatus r).toNat < 3)

/-- Cell `a` was "already written by the abandoned command" (R251): the cells below `IDX` of an RDBYTES, the cell of an
STBUF whose response is still waiting. -/
def State.wroteCell (s : State) (a : Nat) : Bool :=
  s.busy && s.executed &&
    match decode s.cmd with
    | .ok (.rdbytes _) => decide (a < s.idx.toNat)
    | .ok (.stbuf idx _) => decide (a = idx.toNat)
    | _ => false

/-- A further edge of a hardware reset that an earlier edge began (log entry 22). -/
def State.stillReset (s : State) : Bool := s.inReset && !s.busy

/-- `PADOUT` after a hardware reset: "It is `Unknown` after hardware reset" (R35, R45, U1), except that "if the reset falls
inside a low pulse, `PADOUT` stays `Low`" (R251): the line is held low in the middle of a command and no release is
requested. Which of the rules holds when is DEDUCED, log entry 9. While only a response waits, after a SETLO or any other
command that leaves the line low, the micro-operations are over but `BUSY` is still 1, and the spec leaves open whether
R251's Low or R35's Unknown holds; the model keeps Low. DESIGN CHOICE, log entry 23. -/
def State.padAfterReset (s : State) : PadOut :=
  if s.stillReset || (s.busy && s.padout == .low && s.currentOp != some .high) then s.padout else .unknown

/-- An edge of a hardware reset, from any state (R250, R251): the values of R45, the command abandoned without a response,
no pin access and so no event. Cells the abandoned command wrote keep their value; the others hold none in the new era
(log entry 10). Several edges on end are one reset (log entry 22). The transient registers are unspecified: 0 here (log
entry 5). -/
def State.hardwareReset (s : State) : State :=
  { s with
    constructed := false
    speed := .standard
    buf := s.buf.filter fun c => s.stillReset || s.wroteCell c.1
    busy := false
    cmd := 0
    phase := 0
    bitc := 0
    idx := 0
    sr := 0
    samp := false
    crc := 0
    rsp := none
    padout := s.padAfterReset
    era := if s.stillReset then s.era else s.era + 1
    inReset := true }

/-! ### The ports -/

/-- The input signals at a rising edge of `clk` (R92, R230, R235). -/
structure PortIn where
  /-- `rst_n`. -/
  rstN : Bool
  /-- `cmd_valid`. -/
  cmdValid : Bool
  /-- `cmd_data`. -/
  cmdData : Word
  /-- `rsp_ready`. -/
  rspReady : Bool
  /-- `pin_ack`. -/
  pinAck : Bool
  /-- `pin_err`. -/
  pinErr : Bool
  /-- `pin_ecode`. -/
  pinEcode : Byte
  /-- `pin_level`. -/
  pinLevel : Bool
  /-- `dly_done`. -/
  dlyDone : Bool
  deriving DecidableEq, Repr

/-- The output signals (R92, R230, R235). A data signal stands with its valid or request signal: `none` is the valid or
request signal at 0. -/
structure PortOut where
  /-- `cmd_ready`. -/
  cmdReady : Bool
  /-- `rsp_valid` and `rsp_data`. -/
  rsp : Option Word
  /-- `pin_req` and `pin_op`. -/
  pin : Option (BitVec 2)
  /-- `dly_req` and `dly_us`. -/
  dly : Option Us
  deriving DecidableEq, Repr

/-- `pin_op`: 0 = drive high, 1 = drive low, 2 = sample; "3 is never issued" (R230). -/
def MicroOp.pinOp : MicroOp → Option (BitVec 2)
  | .high => some 0
  | .low => some 1
  | .sample => some 2
  | .wait _ => none

/-- `dly_us` of a wait (R235). -/
def MicroOp.dlyUs : MicroOp → Option Us
  | .wait us => some us
  | .high => none
  | .low => none
  | .sample => none

/-- The outputs of the block in a state. `cmd_ready` equals `!BUSY` (R92). -/
def State.outputs (s : State) : PortOut :=
  { cmdReady := !s.busy
    rsp := s.rsp
    pin := s.currentOp.bind MicroOp.pinOp
    dly := s.currentOp.bind MicroOp.dlyUs }

/-- The answer on the pin port at an edge with `pin_ack = 1` (R231). -/
def PortIn.answer (i : PortIn) : PinAnswer := if i.pinErr then .err i.pinEcode else .ok i.pinLevel

/-- One rising edge of `clk` with `rst_n = 1`: acceptance when idle, hand-over when a response waits, otherwise the answer
to the outstanding request, for which the block waits "without limit" (R93, R94, R231, R236, R238). An input without its
counterpart changes nothing: `pin_ack` without an access request, `dly_done` without a delay request, `rsp_ready` without a
pending response. The spec gives them no meaning there; DESIGN CHOICE, log entry 19. -/
def State.runEdge (s : State) (i : PortIn) : State :=
  if s.busy then
    match s.rsp with
    | some _ => if i.rspReady then s.handOver else s
    | none =>
      match s.currentOp with
      | none => s
      | some op =>
        if op.isPin then (if i.pinAck then s.answerOp op i.answer else s)
        else (if i.dlyDone then s.answerOp op (.ok false) else s)
  else if i.cmdValid then s.acceptEdge i.cmdData else { s with inReset := false }

/-- One rising edge of `clk`. At an edge with `rst_n = 0` hardware reset has precedence (R250) and every other input is
ignored: an acknowledge, a `dly_done` or an `rsp_ready` at that very edge completes nothing, so no event is recorded and no
response handed over. The spec does not say which counts; DESIGN CHOICE, log entry 20. -/
def State.clockEdge (s : State) (i : PortIn) : State := if i.rstN then s.runEdge i else s.hardwareReset

/-! ### An environment that answers at once -/

/-- The inputs of an environment that offers the next word, takes a response, and answers every request, each at the first
edge: the words are `offers`, the pin answers are the oracle's. It meets the duty of R238 (`CapabilitiesAnswer`). -/
def State.promptInputs (s : State) : PortIn :=
  { rstN := true
    cmdValid := !s.offers.isEmpty
    cmdData := s.offers.headD 0
    rspReady := true
    pinAck := true
    pinErr := match s.oracle.next.1 with | .ok _ => false | .err _ => true
    pinEcode := match s.oracle.next.1 with | .ok _ => 0 | .err e => e
    pinLevel := match s.oracle.next.1 with | .ok l => l | .err _ => false
    dlyDone := true }

/-- The environment after such an edge: the word or the answer it gave is used up. -/
def State.usedInputs (s : State) : State :=
  if s.busy then
    match s.currentOp with
    | none => s
    | some op => if op.isPin then { s with oracle := s.oracle.next.2 } else s
  else { s with offers := s.offers.tail }

/-- One edge in that environment. -/
def State.promptEdge (s : State) : State := s.usedInputs.clockEdge s.promptInputs

/-! ### The two kinds of step -/

/-- A step in the middle of a command: one edge in that environment, which meets the capabilities' duty of R238
(`CapabilitiesAnswer`) by answering at once (log entry 11). -/
def State.edgeStep (s : State) : Host.Outcome State Fault Refusal :=
  if s.rsp.isNone && s.currentOp.isNone then .fault .sequencerLost else .next s.promptEdge

/-- A step from an idle block: the next word offered is latched, decoded and executed, and the host takes the response
(R93 to R95). Like every meaning behind `exec` it takes R238's premise for granted, that "the capabilities answer every
request after finite time" (`CapabilitiesAnswer`; log entry 11). An illegal word is answered with `ILLEGAL` (R81, R82).
With no word offered the block stays idle (R250). -/
def State.commandStep (s : State) : Host.Outcome State Fault Refusal :=
  match s.offers with
  | [] => .next s
  | w :: rest =>
    match decode w with
    | .ok i => deliver (exec i (({ s with offers := rest } : State).latch w))
    | .error _ => deliver (.next ((({ s with offers := rest } : State).latch w).refuse .illegal))

end Sys2Proof.Machine
end

