-- ==== Sys2Proof/Machine/Step.lean ====
section
/-! DEFINITION. One step of the machine. From an idle block it is one whole command: "the host gives a word, the block runs
the command to its end, the block gives a word" (spec/30_encoding.md R95). From a block found in the middle of a command,
which only the clocked runs of `Sequencer.lean` reach, it is one edge with a prompt environment (the small step of
spec/00_scope.md R17; log entry 11). -/

namespace Sys2Proof.Machine

/-- The step. It stands for an environment that answers every request, the named duty `CapabilitiesAnswer` of R238 (log
entry 11); a block whose capability never answers is `State.clockEdge`'s. -/
def step (s : State) : Host.Outcome State Fault Refusal := if s.busy then s.edgeStep else s.commandStep

/-- The state with an idle host port at which the host offers `w` next (log entry 7). -/
def State.withFetchWord (s : State) (nbits w : Nat) : State :=
  { s with busy := false, rsp := none, offers := BitVec.ofNat 32 (w % 2 ^ nbits) :: s.offers }

end Sys2Proof.Machine
end

