-- ==== Sys2Proof/Machine/Environment.lean ====
section
/-! DEFINITION. The reference environments the spec describes beside the block: the wired-AND line
(spec/60_exceptions.md R233), the capabilities' duty to answer (R238), the loopback pin (spec/43_byte_ops.md R158), the
reference pin adapter (R234) and the reference delay unit (R237). "None is part of the block"; a claim may take one as a premise (R16). -/

namespace Sys2Proof.Machine

/-! ### The wired-AND line on the nominal timeline (R15, R233) -/

/-- The level a sample returns: 0 while the block or a device pulls the line low, 1 otherwise; with `PADOUT` unknown "it
may be either" (`none`). Log entry 14. -/
def lineLevel (pad : PadOut) (devicePulls : Bool) : Option Bool :=
  match pad with
  | .released => some !devicePulls
  | .low => some false
  | .unknown => none

/-- `PADOUT` after an event (R35). -/
def padAfter (pad : PadOut) : Event → PadOut
  | .low => .low
  | .high => .released
  | .sampled _ => pad
  | .waited _ => pad
  | .lowFailed _ => .unknown
  | .highFailed _ => .unknown
  | .sampleFailed _ => pad

/-- The nominal time an event takes: a wait its argument, an access nothing (R15). -/
def nominalUs : Event → Nat
  | .waited us => us.toNat
  | .low => 0
  | .high => 0
  | .sampled _ => 0
  | .lowFailed _ => 0
  | .highFailed _ => 0
  | .sampleFailed _ => 0

/-- The trace (oldest event first), started at nominal time `tau` with `PADOUT = pad`, has only samples the wired-AND line
could have returned when some device pulls the line low exactly at the times `device` says. -/
def WiredAnd (device : Nat → Bool) : Nat → PadOut → List Event → Prop
  | _, _, [] => True
  | tau, pad, e :: es =>
    (∀ l, e = .sampled l → ∀ v, lineLevel pad (device tau) = some v → l = v) ∧
      WiredAnd device (tau + nominalUs e) (padAfter pad e) es

/-! ### The duty to answer (R238) -/

/-- The state after the first `n` of the edges with these inputs. -/
def State.edges (s : State) (inputs : Nat → PortIn) : Nat → State
  | 0 => s
  | n + 1 => (s.edges inputs n).clockEdge (inputs n)

/-- The named duty of R238: "the capabilities answer every request after finite time". A request that is out after `n`
edges is answered at a later edge, unless hardware reset withdraws it. `step`, `exec` and `State.promptInputs` take the
duty as met; the clocked block does not (log entry 11). -/
def CapabilitiesAnswer (inputs : Nat → PortIn) (s : State) : Prop :=
  ∀ (n : Nat) (op : MicroOp), (s.edges inputs n).currentOp = some op →
    ∃ m, n ≤ m ∧ ((inputs m).rstN = false ∨ if op.isPin then (inputs m).pinAck = true else (inputs m).dlyDone = true)

/-! ### The loopback pin (R158) -/

/-- A bit slot as a loopback pin sees it: a write slot with the bit its low time stands for, or a read slot with the level
its sample returned. -/
inductive WireSlot where
  | wrote (bit : Bool)
  | read (level : Bool)
  deriving DecidableEq, Repr

/-- The write slot with low time `low` and release time `high`: 1 for the short low time, 0 for the long one (R131, R158). -/
def writtenSlot (p : Params) (low high : Us) : Option WireSlot :=
  if low = T p .A ∧ high = T p .B then some (.wrote true)
  else if low = T p .C ∧ high = T p .D then some (.wrote false)
  else none

/-- Which slot a pull-low, a wait, a release and a wait are, given the events after them: with a sample next, a read slot
(A, E) or the presence pulse of RESET (H, I), which is no bit slot; otherwise a write slot (log entry 17). -/
def slotOf (p : Params) (low high : Us) : List Event → Option WireSlot
  | .sampled l :: _ =>
    if low = T p .A ∧ high = T p .E then some (.read l)
    else if low = T p .H ∧ high = T p .I then none
    else writtenSlot p low high
  | .sampleFailed _ :: _ =>
    if (low = T p .A ∧ high = T p .E) ∨ (low = T p .H ∧ high = T p .I) then none else writtenSlot p low high
  | _ => writtenSlot p low high

/-- The bit slots in a trace, oldest event first. Everything else in it is passed over: raw accesses, reset pulses, slots
that an error cut short. -/
def wireSlots (p : Params) : List Event → List WireSlot
  | .low :: .waited a :: .high :: .waited b :: es => (slotOf p a b es).toList ++ wireSlots p es
  | _ :: es => wireSlots p es
  | [] => []

/-- The bit a loopback pin records from a slot: it records write slots only. -/
def WireSlot.recorded : WireSlot → Option Bool
  | .wrote b => some b
  | .read _ => none

/-- The bits a loopback pin records from a trace, "for each write slot it sees", in order. -/
def loopbackBits (p : Params) (es : List Event) : List Bool := (wireSlots p es).filterMap WireSlot.recorded

/-- The premise that the pin is a loopback pin: "it answers the sample of the i-th following read slot with the i-th
recorded bit". `pending` are the bits recorded and not yet replayed, oldest first; with none left a sample may be either
(log entry 17). -/
def Replays (pending : List Bool) : List WireSlot → Prop
  | [] => True
  | .wrote b :: xs => Replays (pending ++ [b]) xs
  | .read l :: xs => (∀ b, pending.head? = some b → l = b) ∧ Replays pending.tail xs

/-- Its answers when nothing but read slots follows: every access succeeds, the i-th sample is the i-th recorded bit. -/
def loopbackAnswers : List Bool → List PinAnswer
  | [] => []
  | b :: bs => .ok true :: .ok true :: .ok b :: loopbackAnswers bs

/-! ### The reference pin adapter (R234) -/

/-- `ow_pull_low`, and the acknowledge of the cycle after the request (log entry 17). -/
structure PinAdapter where
  pullLow : Bool
  ack : Bool
  deriving DecidableEq, Repr

/-- One edge of the adapter: a request not yet acknowledged acts on the pad and is acknowledged in the next cycle. -/
def PinAdapter.edge (a : PinAdapter) (req : Option (BitVec 2)) : PinAdapter :=
  match req with
  | none => { a with ack := false }
  | some op =>
    if a.ack then { a with ack := false }
    else { pullLow := if op = 1 then true else if op = 0 then false else a.pullLow, ack := true }

/-- The level of the line on an open-drain pad: low while the adapter or a device pulls. -/
def PinAdapter.line (a : PinAdapter) (devicePulls : Bool) : Bool := !(a.pullLow || devicePulls)

/-! ### The reference delay unit (R237) -/

/-- The down-counter; `none` is idle. `dly_done` is the counter at 0. -/
structure DelayUnit where
  count : Option Nat
  deriving DecidableEq, Repr

/-- `dly_done`. -/
def DelayUnit.done (d : DelayUnit) : Bool := d.count == some 0

/-- One edge with `F_CLK_MHZ = mhz`: the counter is loaded with `n * mhz` at the request and counts down to 0; the edge at
which `dly_done = 1` ends the request. -/
def DelayUnit.edge (mhz : Nat) (d : DelayUnit) (req : Option Us) : DelayUnit :=
  match req, d.count with
  | none, _ => { count := none }
  | some n, none => { count := some (n.toNat * mhz) }
  | some _, some 0 => { count := none }
  | some _, some (k + 1) => { count := some k }

/-! ### The block between a host and the two reference units -/

/-- A closed system but for the host and the devices on the wire. -/
structure Bench where
  block : State
  adapter : PinAdapter
  delay : DelayUnit
  deriving DecidableEq, Repr

/-- What the block sees at an edge: the host's signals are given, `devicePulls` says whether some device pulls the line low;
"`pin_err = 0` always" (R234). A sample returns the level of the line in the cycle of the acknowledge, not in that of the
request: the spec does not say which, DESIGN CHOICE, log entry 21. -/
def Bench.inputs (b : Bench) (host : PortIn) (devicePulls : Bool) : PortIn :=
  { host with
    pinAck := b.adapter.ack
    pinErr := false
    pinEcode := 0
    pinLevel := b.adapter.line devicePulls
    dlyDone := b.delay.done }

/-- One edge of all three. The level a sample returns is that of the acknowledge cycle (DESIGN CHOICE, log entry 21).
`rst_n` reaches the block alone: at an edge with `rst_n = 0` the adapter and the delay unit take an ordinary edge, so
`ow_pull_low`, whose reset value R234 leaves unspecified, keeps its value or acts on the request of that edge (DESIGN
CHOICE, log entry 26). -/
def Bench.edge (mhz : Nat) (b : Bench) (host : PortIn) (devicePulls : Bool) : Bench :=
  { block := b.block.clockEdge (b.inputs host devicePulls)
    adapter := b.adapter.edge b.block.outputs.pin
    delay := b.delay.edge mhz b.block.outputs.dly }

end Sys2Proof.Machine
end

