-- ==== Sys2Proof/Machine/Time.lean ====
section
/-! DEFINITION. Time stamps beside a trace (spec/00_scope.md R15): "`tau` (microseconds, a non-negative real)". No rule of
the block reads them (log entry 14). -/

namespace Sys2Proof.Machine

/-- An event with the time stamps at which it starts and ends, in microseconds. -/
structure TimedEvent where
  event : Event
  start : NNReal
  finish : NNReal

/-- Time stamps the block and its environment could have given a trace from time `tau` on: the sequencer takes any
`SEQ_OVERHEAD >= 0` before each event, a wait of `n` any `d >= n`, an access any `ACCESS_TIME >= 0`; "none of these has an
upper bound". -/
def Timed : NNReal → List TimedEvent → Prop
  | _, [] => True
  | tau, e :: es => tau ≤ e.start ∧ e.start + ((nominalUs e.event : Nat) : NNReal) ≤ e.finish ∧ Timed e.finish es

/-- The time stamp after a timed trace. -/
def endTime : NNReal → List TimedEvent → NNReal
  | tau, [] => tau
  | _, e :: es => endTime e.finish es

end Sys2Proof.Machine
end

