-- ==== Sys2Proof/Machine/HostProgram.lean ====
section
/-! DEFINITION. Host programs: the source's Command Dispatch as the contract of whoever drives the block
(spec/46_command_dispatch.md R200 to R206). It adds no state, port or behaviour to the block. -/

namespace Sys2Proof.Machine

/-- `HostProg(Out) ::= Done(out) | Issue(cmd, next)`, "`next` is given the response word" (R200). -/
inductive HostProg (α : Type) where
  | done (out : α)
  | issue (cmd : Word) (next : Word → HostProg α)

/-- The host offers one word next (R92). -/
def State.offer (s : State) (w : Word) : State := { s with offers := w :: s.offers }

/-- `Commander.run(command)`: the execution of a host program against the block, one command at a time, each response seen
before the next command is chosen (R200, R204). Started on an idle block, each `step` gives the response of the word it
issues. `none` where the step stops, or where no response has been taken at all. What a host program sees when it is
started on a block that is still `BUSY` (R95, R204 keep a host from doing so) the spec does not say: there a step is one
edge of the old command, the issued word stays in `offers`, and the host program is given the latest response taken, an
older command's. DESIGN CHOICE, log entry 25. -/
def HostProg.run {α : Type} : HostProg α → State → Option (α × State)
  | .done a, s => some (a, s)
  | .issue c next, s =>
    match step (s.offer c) with
    | .next t =>
      match t.taken with
      | r :: _ => (next r).run t
      | [] => none
    | .fault _ => none
    | .refused _ => none

/-- Host program `p`, then the host program its result chooses. -/
def HostProg.bind {α β : Type} : HostProg α → (α → HostProg β) → HostProg β
  | .done a, f => f a
  | .issue c next, f => .issue c fun r => (next r).bind f

/-- Issues the words in order and returns the responses, oldest first. -/
def HostProg.ofWords : List Word → HostProg (List Word)
  | [] => .done []
  | w :: ws => .issue w fun r => (HostProg.ofWords ws).bind fun rs => .done (r :: rs)

end Sys2Proof.Machine
end

