-- ==== Sys2Proof/WellFormed.lean ====
section
/-! DEFINITION. Which commands have operands in the legal range of a block with `depth` buffer cells
(spec/30_encoding.md R72 column `a`). The widths of the fields are in the types of `Instr`; a command out of range still
encodes and decodes (R83) and is refused when executed (`Machine/Operands.lean`). -/

namespace Sys2Proof

/-- `len` is "legal 0..BUF_DEPTH", `idx` is "legal 0..BUF_DEPTH-1", every other operand is legal at every value (R72). -/
def Instr.wellFormed (depth : Nat) : Instr → Bool
  | .init => true
  | .sethi => true
  | .setlo => true
  | .ishi => true
  | .islo => true
  | .wait _ => true
  | .reset => true
  | .rdbit => true
  | .wrbit1 => true
  | .wrbit0 => true
  | .wrbit _ => true
  | .rdbyte => true
  | .wrbyte _ => true
  | .rdbytes len => decide (len.toNat ≤ depth)
  | .wrbytes len => decide (len.toNat ≤ depth)
  | .crc8 len => decide (len.toNat ≤ depth)
  | .chkcrc len => decide (len.toNat ≤ depth)
  | .ldbuf idx => decide (idx.toNat < depth)
  | .stbuf idx _ => decide (idx.toNat < depth)
  | .getspd => true
  | .setspd _ => true

end Sys2Proof
end

