-- ==== Sys2Proof/Safety.lean ====
section
/-! DEFINITION. What counts as a safe run, and the terms the claims are stated in: the invariant, idle and final states,
traces, the answers an oracle gives, the bytes a list of bits makes. -/

namespace Sys2Proof.Machine

/-! ### Responses -/

/-- The form of every response word (R74, R75): a status 0 to 5, reserved bits 0, `ecode` 0 unless `PIN_ERROR`, `data` 0
unless `OK`. -/
def responseOk (r : Word) : Bool :=
  decide ((rspStatus r).toNat < 6) && (rspReserved r == 0) && (rspStatus r == 1 || rspEcode r == 0) &&
    (rspStatus r == 0 || rspData r == 0)

/-- The status of the pending response is `status`. -/
def State.Answered (s : State) (status : Status) : Prop := ∃ r, s.rsp = some r ∧ rspStatus r = status.code

/-! ### The invariant -/

/-- The ranges of the sequencing registers while command `i` runs (R24). -/
def countersOk (i : Instr) (s : State) : Bool :=
  match i with
  | .rdbyte => decide (s.bitc.toNat < 8)
  | .wrbyte _ => decide (s.bitc.toNat < 8)
  | .rdbytes len => decide (s.bitc.toNat < 8) && decide (s.idx.toNat < len.toNat)
  | .wrbytes len => decide (s.bitc.toNat < 8) && decide (s.idx.toNat < len.toNat)
  | _ => true

/-- A running command has passed its checks, and its sequencing registers name a micro-operation (R24, R214). -/
def State.sequencerOk (s : State) : Bool :=
  !s.running ||
    match decode s.cmd with
    | .error _ => false
    | .ok i => (refusal i s).isNone && decide (slotIndex i s < (slotOps i s).length) && countersOk i s

/-- The invariant of the machine: admissible parameters (R7), `BUF` in canonical form with existing cells only (R50), a
response pending only while `BUSY` (R94), responses of the form of R74 and R75, a sequencer in range, and no command in
a hardware reset (R250). -/
abbrev State.Inv (s : State) : Prop :=
  s.params.Admissible ∧ Memory.wf s.buf = true ∧ Memory.below s.params.bufDepth s.buf = true ∧
    (s.rsp.isSome = true → s.busy = true) ∧ s.rsp.all responseOk = true ∧ s.taken.all responseOk = true ∧
    s.sequencerOk = true ∧ (s.inReset = true → s.busy = false)

/-- The block is between two commands (R95). -/
abbrev State.Idle (s : State) : Prop := s.busy = false ∧ s.rsp = none

/-- "`BUSY = 0`, no pin access and no delay request is outstanding", the last response handed over (R206). -/
abbrev State.Final (s : State) : Prop := s.Idle ∧ s.outputs.pin = none ∧ s.outputs.dly = none

/-! ### Traces -/

/-- The trace of a command (R14), oldest event first: the events of `after` that `before` does not have yet. -/
def newEvents (before after : State) : List Event :=
  (after.history.take (after.history.length - before.history.length)).reverse

/-- An event is a pin access that returned or failed, not a wait. -/
def isAccess : Event → Bool
  | .waited _ => false
  | .low => true
  | .high => true
  | .sampled _ => true
  | .lowFailed _ => true
  | .highFailed _ => true
  | .sampleFailed _ => true

/-- The error code of a failed access. -/
def failCode : Event → Option Byte
  | .lowFailed e => some e
  | .highFailed e => some e
  | .sampleFailed e => some e
  | .low => none
  | .high => none
  | .sampled _ => none
  | .waited _ => none

/-- The event of a micro-operation that is answered so (R14). -/
def eventOf : MicroOp → PinAnswer → Event
  | .wait n, _ => .waited n
  | .low, .ok _ => .low
  | .low, .err e => .lowFailed e
  | .high, .ok _ => .high
  | .high, .err e => .highFailed e
  | .sample, .ok l => .sampled l
  | .sample, .err e => .sampleFailed e

/-- Pin accesses in a trace (R275). -/
def accessCount (es : List Event) : Nat := (es.filter isAccess).length

/-- Waits in a trace (R275). -/
def waitCount (es : List Event) : Nat := (es.filter fun e => !isAccess e).length

/-- Nominal duration of a trace (R15, R275): the sum of its waits, a lower bound on the real time. -/
def duration (es : List Event) : Nat := (es.map nominalUs).sum

/-- The trace of a read slot that sampled `l`: the spec's `R(x)` (R133). -/
def readTrace (p : Params) (l : Bool) : List Event :=
  [.low, .waited p.std.A, .high, .waited p.std.E, .sampled l, .waited p.std.F]

/-- The trace of a write slot of the bit `b`: the spec's `W1` and `W0` (R131, R133). -/
def writeTrace (p : Params) (b : Bool) : List Event :=
  if b then [.low, .waited p.std.A, .high, .waited p.std.B] else [.low, .waited p.std.C, .high, .waited p.std.D]

/-- The bits of a byte in wire order, least significant first (R55). -/
def bitsOf (v : Byte) : List Bool := (List.range 8).map v.getLsbD

/-- The byte whose bit `i` is the `i`-th of the bits (R55, R150). -/
def byteOfBits (bs : List Bool) : Byte := BitVec.ofNat 8 (bs.foldr (fun b n => 2 * n + b.toNat) 0)

/-- The trace of a byte written (R150). -/
def writeByteTrace (p : Params) (v : Byte) : List Event := (bitsOf v).flatMap (writeTrace p)

/-- The trace of a read slot cut short by error `e` at its access number `j`: 0 the pull-low, 1 the release, 2 the sample
(R140). -/
def readAbort (p : Params) (j : Nat) (e : Byte) : List Event :=
  match j with
  | 0 => [.lowFailed e]
  | 1 => [.low, .waited p.std.A, .highFailed e]
  | _ => [.low, .waited p.std.A, .high, .waited p.std.E, .sampleFailed e]

/-- `PADOUT` after such a read slot (R140). -/
def readAbortPad (j : Nat) : PadOut := if j = 2 then .released else .unknown

/-- The trace of a write slot of bit `b` cut short by error `e` at its access number `j`: 0 the pull-low, 1 the release
(R140). -/
def writeAbort (p : Params) (b : Bool) (j : Nat) (e : Byte) : List Event :=
  match j with
  | 0 => [.lowFailed e]
  | _ => [.low, .waited (if b then p.std.A else p.std.C), .highFailed e]

/-- The level a sample event returned. -/
def sampleLevel : Event → Option Bool
  | .sampled l => some l
  | .low => none
  | .high => none
  | .waited _ => none
  | .lowFailed _ => none
  | .highFailed _ => none
  | .sampleFailed _ => none

/-- The level of the last sample in a trace, oldest event first. -/
def lastSample : List Event → Option Bool
  | [] => none
  | e :: es => (lastSample es).or (sampleLevel e)

/-- Pin accesses, waits and nominal duration of a command that completes, from the table of R275. -/
def nominalCounts (p : Params) : Instr → Nat × Nat × Nat
  | .init => (1, 0, 0)
  | .sethi => (1, 0, 0)
  | .setlo => (1, 0, 0)
  | .ishi => (1, 0, 0)
  | .islo => (1, 0, 0)
  | .wait us => (0, 1, us.toNat)
  | .reset => (3, 4, p.std.G.toNat + p.std.H.toNat + p.std.I.toNat + p.std.J.toNat)
  | .rdbit => (3, 3, p.std.A.toNat + p.std.E.toNat + p.std.F.toNat)
  | .wrbit1 => (2, 2, p.std.A.toNat + p.std.B.toNat)
  | .wrbit0 => (2, 2, p.std.C.toNat + p.std.D.toNat)
  | .wrbit b => (2, 2, if b then p.std.A.toNat + p.std.B.toNat else p.std.C.toNat + p.std.D.toNat)
  | .rdbyte => (24, 24, 8 * (p.std.A.toNat + p.std.E.toNat + p.std.F.toNat))
  | .wrbyte _ => (16, 16, 8 * (p.std.A.toNat + p.std.B.toNat))
  | .rdbytes len =>
    (24 * len.toNat, 24 * len.toNat, 8 * len.toNat * (p.std.A.toNat + p.std.E.toNat + p.std.F.toNat))
  | .wrbytes len => (16 * len.toNat, 16 * len.toNat, 8 * len.toNat * (p.std.A.toNat + p.std.B.toNat))
  | .crc8 _ => (0, 0, 0)
  | .chkcrc _ => (0, 0, 0)
  | .ldbuf _ => (0, 0, 0)
  | .stbuf _ _ => (0, 0, 0)
  | .getspd => (0, 0, 0)
  | .setspd _ => (0, 0, 0)

/-! ### Refusals and outcomes, from the words of the spec -/

/-- The state check of R216 fails: "INIT is refused when `CONSTRUCTED = 1`"; the pin, delay and speed commands "are refused
when `CONSTRUCTED = 0`"; CRC8, CHKCRC, LDBUF, STBUF "are never refused for state". -/
def StateRefuses (s : State) : Instr → Prop
  | .init => s.constructed = true
  | .crc8 _ => False
  | .chkcrc _ => False
  | .ldbuf _ => False
  | .stbuf _ _ => False
  | _ => s.constructed = false

/-- The commands that perform a pin access (R211). -/
def touchesPin : Instr → Bool
  | .wait _ => false
  | .crc8 _ => false
  | .chkcrc _ => false
  | .ldbuf _ => false
  | .stbuf _ _ => false
  | .getspd => false
  | .setspd _ => false
  | _ => true

/-- The commands that return a value in `data` (R76). -/
def returnsValue : Instr → Bool
  | .ishi => true
  | .islo => true
  | .reset => true
  | .rdbit => true
  | .rdbyte => true
  | .crc8 _ => true
  | .ldbuf _ => true
  | .getspd => true
  | _ => false

/-! ### Oracles -/

/-- The oracle `o` answers the coming accesses with the listed answers, and is `o'` after them. -/
def Oracle.Gives : Oracle → List PinAnswer → Oracle → Prop
  | o, [], o' => o' = o
  | o, a :: as, o' => o.next.1 = a ∧ o.next.2.Gives as o'

/-- What the pin capability answers to the three accesses of a read slot that all succeed: the level is that of the sample,
the other two are not looked at. -/
structure SlotAnswer where
  atLow : Bool
  atHigh : Bool
  level : Bool
  deriving DecidableEq, Repr

/-- The three answers in the order of the accesses. -/
def SlotAnswer.answers (x : SlotAnswer) : List PinAnswer := [.ok x.atLow, .ok x.atHigh, .ok x.level]

/-- The levels sampled in a list of read slots. -/
def levels (xs : List SlotAnswer) : List Bool := xs.map SlotAnswer.level

/-- A list of answers to drive accesses that all succeed. -/
def drivesOk (ls : List Bool) : List PinAnswer := ls.map PinAnswer.ok

/-! ### What persists -/

/-- Two blocks agree on everything that outlives a command and on what is still to come from outside: the parameters,
`CONSTRUCTED`, `SPEED`, `BUF` with its unwritten cells, and the oracle (R41, R203). -/
structure SameBlock (s t : State) : Prop where
  params : s.params = t.params
  constructed : s.constructed = t.constructed
  speed : s.speed = t.speed
  buf : s.buf = t.buf
  era : s.era = t.era
  oracle : s.oracle = t.oracle

/-- `n` edges in a prompt environment. -/
def promptEdges : Nat → State → State
  | 0, s => s
  | n + 1, s => promptEdges n s.promptEdge

end Sys2Proof.Machine
end

