-- ==== Sys2Proof/Certificates/Slice0/Obligations.lean ====
section
/-! DEFINITION. The statements for the provers. Each docstring names the rule of spec/ it formalises; a clause that rests
on a choice of the model names its log entry. `s` is a state before, `t` the state after. -/

open Sys2Proof Sys2Proof.Machine

/-! ### Encoding and decoding -/

/-- Every command is what its word decodes to, with every operand at every value (R72, R73, R80, R83). -/
def Obligations.EncodeThenDecodeGivesTheCommand : Prop :=
  ∀ i : Instr, decode (encode i) = .ok i

/-- Every word that decodes is the word of the command it decodes to: no bit of it is dropped (R72, R82). -/
def Obligations.DecodedWordIsTheEncodedCommand : Prop :=
  ∀ (w : Word) (i : Instr), decode w = .ok i → encode i = w

/-- R82: a word is a legal encoding of a command exactly when `w & mask = match` for that command's row, the rows' match
sets are disjoint, and any other word does nothing but answer `ILLEGAL`. That the illegal word stands in `CMD` (R93) is
DEDUCED, log entry 16; that accepting a word ends `inReset` is the model's, log entry 22. -/
def Obligations.WordIsLegalExactlyWhenItsRowMatches : Prop :=
  (∀ r ∈ opcodeRows, ∀ w : Word, w &&& r.mask = r.pattern ↔ ∃ i, decode w = .ok i ∧ i.mnemonic = r.mnemonic) ∧
  (opcodeRows.Pairwise fun r r' => r.op ≠ r'.op ∧
    ∀ w : Word, ¬ (w &&& r.mask = r.pattern ∧ w &&& r'.mask = r'.pattern)) ∧
  (∀ (s : State) (w : Word) (rest : List Word), s.Idle → s.offers = w :: rest →
    (∀ r ∈ opcodeRows, w &&& r.mask ≠ r.pattern) →
    step s = .next { s with offers := rest, cmd := w, inReset := false, taken := 0x30000000#32 :: s.taken })

/-- R81: a word with opcode 0x00 or 0x16 to 0xFF does nothing but answer `ILLEGAL`, which the host has (R94). That the word
stands in `CMD` (R93) is DEDUCED, log entry 16; that accepting it ends `inReset` is the model's, log entry 22. -/
def Obligations.UndefinedOpcodeDoesNothing : Prop :=
  ∀ (s : State) (w : Word) (rest : List Word), s.Idle → s.offers = w :: rest →
    (opField w = 0 ∨ 0x16 ≤ (opField w).toNat) →
    step s = .next { s with offers := rest, cmd := w, inReset := false, taken := 0x30000000#32 :: s.taken }

/-- Words of spec/95_test_vectors.md section 2.1 decode to the command written beside them. -/
def Obligations.SpecWordsDecodeAsWritten : Prop :=
  decode 0x0601E000 = .ok (.wait 480) ∧ decode 0x06FFFF00 = .ok (.wait 65535) ∧
  decode 0x0B000001 = .ok (.wrbit true) ∧ decode 0x0D0000B2 = .ok (.wrbyte 0xB2) ∧
  decode 0x0E000900 = .ok (.rdbytes 9) ∧ decode 0x0E010100 = .ok (.rdbytes 257) ∧
  decode 0x1300FFFF = .ok (.stbuf 255 0xFF) ∧ decode 0x1200FF00 = .ok (.ldbuf 255) ∧
  decode 0x15000001 = .ok (.setspd true) ∧ decode 0x00000000 = .error (.undefinedOpcode 0x00) ∧
  decode 0x07000001 = .error (.reservedBits 0x07) ∧ decode 0x0B000002 = .error (.reservedBits 0x0B)

/-! ### The step -/

/-- One step from an idle block: with no word offered nothing happens; a word that decodes to `i` is latched (R93), `i` is
executed, and the host takes its response (R94, R95). `withFetchWord` offers its word next (log entry 7). `inReset` is the
model's (log entry 22). -/
def Obligations.StepRunsTheDecodedCommand : Prop :=
  (∀ s : State, s.busy = false → s.offers = [] → step s = .next s) ∧
  (∀ (s : State) (w : Word) (rest : List Word) (i : Instr), s.busy = false → s.offers = w :: rest →
    decode w = .ok i →
    step s = deliver (exec i { s with offers := rest, cmd := w, busy := true, inReset := false })) ∧
  (∀ (t : State) (r : Word), t.rsp = some r →
    deliver (.next t) = .next { t with busy := false, rsp := none, taken := r :: t.taken }) ∧
  (∀ (s : State) (w : Nat) (i : Instr), decode (BitVec.ofNat 32 w) = .ok i → w < 2 ^ 32 →
    step (s.withFetchWord 32 w) =
      deliver (exec i { s with cmd := BitVec.ofNat 32 w, busy := true, rsp := none, inReset := false }))

/-- Every command, from every state, ends in a next state with exactly one response pending, of the form of R74 and R75,
and its events stand after the earlier ones in the history (R14, R17, R210). `exec` takes the duty of R238 as met (log
entry 11); `CommandsEndWhenTheCapabilitiesAnswer` has it as a premise. -/
def Obligations.EveryCommandAnswers : Prop :=
  ∀ (i : Instr) (s : State), ∃ (t : State) (r : Word) (es : List Event),
    exec i s = .next t ∧ t.rsp = some r ∧ responseOk r = true ∧ t.history = es ++ s.history

/-- From a state that meets the invariant a step gives a next state that meets it: no step faults. -/
def Obligations.EveryStepKeepsTheInvariant : Prop :=
  ∀ s : State, s.Inv → ∃ t, step s = .next t ∧ t.Inv

/-- The invariant holds right after reset. -/
def Obligations.InvariantHoldsAtReset : Prop := State.reset.Inv

/-- A clock edge keeps the invariant, whatever the inputs are, hardware reset included. -/
def Obligations.EveryClockEdgeKeepsTheInvariant : Prop :=
  ∀ (s : State) (i : PortIn), s.Inv → (s.clockEdge i).Inv

/-- The command-level step and the clocked sequencer agree: with an environment that answers at once, the edge of
acceptance, one edge for each event of the command's trace and the edge of the hand-over lead to the same state. The
absence of further edges is the model's choice (log entry 8). -/
def Obligations.ClockEdgesRefineTheCommandStep : Prop :=
  ∀ (s : State) (w : Word) (rest : List Word), s.Idle → s.params.Admissible → s.offers = w :: rest →
    ∃ t, step s = .next t ∧ promptEdges (2 + (newEvents s t).length) s = t

/-! ### Reset -/

/-- What the spec gives for power-on reset: R45's table, and R250's "idle until the host gives the first command". The
transient registers are the model's (log entry 5), the parameters R6's defaults (log entries 1, 2). -/
def Obligations.ResetLeavesAnIdleUnconstructedBlock : Prop :=
  State.reset.constructed = false ∧ State.reset.speed = .standard ∧ State.reset.busy = false ∧
  State.reset.rsp = none ∧ State.reset.padout = .unknown ∧ (∀ a, Memory.read State.reset.buf a = none) ∧
  State.reset.params.Admissible ∧ step State.reset = .next State.reset

/-- R250, R45, R35: hardware reset from any state; that of an idle block leaves `PADOUT` unknown. Which of R35, R250, R251
holds for `PADOUT` when is DEDUCED, log entry 9. That the history stays as it was at an edge where a `pin_ack` or a
`dly_done` answers a request is the model's choice, log entry 20; that a second edge with `rst_n = 0` changes nothing more
is the model's, log entry 22. -/
def Obligations.HardwareResetPutsTheBlockIdle : Prop :=
  ∀ (s : State) (i : PortIn), i.rstN = false →
    (s.clockEdge i).constructed = false ∧ (s.clockEdge i).speed = .standard ∧ (s.clockEdge i).busy = false ∧
    (s.clockEdge i).outputs = { cmdReady := true, rsp := none, pin := none, dly := none } ∧
    (s.busy = false → s.inReset = false → (s.clockEdge i).padout = .unknown) ∧
    (s.clockEdge i).history = s.history ∧
    (∀ j : PortIn, j.rstN = false → (s.clockEdge i).clockEdge j = s.clockEdge i) ∧
    (∀ j : PortIn, j.rstN = true → j.cmdValid = false →
      (s.clockEdge i).clockEdge j = { s.clockEdge i with inReset := false })

/-- R251: hardware reset during a command abandons it, however many edges it lasts: no response, no further
micro-operation, the request withdrawn, the line not released, and the cells the command has already written keep their
bytes. Which cells those are (those below `IDX` of an RDBYTES, the cell of an STBUF whose response waits) is DEDUCED, log
entry 10; `PADOUT`, Low in a low pulse and Unknown otherwise, is DEDUCED, log entry 9, and that it stays Low while only a
response waits is the model's choice, log entry 23; that several edges are one reset is
the model's, log entry 22, and so is the answer dropped at the reset edge, log entry 20. -/
def Obligations.HardwareResetAbandonsTheCommand : Prop :=
  ∀ (s : State) (i : PortIn), s.busy = true → i.rstN = false →
    (s.clockEdge i).rsp = none ∧ (s.clockEdge i).taken = s.taken ∧ (s.clockEdge i).history = s.history ∧
    (s.clockEdge i).outputs.pin = none ∧ (s.clockEdge i).outputs.dly = none ∧
    (s.padout = .low → s.currentOp ≠ some .high → (s.clockEdge i).padout = .low) ∧
    (s.padout ≠ .low ∨ s.currentOp = some .high → (s.clockEdge i).padout = .unknown) ∧
    (∀ resets : List PortIn, (∀ j ∈ resets, j.rstN = false) →
      resets.foldl State.clockEdge (s.clockEdge i) = s.clockEdge i) ∧
    (∀ (len : BitVec 16) (a : Nat), (∀ r, s.rsp = some r → (rspStatus r).toNat < 3) →
      decode s.cmd = .ok (.rdbytes len) → a < s.idx.toNat →
      Memory.read (s.clockEdge i).buf a = Memory.read s.buf a) ∧
    (∀ (idx : BitVec 16) (v : Byte), s.rsp = some 0 → decode s.cmd = .ok (.stbuf idx v) →
      Memory.read (s.clockEdge i).buf idx.toNat = Memory.read s.buf idx.toNat)

/-! ### The ports -/

/-- R93: at an edge with `cmd_valid` and `cmd_ready` the word is latched and `BUSY` set; while `BUSY`, `cmd_ready` is 0,
`CMD` stays and the host's command signals are not looked at. -/
def Obligations.BusyBlockAcceptsNoCommand : Prop :=
  (∀ s : State, s.outputs.cmdReady = !s.busy) ∧
  (∀ (s : State) (i : PortIn), s.busy = false → i.rstN = true → i.cmdValid = true →
    (s.clockEdge i).cmd = i.cmdData ∧ (s.clockEdge i).busy = true) ∧
  (∀ (s : State) (i : PortIn) (v : Bool) (w : Word), s.busy = true →
    s.clockEdge { i with cmdValid := v, cmdData := w } = s.clockEdge i ∧
    (i.rstN = true → (s.clockEdge i).cmd = s.cmd))

/-- R94: a pending response is held until the host takes it; that edge clears it and `BUSY`. -/
def Obligations.ResponseIsHeldUntilTaken : Prop :=
  ∀ (s : State) (i : PortIn) (r : Word), s.busy = true → s.rsp = some r → i.rstN = true →
    s.outputs.rsp = some r ∧ s.outputs.pin = none ∧ s.outputs.dly = none ∧
    (i.rspReady = false → s.clockEdge i = s) ∧
    (i.rspReady = true → s.clockEdge i = { s with busy := false, rsp := none, taken := r :: s.taken })

/-- R238: a request that is never answered keeps the block `BUSY` for ever, and only hardware reset ends it. -/
def Obligations.UnansweredRequestHangsTheBlock : Prop :=
  ∀ (s : State) (op : MicroOp) (inputs : List PortIn), s.currentOp = some op →
    (∀ i ∈ inputs, i.rstN = true ∧ i.pinAck = false ∧ i.dlyDone = false) →
    inputs.foldl State.clockEdge s = s ∧ s.busy = true ∧ s.outputs.cmdReady = false ∧
    (∀ i : PortIn, i.rstN = false → (s.clockEdge i).busy = false)

/-- R238, R17: a command ends with a response after finitely many edges, provided the capabilities answer every request
(the duty `CapabilitiesAnswer`) and no hardware reset strikes, whatever the host does meanwhile. -/
def Obligations.CommandsEndWhenTheCapabilitiesAnswer : Prop :=
  ∀ (s : State) (inputs : Nat → PortIn), s.Inv → s.busy = true → (∀ n, (inputs n).rstN = true) →
    CapabilitiesAnswer inputs s →
    ∃ (n : Nat) (r : Word), (s.edges inputs n).rsp = some r ∧ (s.edges inputs n).busy = true ∧ responseOk r = true

/-- R230, R231, R235, R236: never two requests at once, `pin_op = 3` never issued, a request is stable until it is
answered, and the answer takes effect at that edge, its event with it. That the register updates and the next request or
the response come at that very edge is the model's choice, log entry 8. -/
def Obligations.OneStableRequestAtATime : Prop :=
  ∀ s : State,
    (s.outputs.pin = none ∨ s.outputs.dly = none) ∧ s.outputs.pin ≠ some 3 ∧
    (∀ i : PortIn, s.outputs.pin.isSome = true → i.rstN = true → i.pinAck = false → s.clockEdge i = s) ∧
    (∀ i : PortIn, s.outputs.dly.isSome = true → i.rstN = true → i.dlyDone = false → s.clockEdge i = s) ∧
    (∀ (i : PortIn) (op : MicroOp), s.currentOp = some op → i.rstN = true →
      (op.isPin = true → i.pinAck = true → s.clockEdge i = s.answerOp op i.answer ∧
        (s.clockEdge i).history = eventOf op i.answer :: s.history) ∧
      (∀ n, op = .wait n → i.dlyDone = true → s.outputs.dly = some n ∧ (s.clockEdge i).history = .waited n :: s.history))

/-- R26, R121: what a running RESET requests at each value of `PHASE`, and the name of the state; the end of the command is
`RecoveryIdle(high)` too. That the response is pending right after the edge that answers the last wait is the model's
choice, log entry 8; that `PHASE` then is 7 is its choice, log entry 12, and that this is R26's end of the command is
DEDUCED, log entry 24. -/
def Obligations.ResetPhasesRequestTheirMicroOperation : Prop :=
  ∀ s : State, s.running = true → s.cmd = 0x07000000#32 →
    (s.phase = 0 → resetPhase s.phase = some .idleHigh ∧ s.currentOp = some (.wait s.params.std.G)) ∧
    (s.phase = 1 → resetPhase s.phase = some .lowPulse ∧ s.currentOp = some .low) ∧
    (s.phase = 2 → resetPhase s.phase = some .lowPulse ∧ s.currentOp = some (.wait s.params.std.H)) ∧
    (s.phase = 3 → resetPhase s.phase = some .releasedWaitingSample ∧ s.currentOp = some .high) ∧
    (s.phase = 4 → resetPhase s.phase = some .releasedWaitingSample ∧ s.currentOp = some (.wait s.params.std.I)) ∧
    (s.phase = 5 → resetPhase s.phase = some .sampledPresence ∧ s.currentOp = some .sample) ∧
    (s.phase = 6 → resetPhase s.phase = some .recoveryIdleHigh ∧ s.currentOp = some (.wait s.params.std.J) ∧
      ∀ i : PortIn, i.rstN = true → i.dlyDone = true →
        (s.clockEdge i).rsp = some (responseWord .ok 0 (boolByte !s.samp)) ∧
        (s.clockEdge i).phase = 7 ∧ resetPhase (s.clockEdge i).phase = some .recoveryIdleHigh)

/-! ### Construction, raw pin and delay commands -/

/-- R101: INIT. Each next state is written out whole, so everything not named is unchanged. -/
def Obligations.InitConstructsTheDriver : Prop :=
  encode .init = 0x01000000#32 ∧
  (∀ (s : State) (l : Bool) (o : Oracle), s.constructed = false → s.oracle.next = (.ok l, o) →
    exec .init s = .next { s with
      constructed := true, speed := .standard, oracle := o, history := .high :: s.history, padout := .released,
      rsp := some 0x00000000#32 }) ∧
  (∀ (s : State) (e : Byte) (o : Oracle), s.constructed = false → s.oracle.next = (.err e, o) →
    exec .init s = .next { s with
      oracle := o, history := .highFailed e :: s.history, padout := .unknown,
      rsp := some (responseWord .pinError e 0) }) ∧
  (∀ s : State, s.constructed = true → exec .init s = .next { s with rsp := some 0x50000000#32 })

/-- R102: SETHI. -/
def Obligations.SethiReleasesTheLine : Prop :=
  encode .sethi = 0x02000000#32 ∧
  (∀ (s : State) (l : Bool) (o : Oracle), s.constructed = true → s.oracle.next = (.ok l, o) →
    exec .sethi s = .next { s with
      oracle := o, history := .high :: s.history, padout := .released, rsp := some 0x00000000#32 }) ∧
  (∀ (s : State) (e : Byte) (o : Oracle), s.constructed = true → s.oracle.next = (.err e, o) →
    exec .sethi s = .next { s with
      oracle := o, history := .highFailed e :: s.history, padout := .unknown,
      rsp := some (responseWord .pinError e 0) }) ∧
  (∀ s : State, s.constructed = false → exec .sethi s = .next { s with rsp := some 0x50000000#32 })

/-- R103: SETLO. -/
def Obligations.SetloPullsTheLineLow : Prop :=
  encode .setlo = 0x03000000#32 ∧
  (∀ (s : State) (l : Bool) (o : Oracle), s.constructed = true → s.oracle.next = (.ok l, o) →
    exec .setlo s = .next { s with
      oracle := o, history := .low :: s.history, padout := .low, rsp := some 0x00000000#32 }) ∧
  (∀ (s : State) (e : Byte) (o : Oracle), s.constructed = true → s.oracle.next = (.err e, o) →
    exec .setlo s = .next { s with
      oracle := o, history := .lowFailed e :: s.history, padout := .unknown,
      rsp := some (responseWord .pinError e 0) }) ∧
  (∀ s : State, s.constructed = false → exec .setlo s = .next { s with rsp := some 0x50000000#32 })

/-- R104: ISHI. -/
def Obligations.IshiReportsTheLevel : Prop :=
  encode .ishi = 0x04000000#32 ∧
  (∀ (s : State) (l : Bool) (o : Oracle), s.constructed = true → s.oracle.next = (.ok l, o) →
    exec .ishi s = .next { s with
      oracle := o, history := .sampled l :: s.history, samp := l,
      rsp := some (if l then 0x00000001#32 else 0x00000000#32) }) ∧
  (∀ (s : State) (e : Byte) (o : Oracle), s.constructed = true → s.oracle.next = (.err e, o) →
    exec .ishi s = .next { s with
      oracle := o, history := .sampleFailed e :: s.history, rsp := some (responseWord .pinError e 0) }) ∧
  (∀ s : State, s.constructed = false → exec .ishi s = .next { s with rsp := some 0x50000000#32 })

/-- R105: ISLO, the complement of what ISHI answers on the same sample. -/
def Obligations.IsloReportsTheComplement : Prop :=
  encode .islo = 0x05000000#32 ∧
  (∀ (s : State) (l : Bool) (o : Oracle), s.constructed = true → s.oracle.next = (.ok l, o) →
    exec .islo s = .next { s with
      oracle := o, history := .sampled l :: s.history, samp := l,
      rsp := some (if l then 0x00000000#32 else 0x00000001#32) }) ∧
  (∀ (s : State) (e : Byte) (o : Oracle), s.constructed = true → s.oracle.next = (.err e, o) →
    exec .islo s = .next { s with
      oracle := o, history := .sampleFailed e :: s.history, rsp := some (responseWord .pinError e 0) }) ∧
  (∀ s : State, s.constructed = false → exec .islo s = .next { s with rsp := some 0x50000000#32 })

/-- R106: WAIT is one request, for `us = 0` too. -/
def Obligations.WaitIssuesOneRequest : Prop :=
  (∀ us : Us, encode (.wait us) = 0x06000000#32 ||| (us.setWidth 32 <<< 8)) ∧
  (∀ (s : State) (us : Us), s.constructed = true →
    exec (.wait us) s = .next { s with history := .waited us :: s.history, rsp := some 0x00000000#32 }) ∧
  (∀ (s : State) (us : Us), s.constructed = false →
    exec (.wait us) s = .next { s with rsp := some 0x50000000#32 })

/-! ### Reset and presence -/

/-- R121 and R124: RESET's sequence and result, its three aborts, its refusal. The final `PHASE` is the model's choice, log
entry 12. -/
def Obligations.ResetSendsThePulseAndReportsPresence : Prop :=
  encode .reset = 0x07000000#32 ∧
  (∀ (s : State) (x : SlotAnswer) (o : Oracle), s.constructed = true → s.oracle.Gives x.answers o →
    exec .reset s = .next { s with
      oracle := o, phase := 7, samp := x.level, padout := .released,
      history := [.waited s.params.std.J, .sampled x.level, .waited s.params.std.I, .high, .waited s.params.std.H,
        .low, .waited s.params.std.G] ++ s.history,
      rsp := some (if x.level then 0x00000000#32 else 0x00000001#32) }) ∧
  (∀ (s : State) (e : Byte) (o : Oracle), s.constructed = true → s.oracle.Gives [.err e] o →
    exec .reset s = .next { s with
      oracle := o, phase := 1, padout := .unknown,
      history := [.lowFailed e, .waited s.params.std.G] ++ s.history,
      rsp := some (responseWord .pinError e 0) }) ∧
  (∀ (s : State) (a : Bool) (e : Byte) (o : Oracle), s.constructed = true → s.oracle.Gives [.ok a, .err e] o →
    exec .reset s = .next { s with
      oracle := o, phase := 3, padout := .unknown,
      history := [.highFailed e, .waited s.params.std.H, .low, .waited s.params.std.G] ++ s.history,
      rsp := some (responseWord .pinError e 0) }) ∧
  (∀ (s : State) (a b : Bool) (e : Byte) (o : Oracle), s.constructed = true →
    s.oracle.Gives [.ok a, .ok b, .err e] o →
    exec .reset s = .next { s with
      oracle := o, phase := 5, padout := .released,
      history := [.sampleFailed e, .waited s.params.std.I, .high, .waited s.params.std.H, .low,
        .waited s.params.std.G] ++ s.history,
      rsp := some (responseWord .pinError e 0) }) ∧
  (∀ s : State, s.constructed = false → exec .reset s = .next { s with rsp := some 0x50000000#32 })

/-- R122, marked `[derived: from rule R121]` by the spec: on a wired-AND line (R233, `[derived: from the quoted sentences]`;
as a premise in nominal time DEDUCED, log entry 14) whose devices pull low exactly at the nominal times `device` says, a RESET that completes
reports presence exactly when a device pulls at the instant `T(G) + T(H) + T(I)`. -/
def Obligations.PresenceIsTheLineAtTheSampleInstant : Prop :=
  ∀ (s t : State) (device : Nat → Bool), exec .reset s = .next t → t.Answered .ok →
    WiredAnd device 0 s.padout (newEvents s t) →
    t.rsp = some (responseWord .ok 0
      (boolByte (device (s.params.std.G.toNat + s.params.std.H.toNat + s.params.std.I.toNat))))

/-! ### Bit slots -/

/-- R135, with the aborts of R140: RDBIT. The final `PHASE` is the model's choice, log entry 12. -/
def Obligations.RdbitReadsOneSlot : Prop :=
  encode .rdbit = 0x08000000#32 ∧
  (∀ (s : State) (x : SlotAnswer) (o : Oracle), s.constructed = true → s.oracle.Gives x.answers o →
    exec .rdbit s = .next { s with
      oracle := o, phase := 6, samp := x.level, padout := .released,
      history := (readTrace s.params x.level).reverse ++ s.history,
      rsp := some (if x.level then 0x00000001#32 else 0x00000000#32) }) ∧
  (∀ (s : State) (ls : List Bool) (e : Byte) (o : Oracle), s.constructed = true → ls.length ≤ 2 →
    s.oracle.Gives (drivesOk ls ++ [.err e]) o →
    exec .rdbit s = .next { s with
      oracle := o, phase := BitVec.ofNat 4 (2 * ls.length), padout := readAbortPad ls.length,
      history := (readAbort s.params ls.length e).reverse ++ s.history,
      rsp := some (responseWord .pinError e 0) }) ∧
  (∀ s : State, s.constructed = false → exec .rdbit s = .next { s with rsp := some 0x50000000#32 })

/-- R136 and R137, with the aborts of R140: WRBIT1 and WRBIT0. The letters of the slots are R131's, PRESUMED, log entry 15;
the final `PHASE` is the model's choice, log entry 12. -/
def Obligations.WriteBitCommandsSendTheirSlot : Prop :=
  encode .wrbit1 = 0x09000000#32 ∧ encode .wrbit0 = 0x0A000000#32 ∧
  (∀ (s : State) (a b : Bool) (o : Oracle), s.constructed = true → s.oracle.Gives [.ok a, .ok b] o →
    exec .wrbit1 s = .next { s with
      oracle := o, phase := 4, padout := .released, rsp := some 0x00000000#32,
      history := [.waited s.params.std.B, .high, .waited s.params.std.A, .low] ++ s.history } ∧
    exec .wrbit0 s = .next { s with
      oracle := o, phase := 4, padout := .released, rsp := some 0x00000000#32,
      history := [.waited s.params.std.D, .high, .waited s.params.std.C, .low] ++ s.history }) ∧
  (∀ (s : State) (ls : List Bool) (e : Byte) (o : Oracle), s.constructed = true → ls.length ≤ 1 →
    s.oracle.Gives (drivesOk ls ++ [.err e]) o →
    exec .wrbit1 s = .next { s with
      oracle := o, phase := BitVec.ofNat 4 (2 * ls.length), padout := .unknown,
      history := (writeAbort s.params true ls.length e).reverse ++ s.history,
      rsp := some (responseWord .pinError e 0) } ∧
    exec .wrbit0 s = .next { s with
      oracle := o, phase := BitVec.ofNat 4 (2 * ls.length), padout := .unknown,
      history := (writeAbort s.params false ls.length e).reverse ++ s.history,
      rsp := some (responseWord .pinError e 0) }) ∧
  (∀ s : State, s.constructed = false →
    exec .wrbit1 s = .next { s with rsp := some 0x50000000#32 } ∧
    exec .wrbit0 s = .next { s with rsp := some 0x50000000#32 })

/-- R138: WRBIT is the slot its bit chooses, and a word of its opcode with any of `cmd[23:1]` set is illegal. The
letters of the slots are R131's, PRESUMED, log entry 15; the final `PHASE` is the model's choice, log entry 12. -/
def Obligations.WrbitSendsTheChosenSlot : Prop :=
  encode (.wrbit false) = 0x0B000000#32 ∧ encode (.wrbit true) = 0x0B000001#32 ∧
  (∀ w : Word, opField w = 0x0B → w.extractLsb' 1 23 ≠ 0 → decode w = .error (.reservedBits 0x0B)) ∧
  (∀ s : State, exec (.wrbit true) s = exec .wrbit1 s ∧ exec (.wrbit false) s = exec .wrbit0 s) ∧
  (∀ (s : State) (bit a b : Bool) (o : Oracle), s.constructed = true → s.oracle.Gives [.ok a, .ok b] o →
    exec (.wrbit bit) s = .next { s with
      oracle := o, phase := 4, padout := .released, rsp := some 0x00000000#32,
      history := (writeTrace s.params bit).reverse ++ s.history }) ∧
  (∀ (s : State) (bit : Bool), s.constructed = false →
    exec (.wrbit bit) s = .next { s with rsp := some 0x50000000#32 })

/-! ### Bytes and byte sequences -/

/-- R151 (and R150, R55): RDBYTE answers the byte whose bit `i` is the level of slot `i`; an error in slot `k` ends it
there. The final `PHASE` and `BITC` are the model's choice, log entry 12. -/
def Obligations.RdbyteAssemblesTheSampledBits : Prop :=
  encode .rdbyte = 0x0C000000#32 ∧
  (∀ (s : State) (xs : List SlotAnswer) (o : Oracle), s.constructed = true → xs.length = 8 →
    s.oracle.Gives (xs.flatMap SlotAnswer.answers) o →
    exec .rdbyte s = .next { s with
      oracle := o, phase := 0, bitc := 8, sr := byteOfBits (levels xs), padout := .released,
      samp := (levels xs).getLastD s.samp,
      history := ((levels xs).flatMap (readTrace s.params)).reverse ++ s.history,
      rsp := some (responseWord .ok 0 (byteOfBits (levels xs))) }) ∧
  (∀ (s : State) (xs : List SlotAnswer) (ls : List Bool) (e : Byte) (o : Oracle), s.constructed = true →
    xs.length < 8 → ls.length ≤ 2 →
    s.oracle.Gives (xs.flatMap SlotAnswer.answers ++ drivesOk ls ++ [.err e]) o →
    ∃ t, exec .rdbyte s = .next t ∧ t = { s with
      oracle := o, phase := t.phase, bitc := t.bitc, sr := t.sr, samp := t.samp,
      padout := readAbortPad ls.length,
      history := ((levels xs).flatMap (readTrace s.params) ++ readAbort s.params ls.length e).reverse ++ s.history,
      rsp := some (responseWord .pinError e 0) }) ∧
  (∀ s : State, s.constructed = false → exec .rdbyte s = .next { s with rsp := some 0x50000000#32 })

/-- R152 (and R150, R55, R140): WRBYTE sends the bits of its byte, least significant first; an error in slot `k` ends it
there. The letters of the slots are R131's, PRESUMED, log entry 15. The final `PHASE` and `BITC` are the model's choice, log entry 12. -/
def Obligations.WrbyteSendsItsBits : Prop :=
  (∀ v : Byte, encode (.wrbyte v) = 0x0D000000#32 ||| v.setWidth 32) ∧
  (∀ (s : State) (v : Byte) (ls : List Bool) (o : Oracle), s.constructed = true → ls.length = 16 →
    s.oracle.Gives (drivesOk ls) o →
    exec (.wrbyte v) s = .next { s with
      oracle := o, phase := 0, bitc := 8, sr := v, padout := .released,
      history := (writeByteTrace s.params v).reverse ++ s.history, rsp := some 0x00000000#32 }) ∧
  (∀ (s : State) (v : Byte) (k : Nat) (ls : List Bool) (e : Byte) (o : Oracle), s.constructed = true →
    k < 8 → 2 * k ≤ ls.length → ls.length ≤ 2 * k + 1 → s.oracle.Gives (drivesOk ls ++ [.err e]) o →
    ∃ t, exec (.wrbyte v) s = .next t ∧ t = { s with
      oracle := o, phase := t.phase, bitc := t.bitc, sr := v, padout := .unknown,
      history := (((bitsOf v).take k).flatMap (writeTrace s.params) ++
        writeAbort s.params (v.getLsbD k) (ls.length - 2 * k) e).reverse ++ s.history,
      rsp := some (responseWord .pinError e 0) }) ∧
  (∀ (s : State) (v : Byte), s.constructed = false →
    exec (.wrbyte v) s = .next { s with rsp := some 0x50000000#32 })

/-- R153 and R154: RDBYTES fills `BUF[0 .. len-1]` and nothing above; for `len = 0` it does nothing. -/
def Obligations.RdbytesFillsTheBuffer : Prop :=
  (∀ len : BitVec 16, encode (.rdbytes len) = 0x0E000000#32 ||| (len.setWidth 32 <<< 8)) ∧
  (∀ (s : State) (len : BitVec 16) (xs : List SlotAnswer) (o : Oracle), s.params.Admissible →
    s.constructed = true → len.toNat ≤ s.params.bufDepth → xs.length = 8 * len.toNat →
    s.oracle.Gives (xs.flatMap SlotAnswer.answers) o →
    ∃ t, exec (.rdbytes len) s = .next t ∧
      t = { s with
        oracle := o, phase := t.phase, bitc := t.bitc, idx := t.idx, sr := t.sr, samp := t.samp, buf := t.buf,
        padout := if len = 0 then s.padout else .released,
        history := ((levels xs).flatMap (readTrace s.params)).reverse ++ s.history,
        rsp := some 0x00000000#32 } ∧
      (∀ a, a < len.toNat →
        Memory.read t.buf a = some (byteOfBits (((levels xs).drop (8 * a)).take 8))) ∧
      (∀ a, len.toNat ≤ a → Memory.read t.buf a = Memory.read s.buf a)) ∧
  (∀ (s : State) (len : BitVec 16), s.params.bufDepth < len.toNat →
    exec (.rdbytes len) s = .next { s with rsp := some 0x40000000#32 }) ∧
  (∀ (s : State) (len : BitVec 16), len.toNat ≤ s.params.bufDepth → s.constructed = false →
    exec (.rdbytes len) s = .next { s with rsp := some 0x50000000#32 })

/-- R153 and R155: WRBYTES sends `BUF[0 .. len-1]` in index order and leaves `BUF` as it was. The letters of the write slots
are R131's, PRESUMED, log entry 15; that a cell nothing has written sends a free byte is the model's choice, log entry 4. -/
def Obligations.WrbytesSendsTheBuffer : Prop :=
  (∀ len : BitVec 16, encode (.wrbytes len) = 0x0F000000#32 ||| (len.setWidth 32 <<< 8)) ∧
  (∀ (s : State) (len : BitVec 16) (ls : List Bool) (o : Oracle), s.params.Admissible →
    s.constructed = true → len.toNat ≤ s.params.bufDepth → ls.length = 16 * len.toNat →
    s.oracle.Gives (drivesOk ls) o →
    ∃ t, exec (.wrbytes len) s = .next t ∧
      t = { s with
        oracle := o, phase := t.phase, bitc := t.bitc, idx := t.idx, sr := t.sr,
        padout := if len = 0 then s.padout else .released,
        history := ((List.range len.toNat).flatMap fun a => writeByteTrace s.params (s.memRead a)).reverse ++
          s.history,
        rsp := some 0x00000000#32 }) ∧
  (∀ (s : State) (len : BitVec 16), s.params.bufDepth < len.toNat →
    exec (.wrbytes len) s = .next { s with rsp := some 0x40000000#32 }) ∧
  (∀ (s : State) (len : BitVec 16), len.toNat ≤ s.params.bufDepth → s.constructed = false →
    exec (.wrbytes len) s = .next { s with rsp := some 0x50000000#32 })

/-- R156 (and R59, conflict C2): an error inside byte `k`, in its slot `m`, at that slot's access `j`. Bytes below `k` are
complete, nothing of byte `k` reaches `BUF`, and nothing after the failed access is done. The cut slot and `PADOUT` are
R140's; the letters of the write slots are R131's, PRESUMED, log entry 15; a cell nothing has written sends a free byte, log
entry 4. -/
def Obligations.ByteSequencesStopAtTheFailedAccess : Prop :=
  (∀ (s : State) (len : BitVec 16) (k m : Nat) (xs : List SlotAnswer) (ls : List Bool) (e : Byte) (o : Oracle),
    s.params.Admissible → s.constructed = true → len.toNat ≤ s.params.bufDepth → k < len.toNat → m < 8 →
    xs.length = 8 * k + m → ls.length ≤ 2 →
    s.oracle.Gives (xs.flatMap SlotAnswer.answers ++ drivesOk ls ++ [.err e]) o →
    ∃ t, exec (.rdbytes len) s = .next t ∧
      t = { s with
        oracle := o, phase := t.phase, bitc := t.bitc, idx := t.idx, sr := t.sr, samp := t.samp, buf := t.buf,
        padout := readAbortPad ls.length,
        history := ((levels xs).flatMap (readTrace s.params) ++ readAbort s.params ls.length e).reverse ++
          s.history,
        rsp := some (responseWord .pinError e 0) } ∧
      (∀ a, a < k → Memory.read t.buf a = some (byteOfBits (((levels xs).drop (8 * a)).take 8))) ∧
      (∀ a, k ≤ a → Memory.read t.buf a = Memory.read s.buf a)) ∧
  (∀ (s : State) (len : BitVec 16) (k m : Nat) (ls : List Bool) (e : Byte) (o : Oracle),
    s.params.Admissible → s.constructed = true → len.toNat ≤ s.params.bufDepth → k < len.toNat → m < 8 →
    16 * k + 2 * m ≤ ls.length → ls.length ≤ 16 * k + 2 * m + 1 →
    s.oracle.Gives (drivesOk ls ++ [.err e]) o →
    ∃ t, exec (.wrbytes len) s = .next t ∧
      t = { s with
        oracle := o, phase := t.phase, bitc := t.bitc, idx := t.idx, sr := t.sr, padout := .unknown,
        history := (((List.range k).flatMap fun a => writeByteTrace s.params (s.memRead a)) ++
          ((bitsOf (s.memRead k)).take m).flatMap (writeTrace s.params) ++
          writeAbort s.params ((s.memRead k).getLsbD m) (ls.length - (16 * k + 2 * m)) e).reverse ++ s.history,
        rsp := some (responseWord .pinError e 0) })

/-- R158: under the loopback pin, WRBYTE `v` followed by RDBYTE returns `v`, for every `v`: with the pin's answers given, and
with the pin as a premise on the whole trace, a RESET before it included (its pulse is no write slot). How the pin tells
the slots of a trace is DEDUCED, log entry 17. -/
def Obligations.LoopbackReturnsTheByteWritten : Prop :=
  (∀ (s : State) (v : Byte) (ls : List Bool) (o : Oracle) (draws : Nat), s.params.Admissible →
    s.constructed = true → ls.length = 16 → s.oracle.Gives (drivesOk ls) o →
    ∃ t u, exec (.wrbyte v) s = .next t ∧
      exec .rdbyte { t with
        oracle := { script := loopbackAnswers (loopbackBits s.params (newEvents s t)), draws := draws } } = .next u ∧
      u.rsp = some (responseWord .ok 0 v)) ∧
  (∀ (s : State) (v : Byte) (y : SlotAnswer) (ls : List Bool) (xs : List SlotAnswer) (o : Oracle),
    s.params.Admissible → s.constructed = true → ls.length = 16 → xs.length = 8 →
    s.oracle.Gives (y.answers ++ drivesOk ls ++ xs.flatMap SlotAnswer.answers) o →
    ∃ r t u, exec .reset s = .next r ∧ exec (.wrbyte v) r = .next t ∧ exec .rdbyte t = .next u ∧
      loopbackBits s.params (newEvents s u) = bitsOf v ∧
      (Replays [] (wireSlots s.params (newEvents s u)) → u.rsp = some (responseWord .ok 0 v)))

/-! ### The CRC8 validator -/

/-- R172: CRC8 answers the checksum of `BUF[0 .. len-1]`, whatever `CONSTRUCTED` is. The final `IDX` is the model's choice,
log entry 12. -/
def Obligations.CrcCommandAnswersTheChecksum : Prop :=
  (∀ len : BitVec 16, encode (.crc8 len) = 0x10000000#32 ||| (len.setWidth 32 <<< 8)) ∧
  (∀ (s : State) (len : BitVec 16), s.params.Admissible → len.toNat ≤ s.params.bufDepth →
    exec (.crc8 len) s = .next { s with
      idx := BitVec.ofNat 9 len.toNat, crc := crcSeq ((List.range len.toNat).map s.memRead),
      rsp := some (responseWord .ok 0 (crcSeq ((List.range len.toNat).map s.memRead))) }) ∧
  (∀ (s : State) (len : BitVec 16), s.params.bufDepth < len.toNat →
    exec (.crc8 len) s = .next { s with rsp := some 0x40000000#32 })

/-- R173: CHKCRC answers `OK` when the checksum of `BUF[0 .. len-1]` is 0 and `CRC_NONZERO` otherwise, without the
checksum. The final `IDX` is the model's choice, log entry 12. -/
def Obligations.ChkcrcAnswersWhetherTheChecksumIsZero : Prop :=
  (∀ len : BitVec 16, encode (.chkcrc len) = 0x11000000#32 ||| (len.setWidth 32 <<< 8)) ∧
  (∀ (s : State) (len : BitVec 16), s.params.Admissible → len.toNat ≤ s.params.bufDepth →
    exec (.chkcrc len) s = .next { s with
      idx := BitVec.ofNat 9 len.toNat, crc := crcSeq ((List.range len.toNat).map s.memRead),
      rsp := some (if crcSeq ((List.range len.toNat).map s.memRead) = 0 then 0x00000000#32 else 0x20000000#32) }) ∧
  (∀ (s : State) (len : BitVec 16), s.params.bufDepth < len.toNat →
    exec (.chkcrc len) s = .next { s with rsp := some 0x40000000#32 })

/-- R174 (a) and (b): data followed by its own checksum folds to 0, and CHKCRC accepts it. -/
def Obligations.ChecksumOfDataWithItsChecksumIsZero : Prop :=
  (∀ bytes : List Byte, crcSeq (bytes ++ [crcSeq bytes]) = 0) ∧
  (∀ (s : State) (len : BitVec 16) (bytes : List Byte), s.params.Admissible → len.toNat ≤ s.params.bufDepth →
    (List.range len.toNat).map s.memRead = bytes ++ [crcSeq bytes] →
    ∃ t, exec (.chkcrc len) s = .next t ∧ t.Answered .ok)

/-- R174 (c): the checksum is linear over exclusive or, and every single flipped bit changes it (conflict C7). -/
def Obligations.ChecksumDetectsEverySingleBitError : Prop :=
  (∀ xs ys : List Byte, xs.length = ys.length →
    crcSeq (List.zipWith (· ^^^ ·) xs ys) = crcSeq xs ^^^ crcSeq ys) ∧
  (∀ (xs : List Byte) (k i : Nat) (v : Byte), i < 8 → xs[k]? = some v →
    crcSeq (xs.set k (v ^^^ (1#8 <<< i))) ≠ crcSeq xs)

/-! ### Buffer and speed commands -/

/-- R185: LDBUF. -/
def Obligations.LdbufReadsOneCell : Prop :=
  (∀ idx : BitVec 16, encode (.ldbuf idx) = 0x12000000#32 ||| (idx.setWidth 32 <<< 8)) ∧
  (∀ w : Word, opField w = 0x12 → dField w ≠ 0 → decode w = .error (.reservedBits 0x12)) ∧
  (∀ (s : State) (idx : BitVec 16), idx.toNat < s.params.bufDepth →
    exec (.ldbuf idx) s = .next { s with rsp := some (responseWord .ok 0 (s.memRead idx.toNat)) }) ∧
  (∀ (s : State) (idx : BitVec 16), s.params.bufDepth ≤ idx.toNat →
    exec (.ldbuf idx) s = .next { s with rsp := some 0x40000000#32 })

/-- R186: STBUF writes its cell and no other, and no word of its opcode is illegal. -/
def Obligations.StbufWritesOneCell : Prop :=
  (∀ (idx : BitVec 16) (v : Byte),
    encode (.stbuf idx v) = 0x13000000#32 ||| (idx.setWidth 32 <<< 8) ||| v.setWidth 32) ∧
  (∀ w : Word, opField w = 0x13 → decode w = .ok (.stbuf (aField w) (dField w))) ∧
  (∀ (s : State) (idx : BitVec 16) (v : Byte), idx.toNat < s.params.bufDepth →
    ∃ t, exec (.stbuf idx v) s = .next t ∧ t = { s with buf := t.buf, rsp := some 0x00000000#32 } ∧
      t.memRead idx.toNat = v ∧ ∀ a, a ≠ idx.toNat → Memory.read t.buf a = Memory.read s.buf a) ∧
  (∀ (s : State) (idx : BitVec 16) (v : Byte), s.params.bufDepth ≤ idx.toNat →
    exec (.stbuf idx v) s = .next { s with rsp := some 0x40000000#32 })

/-- R61 (c), R58: LDBUF after STBUF of the same cell answers the byte stored; of another cell, what it answered before; and
a second LDBUF answers the same as the first, for a cell never written too. -/
def Obligations.LdbufReturnsTheLatestWrite : Prop :=
  ∀ (s t : State) (i j : BitVec 16) (v : Byte), i.toNat < s.params.bufDepth → j.toNat < s.params.bufDepth →
    exec (.stbuf i v) s = .next t →
    ∃ u u', exec (.ldbuf j) t = .next u ∧ exec (.ldbuf j) u = .next u' ∧ u'.rsp = u.rsp ∧
      u.rsp = some (responseWord .ok 0 (if j = i then v else s.memRead j.toNat))

/-- R187: GETSPD. -/
def Obligations.GetspdAnswersTheSpeed : Prop :=
  encode .getspd = 0x14000000#32 ∧
  (∀ s : State, s.constructed = true →
    exec .getspd s = .next { s with rsp := some (if s.speed = .overdrive then 0x00000001#32 else 0x00000000#32) }) ∧
  (∀ s : State, s.constructed = false → exec .getspd s = .next { s with rsp := some 0x50000000#32 })

/-- R188: SETSPD changes `SPEED`, so the answer of a following GETSPD, and nothing else; a word of its opcode with any of
`cmd[23:1]` set is illegal. -/
def Obligations.SetspdChangesOnlyTheSpeed : Prop :=
  encode (.setspd false) = 0x15000000#32 ∧ encode (.setspd true) = 0x15000001#32 ∧
  (∀ w : Word, opField w = 0x15 → w.extractLsb' 1 23 ≠ 0 → decode w = .error (.reservedBits 0x15)) ∧
  (∀ (s : State) (b : Bool), s.constructed = true →
    exec (.setspd b) s = .next { s with
      speed := if b then .overdrive else .standard, rsp := some 0x00000000#32 } ∧
    ∀ t, exec (.setspd b) s = .next t →
      exec .getspd t = .next { t with rsp := some (if b then 0x00000001#32 else 0x00000000#32) }) ∧
  (∀ (s : State) (b : Bool), s.constructed = false →
    exec (.setspd b) s = .next { s with rsp := some 0x50000000#32 })

/-! ### Failures -/

/-- R214, R215, R216: the checks in their order, and that a refused command does nothing but answer. That an illegal word
stands in `CMD` (R93) is DEDUCED, log entry 16; that accepting it ends `inReset` is the model's, log entry 22. -/
def Obligations.RefusedCommandDoesNothing : Prop :=
  (∀ (s : State) (w : Word) (rest : List Word) (e : DecodeError), s.Idle → s.offers = w :: rest →
    decode w = .error e →
    step s = .next { s with offers := rest, cmd := w, inReset := false, taken := 0x30000000#32 :: s.taken }) ∧
  (∀ (i : Instr) (s : State), i.wellFormed s.params.bufDepth = false →
    exec i s = .next { s with rsp := some 0x40000000#32 }) ∧
  (∀ (i : Instr) (s : State), i.wellFormed s.params.bufDepth = true → StateRefuses s i →
    exec i s = .next { s with rsp := some 0x50000000#32 }) ∧
  (∀ (i : Instr) (s t : State), i.wellFormed s.params.bufDepth = true → ¬ StateRefuses s i →
    exec i s = .next t → t.Answered .ok ∨ t.Answered .pinError ∨ t.Answered .crcNonzero)

/-- R212, R13: a command answers `PIN_ERROR` exactly when an access of it failed; that access is its last event, the code
is the pin's, `CONSTRUCTED` and `SPEED` are as before, and `SAMP` is that of the last sample that succeeded. -/
def Obligations.PinErrorEndsTheCommandAtOnce : Prop :=
  ∀ (i : Instr) (s t : State), exec i s = .next t →
    (t.Answered .pinError → ∃ (es : List Event) (ev : Event) (e : Byte), newEvents s t = es ++ [ev] ∧
      failCode ev = some e ∧ (∀ x ∈ es, failCode x = none) ∧ t.rsp = some (responseWord .pinError e 0) ∧
      t.constructed = s.constructed ∧ t.speed = s.speed ∧ t.samp = (lastSample es).getD s.samp) ∧
    (¬ t.Answered .pinError → ∀ x ∈ newEvents s t, failCode x = none)

/-- R211, R76: which outcomes each command can have, and that `data` is 0 for a command without a value. -/
def Obligations.OutcomesOfEachCommand : Prop :=
  ∀ (i : Instr) (s t : State), exec i s = .next t →
    (t.Answered .pinError → touchesPin i = true) ∧
    (t.Answered .crcNonzero → ∃ len, i = .chkcrc len) ∧
    (t.Answered .illegal → False) ∧
    (t.Answered .badOperand → i.wellFormed s.params.bufDepth = false) ∧
    (t.Answered .badState → StateRefuses s i) ∧
    (t.Answered .ok → returnsValue i = false → t.rsp = some 0)

/-! ### Rules over all commands -/

/-- R36, its second sentence ("In terms of rule R35: if `PADOUT = Released` when a command starts ..."), which the spec
marks `[derived: from the sequences of rules R101 to R106, ...]`: the idle invariant. A command other than SETLO that starts with the line released and ends with `OK` leaves it
released; SETLO that ends with `OK` leaves it low. -/
def Obligations.CommandsLeaveTheLineReleased : Prop :=
  ∀ (i : Instr) (s t : State), exec i s = .next t → t.Answered .ok →
    (i = .setlo → t.padout = .low) ∧ (i ≠ .setlo → s.padout = .released → t.padout = .released)

/-- R31: `SPEED` is read by GETSPD and by nothing else, and no command reads the Overdrive table (R12): with another speed
and another Overdrive table every other command does the same in every field but those two. -/
def Obligations.SpeedChangesNoTrace : Prop :=
  ∀ (i : Instr) (s t : State) (speed : Speed) (od : TimingTable), i ≠ .getspd → exec i s = .next t →
    ∃ speed', exec i { s with speed := speed, params := { s.params with od := od } } =
      .next { t with speed := speed', params := { t.params with od := od } }

/-- R20, R41: the transient registers are written before they are read: whatever they hold, a command has the same trace,
response and end state apart from them. -/
def Obligations.TransientRegistersDoNotMatter : Prop :=
  ∀ (i : Instr) (s t : State) (cmd : Word) (phase bitc : BitVec 4) (idx : BitVec 9) (sr crc : Byte) (samp : Bool),
    exec i s = .next t →
    ∃ u, exec i { s with cmd := cmd, phase := phase, bitc := bitc, idx := idx, sr := sr, crc := crc, samp := samp } =
        .next u ∧
      u = { t with
        cmd := cmd, phase := u.phase, bitc := u.bitc, idx := u.idx, sr := u.sr, crc := u.crc, samp := u.samp }

/-- R20, column "written by": which commands can change which register. -/
def Obligations.OnlyTheListedCommandsWriteEachRegister : Prop :=
  ∀ (i : Instr) (s t : State), exec i s = .next t →
    t.params = s.params ∧ t.era = s.era ∧ t.inReset = s.inReset ∧ t.busy = s.busy ∧ t.cmd = s.cmd ∧
    t.offers = s.offers ∧ t.taken = s.taken ∧
    (t.constructed ≠ s.constructed → i = .init ∧ t.constructed = true) ∧
    (t.speed ≠ s.speed → (i = .init ∧ t.speed = .standard) ∨ ∃ b, i = .setspd b) ∧
    (t.buf ≠ s.buf → (∃ idx v, i = .stbuf idx v) ∨ ∃ len, i = .rdbytes len) ∧
    (t.sr ≠ s.sr → i = .rdbyte ∨ (∃ v, i = .wrbyte v) ∨ (∃ len, i = .rdbytes len) ∨ ∃ len, i = .wrbytes len) ∧
    (t.samp ≠ s.samp → i = .ishi ∨ i = .islo ∨ i = .reset ∨ i = .rdbit ∨ i = .rdbyte ∨ ∃ len, i = .rdbytes len) ∧
    (t.crc ≠ s.crc → (∃ len, i = .crc8 len) ∨ ∃ len, i = .chkcrc len)

/-- R275, marked `[derived: from the pseudocode of rules R101 to R106, ...]` by the spec: pin accesses, waits and nominal
duration of every command that ends with `OK`. Those of the write slots rest on R131's letters, PRESUMED, log entry 15. -/
def Obligations.CountsAndDurationsOfEachCommand : Prop :=
  ∀ (i : Instr) (s t : State), s.params.Admissible → exec i s = .next t → t.Answered .ok →
    (accessCount (newEvents s t), waitCount (newEvents s t), duration (newEvents s t)) = nominalCounts s.params i

/-- R15 (R123, R141, R157): whatever times the environment and the sequencer take, a trace takes at least its nominal
duration, so a command that ends with `OK` takes at least what the table of R275 says. That time stamps stand beside the
trace (`Timed`, in both clauses) is the model's reading of R15, DEDUCED, log entry 14; the durations of the write slots in
the second clause rest on R131's letters, PRESUMED, log entry 15. -/
def Obligations.NominalDurationIsALowerBound : Prop :=
  (∀ (tau : NNReal) (es : List TimedEvent), Timed tau es →
    tau + ((duration (es.map TimedEvent.event) : Nat) : NNReal) ≤ endTime tau es) ∧
  (∀ (i : Instr) (s t : State) (tau : NNReal) (es : List TimedEvent), s.params.Admissible → exec i s = .next t →
    t.Answered .ok → es.map TimedEvent.event = newEvents s t → Timed tau es →
    tau + (((nominalCounts s.params i).2.2 : Nat) : NNReal) ≤ endTime tau es)

/-- R203: a host program behaves the same from two idle blocks with the same `CONSTRUCTED`, `SPEED` and `BUF` under the
same oracle answers, whatever ran on either before. That both runs end rests on the duty of R238, which `step` takes as met
(log entry 11); the final states are R206's. The same `BUF` is the same written cells in the same `era`, the model's way to
say that unwritten cells read alike (log entry 4): two blocks of different eras whose cells read alike are left out. -/
def Obligations.HostProgramSeesNoEarlierProgram : Prop :=
  ∀ (α : Type) (program : HostProg α) (s t : State), s.Idle → t.Idle → SameBlock s t →
    ∃ (out : α) (s' t' : State), program.run s = some (out, s') ∧ program.run t = some (out, t') ∧
      SameBlock s' t' ∧ s'.Final ∧ t'.Final ∧ newEvents s s' = newEvents t t'

/-! ### The reference units -/

/-- R234: the reference adapter acts on a request in one edge and acknowledges it in the next cycle, never with an error;
its pad pulls the line low while `ow_pull_low` is 1 and never drives it high. At which edge it acts and acknowledges is
DEDUCED, log entry 17; that a sample returns the level of the acknowledge cycle is the model's choice, log entry 21, and that
hardware reset does not reach the adapter, log entry 26. -/
def Obligations.ReferenceAdapterDrivesOpenDrain : Prop :=
  (∀ (a : PinAdapter) (d : Bool), a.ack = false →
    a.edge (some 1) = { pullLow := true, ack := true } ∧ a.edge (some 0) = { pullLow := false, ack := true } ∧
    a.edge (some 2) = { pullLow := a.pullLow, ack := true } ∧ (a.edge none).ack = false ∧
    (a.edge (some 1)).line d = false ∧ (a.edge (some 0)).line d = !d) ∧
  (∀ (b : Bench) (mhz : Nat) (host : PortIn) (d : Bool),
    (b.inputs host d).pinAck = b.adapter.ack ∧ (b.inputs host d).pinErr = false ∧
    (b.inputs host d).answer = .ok (b.adapter.line d) ∧
    (b.edge mhz host d).block = b.block.clockEdge (b.inputs host d) ∧
    (b.edge mhz host d).adapter = b.adapter.edge b.block.outputs.pin)

/-- R237: the reference delay unit, started idle on a request of `n` microseconds, asserts `dly_done` after exactly
`n * F_CLK_MHZ` edges beyond the loading one, and not before. That the counter is loaded at the first edge with the request
and counts one at each later edge is DEDUCED, log entry 17. -/
def Obligations.ReferenceDelayUnitCountsDown : Prop :=
  ∀ (mhz k : Nat) (n : Us), k ≤ n.toNat * mhz →
    (Nat.iterate (fun d => DelayUnit.edge mhz d (some n)) (k + 1) { count := none }).done =
      decide (k = n.toNat * mhz)
end

