-- ==== Sys2Proof/Laws/Decode.lean ====
section
/-! SUPPORT. The fields of a packed word and of a response word, bit by bit (spec/30_encoding.md R71, R74). -/

namespace Sys2Proof

@[simp] theorem opField_pack (op : BitVec 8) (a : BitVec 16) (d : Byte) : opField (pack op a d) = op := by
  ext i h
  simp only [opField, pack, BitVec.getElem_extractLsb', BitVec.getLsbD_append]
  have h1 : ¬ (24 + i < 8) := by omega
  have h2 : ¬ (24 + i - 8 < 16) := by omega
  simp [h1, h2, show 24 + i - 8 - 16 = i by omega, BitVec.getLsbD_eq_getElem h]

@[simp] theorem aField_pack (op : BitVec 8) (a : BitVec 16) (d : Byte) : aField (pack op a d) = a := by
  ext i h
  simp only [aField, pack, BitVec.getElem_extractLsb', BitVec.getLsbD_append]
  have h1 : ¬ (8 + i < 8) := by omega
  simp [h1, h, show 8 + i - 8 = i by omega]

@[simp] theorem dField_pack (op : BitVec 8) (a : BitVec 16) (d : Byte) : dField (pack op a d) = d := by
  ext i h
  simp only [dField, pack, BitVec.getElem_extractLsb', BitVec.getLsbD_append]
  simp [h]

@[simp] theorem bField_pack (op : BitVec 8) (a : BitVec 16) (b : Bool) : bField (pack op a (boolByte b)) = b := by
  rw [bField, pack, BitVec.getLsbD_append]
  cases b <;> simp [boolByte]

/-- A word is its three fields. -/
theorem pack_fields (w : Word) : pack (opField w) (aField w) (dField w) = w := by
  apply BitVec.eq_of_getLsbD_eq
  intro i h
  simp only [pack, opField, aField, dField, BitVec.getLsbD_append, BitVec.getLsbD_extractLsb']
  by_cases h1 : i < 8
  · simp [h1]
  · by_cases h2 : i - 8 < 16
    · simp [h1, h2, show 8 + (i - 8) = i by omega]
    · have h3 : i - 8 - 16 < 8 := by omega
      simp [h1, h2, h3, show 24 + (i - 8 - 16) = i by omega]

namespace Machine

@[simp] theorem rspStatus_responseWord (st : Status) (e d : Byte) :
    rspStatus (responseWord st e d) = st.code := by
  ext i h
  simp only [rspStatus, responseWord, BitVec.getElem_extractLsb', BitVec.getLsbD_append]
  have h1 : ¬ (28 + i < 8) := by omega
  have h2 : ¬ (28 + i - 8 < 8) := by omega
  have h3 : ¬ (28 + i - 8 - 8 < 12) := by omega
  simp [h1, h2, h3, show 28 + i - 8 - 8 - 12 = i by omega, BitVec.getLsbD_eq_getElem h]

@[simp] theorem rspReserved_responseWord (st : Status) (e d : Byte) :
    rspReserved (responseWord st e d) = 0 := by
  ext i h
  simp only [rspReserved, responseWord, BitVec.getElem_extractLsb', BitVec.getLsbD_append]
  have h1 : ¬ (16 + i < 8) := by omega
  have h2 : ¬ (16 + i - 8 < 8) := by omega
  have h3 : 16 + i - 8 - 8 < 12 := by omega
  simp [h1, h2, h3]

@[simp] theorem rspEcode_responseWord (st : Status) (e d : Byte) : rspEcode (responseWord st e d) = e := by
  ext i h
  simp only [rspEcode, responseWord, BitVec.getElem_extractLsb', BitVec.getLsbD_append]
  have h1 : ¬ (8 + i < 8) := by omega
  simp [h1, h, show 8 + i - 8 = i by omega]

@[simp] theorem rspData_responseWord (st : Status) (e d : Byte) : rspData (responseWord st e d) = d := by
  ext i h
  simp only [rspData, responseWord, BitVec.getElem_extractLsb', BitVec.getLsbD_append]
  simp [h]

end Machine

end Sys2Proof
end

