-- ==== Sys2Proof/Laws/Memory.lean ====
section
/-! SUPPORT. The buffer: read after write, canonical form, existing cells (spec/20_memory.md R50, R52, R61 (c)). -/

namespace Sys2Proof.Machine

/-- A cell reads as the value just written to it. -/
@[simp] theorem Memory.read_write_same (m : Memory) (a : Nat) (v : Byte) :
    Memory.read (Memory.write m a v) a = some v := by
  induction m with
  | nil => simp [Memory.write, Memory.read]
  | cons c m ih =>
    obtain ⟨b, w⟩ := c
    rcases Nat.lt_trichotomy a b with h | h | h
    · simp [Memory.write, Memory.read, h]
    · simp [Memory.write, Memory.read, h]
    · simp [Memory.write, Memory.read, Nat.not_lt_of_gt h, Nat.ne_of_gt h, ih]

/-- A write leaves every other cell as it was. -/
theorem Memory.read_write_other (m : Memory) {a b : Nat} (v : Byte) (h : b ≠ a) :
    Memory.read (Memory.write m a v) b = Memory.read m b := by
  induction m with
  | nil => simp [Memory.write, Memory.read, h]
  | cons c m ih =>
    obtain ⟨x, w⟩ := c
    simp only [Memory.write]
    split
    · simp [Memory.read, h]
    · split
      · subst_vars
        simp [Memory.read, h]
      · simp [Memory.read, ih]

/-- A canonical buffer is one whose first index is below all later ones and whose rest is canonical. -/
theorem Memory.wf_cons (c : Host.Cell) (m : Memory) :
    Memory.wf (c :: m) = true ↔ (∀ d, m.head? = some d → c.1 < d.1) ∧ Memory.wf m = true := by
  obtain ⟨a, v⟩ := c
  cases m with
  | nil => simp [Memory.wf]
  | cons d m => simp [Memory.wf]

/-- The first index after a write is the written one or the old first one. -/
theorem Memory.head_write (m : Memory) (a : Nat) (v : Byte) (d : Host.Cell)
    (h : (Memory.write m a v).head? = some d) : d.1 = a ∨ m.head?.map Prod.fst = some d.1 := by
  cases m with
  | nil => simp [Memory.write] at h; simp [← h]
  | cons c m =>
    obtain ⟨b, w⟩ := c
    simp only [Memory.write] at h
    split at h <;> [skip; split at h] <;> simp at h <;> simp [← h]

/-- A write keeps the canonical form. -/
theorem Memory.wf_write (m : Memory) (a : Nat) (v : Byte) (h : Memory.wf m = true) :
    Memory.wf (Memory.write m a v) = true := by
  induction m with
  | nil => rfl
  | cons c m ih =>
    obtain ⟨b, w⟩ := c
    have hc := (Memory.wf_cons _ _).1 h
    simp only [Memory.write]
    split
    · next hlt => exact (Memory.wf_cons _ _).2 ⟨by simp [hlt], h⟩
    · next hge =>
      split
      · next heq => exact (Memory.wf_cons _ _).2 ⟨by subst heq; exact hc.1, hc.2⟩
      · next hne =>
        refine (Memory.wf_cons _ _).2 ⟨fun d hd => ?_, ih hc.2⟩
        rcases Memory.head_write m a v d hd with h1 | h1
        · simp only [h1]; omega
        · obtain ⟨e, he, h2⟩ := Option.map_eq_some_iff.1 h1
          have := hc.1 e he
          simp only at this ⊢
          omega

/-- A write to an existing cell lists existing cells only. -/
theorem Memory.below_write (depth : Nat) (m : Memory) (a : Nat) (v : Byte) (ha : a < depth)
    (h : Memory.below depth m = true) : Memory.below depth (Memory.write m a v) = true := by
  induction m with
  | nil => simp [Memory.write, Memory.below, ha]
  | cons c m ih =>
    obtain ⟨b, w⟩ := c
    simp only [Memory.below, List.all_cons, Bool.and_eq_true] at h ih ⊢
    simp only [Memory.write]
    split
    · simpa [ha] using ⟨by simpa using h.1, by simpa using h.2⟩
    · split
      · simpa [ha] using h.2
      · simpa using ⟨by simpa using h.1, by simpa using ih h.2⟩

/-- Dropping cells keeps the canonical form. -/
theorem Memory.wf_filter (m : Memory) (p : Host.Cell → Bool) (h : Memory.wf m = true) :
    Memory.wf (m.filter p) = true := by
  have pw : ∀ m : Memory, Memory.wf m = true ↔ m.Pairwise fun c d => c.1 < d.1 := by
    intro m
    induction m with
    | nil => simp [Memory.wf]
    | cons c m ih =>
      rw [Memory.wf_cons, ih, List.pairwise_cons]
      refine and_congr_left fun hm => ⟨fun hh d hd => ?_, fun hh d hd => hh d (List.mem_of_mem_head? hd)⟩
      cases m with
      | nil => simp at hd
      | cons e m =>
        have he := hh e rfl
        rcases List.mem_cons.1 hd with rfl | hd
        · exact he
        · exact Nat.lt_trans he ((List.pairwise_cons.1 hm).1 d hd)
  exact (pw _).2 (((pw _).1 h).filter p)

/-- Reading through `MemRead` right after `MemWrite` of the same cell gives the value written (R61 (c)). -/
@[simp] theorem State.memRead_memWrite_same (s : State) (a : Nat) (v : Byte) : (s.memWrite a v).memRead a = v := by
  simp [State.memRead, State.memWrite]

/-- `MemWrite` of one cell leaves what every other cell reads as (R186: "no other cell changes"). -/
theorem State.memRead_memWrite_other (s : State) {a b : Nat} (v : Byte) (h : b ≠ a) :
    (s.memWrite a v).memRead b = s.memRead b := by
  simp [State.memRead, State.memWrite, Memory.read_write_other _ _ h]

/-- `MemRead` depends on the buffer and the era alone. -/
theorem State.memRead_congr {s t : State} (hb : s.buf = t.buf) (he : s.era = t.era) (a : Nat) :
    s.memRead a = t.memRead a := by
  simp [State.memRead, hb, he]

end Sys2Proof.Machine
end

