-- ==== Sys2Proof/Laws/State.lean ====
section
/-! SUPPORT. What each named update of the state does to each field: one lemma per update, one conjunct per field, so that
simp rewrites every projection of an updated state and no later proof unfolds a record update. -/

namespace Sys2Proof.Machine

@[simp] theorem State.memWrite_fields (s : State) (a : Nat) (v : Byte) :
    (s.memWrite a v).params = s.params ∧ (s.memWrite a v).constructed = s.constructed ∧
    (s.memWrite a v).speed = s.speed ∧ (s.memWrite a v).buf = Memory.write s.buf a v ∧
    (s.memWrite a v).busy = s.busy ∧ (s.memWrite a v).cmd = s.cmd ∧ (s.memWrite a v).phase = s.phase ∧
    (s.memWrite a v).bitc = s.bitc ∧ (s.memWrite a v).idx = s.idx ∧ (s.memWrite a v).sr = s.sr ∧
    (s.memWrite a v).samp = s.samp ∧ (s.memWrite a v).crc = s.crc ∧ (s.memWrite a v).rsp = s.rsp ∧
    (s.memWrite a v).padout = s.padout ∧ (s.memWrite a v).history = s.history ∧ (s.memWrite a v).offers = s.offers ∧
    (s.memWrite a v).oracle = s.oracle ∧ (s.memWrite a v).taken = s.taken ∧ (s.memWrite a v).era = s.era ∧
    (s.memWrite a v).inReset = s.inReset :=
  by and_intros <;> rfl

@[simp] theorem State.respond_fields (s : State) (st : Status) (e d : Byte) :
    (s.respond st e d).params = s.params ∧ (s.respond st e d).constructed = s.constructed ∧
    (s.respond st e d).speed = s.speed ∧ (s.respond st e d).buf = s.buf ∧ (s.respond st e d).busy = s.busy ∧
    (s.respond st e d).cmd = s.cmd ∧ (s.respond st e d).phase = s.phase ∧ (s.respond st e d).bitc = s.bitc ∧
    (s.respond st e d).idx = s.idx ∧ (s.respond st e d).sr = s.sr ∧ (s.respond st e d).samp = s.samp ∧
    (s.respond st e d).crc = s.crc ∧ (s.respond st e d).rsp = some (responseWord st e d) ∧
    (s.respond st e d).padout = s.padout ∧ (s.respond st e d).history = s.history ∧
    (s.respond st e d).offers = s.offers ∧ (s.respond st e d).oracle = s.oracle ∧ (s.respond st e d).taken = s.taken ∧
    (s.respond st e d).era = s.era ∧ (s.respond st e d).inReset = s.inReset :=
  by and_intros <;> rfl

@[simp] theorem State.reply_fields (s : State) (d : Byte) :
    (s.reply d).params = s.params ∧ (s.reply d).constructed = s.constructed ∧ (s.reply d).speed = s.speed ∧
    (s.reply d).buf = s.buf ∧ (s.reply d).busy = s.busy ∧ (s.reply d).cmd = s.cmd ∧ (s.reply d).phase = s.phase ∧
    (s.reply d).bitc = s.bitc ∧ (s.reply d).idx = s.idx ∧ (s.reply d).sr = s.sr ∧ (s.reply d).samp = s.samp ∧
    (s.reply d).crc = s.crc ∧ (s.reply d).rsp = some (responseWord .ok 0 d) ∧ (s.reply d).padout = s.padout ∧
    (s.reply d).history = s.history ∧ (s.reply d).offers = s.offers ∧ (s.reply d).oracle = s.oracle ∧
    (s.reply d).taken = s.taken ∧ (s.reply d).era = s.era ∧ (s.reply d).inReset = s.inReset :=
  by and_intros <;> rfl

@[simp] theorem State.refuse_fields (s : State) (st : Status) :
    (s.refuse st).params = s.params ∧ (s.refuse st).constructed = s.constructed ∧ (s.refuse st).speed = s.speed ∧
    (s.refuse st).buf = s.buf ∧ (s.refuse st).busy = s.busy ∧ (s.refuse st).cmd = s.cmd ∧
    (s.refuse st).phase = s.phase ∧ (s.refuse st).bitc = s.bitc ∧ (s.refuse st).idx = s.idx ∧
    (s.refuse st).sr = s.sr ∧ (s.refuse st).samp = s.samp ∧ (s.refuse st).crc = s.crc ∧
    (s.refuse st).rsp = some (responseWord st 0 0) ∧ (s.refuse st).padout = s.padout ∧
    (s.refuse st).history = s.history ∧ (s.refuse st).offers = s.offers ∧ (s.refuse st).oracle = s.oracle ∧
    (s.refuse st).taken = s.taken ∧ (s.refuse st).era = s.era ∧ (s.refuse st).inReset = s.inReset :=
  by and_intros <;> rfl

@[simp] theorem State.pinFailure_fields (s : State) (e : Byte) :
    (s.pinFailure e).params = s.params ∧ (s.pinFailure e).constructed = s.constructed ∧
    (s.pinFailure e).speed = s.speed ∧ (s.pinFailure e).buf = s.buf ∧ (s.pinFailure e).busy = s.busy ∧
    (s.pinFailure e).cmd = s.cmd ∧ (s.pinFailure e).phase = s.phase ∧ (s.pinFailure e).bitc = s.bitc ∧
    (s.pinFailure e).idx = s.idx ∧ (s.pinFailure e).sr = s.sr ∧ (s.pinFailure e).samp = s.samp ∧
    (s.pinFailure e).crc = s.crc ∧ (s.pinFailure e).rsp = some (responseWord .pinError e 0) ∧
    (s.pinFailure e).padout = s.padout ∧ (s.pinFailure e).history = s.history ∧ (s.pinFailure e).offers = s.offers ∧
    (s.pinFailure e).oracle = s.oracle ∧ (s.pinFailure e).taken = s.taken ∧ (s.pinFailure e).era = s.era ∧
    (s.pinFailure e).inReset = s.inReset :=
  by and_intros <;> rfl

@[simp] theorem State.log_fields (s : State) (e : Event) :
    (s.log e).params = s.params ∧ (s.log e).constructed = s.constructed ∧ (s.log e).speed = s.speed ∧
    (s.log e).buf = s.buf ∧ (s.log e).busy = s.busy ∧ (s.log e).cmd = s.cmd ∧ (s.log e).phase = s.phase ∧
    (s.log e).bitc = s.bitc ∧ (s.log e).idx = s.idx ∧ (s.log e).sr = s.sr ∧ (s.log e).samp = s.samp ∧
    (s.log e).crc = s.crc ∧ (s.log e).rsp = s.rsp ∧ (s.log e).padout = s.padout ∧ (s.log e).history = e :: s.history ∧
    (s.log e).offers = s.offers ∧ (s.log e).oracle = s.oracle ∧ (s.log e).taken = s.taken ∧ (s.log e).era = s.era ∧
    (s.log e).inReset = s.inReset :=
  by and_intros <;> rfl

@[simp] theorem State.nextPhase_fields (s : State) :
    (s.nextPhase).params = s.params ∧ (s.nextPhase).constructed = s.constructed ∧ (s.nextPhase).speed = s.speed ∧
    (s.nextPhase).buf = s.buf ∧ (s.nextPhase).busy = s.busy ∧ (s.nextPhase).cmd = s.cmd ∧
    (s.nextPhase).phase = s.phase + 1 ∧ (s.nextPhase).bitc = s.bitc ∧ (s.nextPhase).idx = s.idx ∧
    (s.nextPhase).sr = s.sr ∧ (s.nextPhase).samp = s.samp ∧ (s.nextPhase).crc = s.crc ∧ (s.nextPhase).rsp = s.rsp ∧
    (s.nextPhase).padout = s.padout ∧ (s.nextPhase).history = s.history ∧ (s.nextPhase).offers = s.offers ∧
    (s.nextPhase).oracle = s.oracle ∧ (s.nextPhase).taken = s.taken ∧ (s.nextPhase).era = s.era ∧
    (s.nextPhase).inReset = s.inReset :=
  by and_intros <;> rfl

@[simp] theorem State.startSlot_fields (s : State) :
    (s.startSlot).params = s.params ∧ (s.startSlot).constructed = s.constructed ∧ (s.startSlot).speed = s.speed ∧
    (s.startSlot).buf = s.buf ∧ (s.startSlot).busy = s.busy ∧ (s.startSlot).cmd = s.cmd ∧ (s.startSlot).phase = 0 ∧
    (s.startSlot).bitc = s.bitc ∧ (s.startSlot).idx = s.idx ∧ (s.startSlot).sr = s.sr ∧ (s.startSlot).samp = s.samp ∧
    (s.startSlot).crc = s.crc ∧ (s.startSlot).rsp = s.rsp ∧ (s.startSlot).padout = s.padout ∧
    (s.startSlot).history = s.history ∧ (s.startSlot).offers = s.offers ∧ (s.startSlot).oracle = s.oracle ∧
    (s.startSlot).taken = s.taken ∧ (s.startSlot).era = s.era ∧ (s.startSlot).inReset = s.inReset :=
  by and_intros <;> rfl

@[simp] theorem State.endSlot_fields (s : State) :
    (s.endSlot).params = s.params ∧ (s.endSlot).constructed = s.constructed ∧ (s.endSlot).speed = s.speed ∧
    (s.endSlot).buf = s.buf ∧ (s.endSlot).busy = s.busy ∧ (s.endSlot).cmd = s.cmd ∧ (s.endSlot).phase = 0 ∧
    (s.endSlot).bitc = s.bitc + 1 ∧ (s.endSlot).idx = s.idx ∧ (s.endSlot).sr = s.sr ∧ (s.endSlot).samp = s.samp ∧
    (s.endSlot).crc = s.crc ∧ (s.endSlot).rsp = s.rsp ∧ (s.endSlot).padout = s.padout ∧
    (s.endSlot).history = s.history ∧ (s.endSlot).offers = s.offers ∧ (s.endSlot).oracle = s.oracle ∧
    (s.endSlot).taken = s.taken ∧ (s.endSlot).era = s.era ∧ (s.endSlot).inReset = s.inReset :=
  by and_intros <;> rfl

@[simp] theorem State.endByte_fields (s : State) :
    (s.endByte).params = s.params ∧ (s.endByte).constructed = s.constructed ∧ (s.endByte).speed = s.speed ∧
    (s.endByte).buf = s.buf ∧ (s.endByte).busy = s.busy ∧ (s.endByte).cmd = s.cmd ∧ (s.endByte).phase = s.phase ∧
    (s.endByte).bitc = 0 ∧ (s.endByte).idx = s.idx + 1 ∧ (s.endByte).sr = s.sr ∧ (s.endByte).samp = s.samp ∧
    (s.endByte).crc = s.crc ∧ (s.endByte).rsp = s.rsp ∧ (s.endByte).padout = s.padout ∧
    (s.endByte).history = s.history ∧ (s.endByte).offers = s.offers ∧ (s.endByte).oracle = s.oracle ∧
    (s.endByte).taken = s.taken ∧ (s.endByte).era = s.era ∧ (s.endByte).inReset = s.inReset :=
  by and_intros <;> rfl

@[simp] theorem State.shiftIn_fields (s : State) :
    (s.shiftIn).params = s.params ∧ (s.shiftIn).constructed = s.constructed ∧ (s.shiftIn).speed = s.speed ∧
    (s.shiftIn).buf = s.buf ∧ (s.shiftIn).busy = s.busy ∧ (s.shiftIn).cmd = s.cmd ∧ (s.shiftIn).phase = s.phase ∧
    (s.shiftIn).bitc = s.bitc ∧ (s.shiftIn).idx = s.idx ∧ (s.shiftIn).sr = shiftInBit s.sr s.samp ∧
    (s.shiftIn).samp = s.samp ∧ (s.shiftIn).crc = s.crc ∧ (s.shiftIn).rsp = s.rsp ∧ (s.shiftIn).padout = s.padout ∧
    (s.shiftIn).history = s.history ∧ (s.shiftIn).offers = s.offers ∧ (s.shiftIn).oracle = s.oracle ∧
    (s.shiftIn).taken = s.taken ∧ (s.shiftIn).era = s.era ∧ (s.shiftIn).inReset = s.inReset :=
  by and_intros <;> rfl

@[simp] theorem State.startByte_fields (s : State) (v : Byte) :
    (s.startByte v).params = s.params ∧ (s.startByte v).constructed = s.constructed ∧
    (s.startByte v).speed = s.speed ∧ (s.startByte v).buf = s.buf ∧ (s.startByte v).busy = s.busy ∧
    (s.startByte v).cmd = s.cmd ∧ (s.startByte v).phase = 0 ∧ (s.startByte v).bitc = 0 ∧ (s.startByte v).idx = s.idx ∧
    (s.startByte v).sr = v ∧ (s.startByte v).samp = s.samp ∧ (s.startByte v).crc = s.crc ∧
    (s.startByte v).rsp = s.rsp ∧ (s.startByte v).padout = s.padout ∧ (s.startByte v).history = s.history ∧
    (s.startByte v).offers = s.offers ∧ (s.startByte v).oracle = s.oracle ∧ (s.startByte v).taken = s.taken ∧
    (s.startByte v).era = s.era ∧ (s.startByte v).inReset = s.inReset :=
  by and_intros <;> rfl

@[simp] theorem State.latch_fields (s : State) (w : Word) :
    (s.latch w).params = s.params ∧ (s.latch w).constructed = s.constructed ∧ (s.latch w).speed = s.speed ∧
    (s.latch w).buf = s.buf ∧ (s.latch w).busy = true ∧ (s.latch w).cmd = w ∧ (s.latch w).phase = s.phase ∧
    (s.latch w).bitc = s.bitc ∧ (s.latch w).idx = s.idx ∧ (s.latch w).sr = s.sr ∧ (s.latch w).samp = s.samp ∧
    (s.latch w).crc = s.crc ∧ (s.latch w).rsp = s.rsp ∧ (s.latch w).padout = s.padout ∧
    (s.latch w).history = s.history ∧ (s.latch w).offers = s.offers ∧ (s.latch w).oracle = s.oracle ∧
    (s.latch w).taken = s.taken ∧ (s.latch w).era = s.era ∧ (s.latch w).inReset = false :=
  by and_intros <;> rfl

@[simp] theorem State.handOver_fields (s : State) :
    (s.handOver).params = s.params ∧ (s.handOver).constructed = s.constructed ∧ (s.handOver).speed = s.speed ∧
    (s.handOver).buf = s.buf ∧ (s.handOver).busy = false ∧ (s.handOver).cmd = s.cmd ∧ (s.handOver).phase = s.phase ∧
    (s.handOver).bitc = s.bitc ∧ (s.handOver).idx = s.idx ∧ (s.handOver).sr = s.sr ∧ (s.handOver).samp = s.samp ∧
    (s.handOver).crc = s.crc ∧ (s.handOver).rsp = none ∧ (s.handOver).padout = s.padout ∧
    (s.handOver).history = s.history ∧ (s.handOver).offers = s.offers ∧ (s.handOver).oracle = s.oracle ∧
    (s.handOver).taken = s.rsp.toList ++ s.taken ∧ (s.handOver).era = s.era ∧ (s.handOver).inReset = s.inReset :=
  by and_intros <;> rfl

@[simp] theorem State.construct_fields (s : State) :
    (s.construct).params = s.params ∧ (s.construct).constructed = true ∧ (s.construct).speed = .standard ∧
    (s.construct).buf = s.buf ∧ (s.construct).busy = s.busy ∧ (s.construct).cmd = s.cmd ∧
    (s.construct).phase = s.phase ∧ (s.construct).bitc = s.bitc ∧ (s.construct).idx = s.idx ∧
    (s.construct).sr = s.sr ∧ (s.construct).samp = s.samp ∧ (s.construct).crc = s.crc ∧
    (s.construct).rsp = some (responseWord .ok 0 0) ∧ (s.construct).padout = s.padout ∧
    (s.construct).history = s.history ∧ (s.construct).offers = s.offers ∧ (s.construct).oracle = s.oracle ∧
    (s.construct).taken = s.taken ∧ (s.construct).era = s.era ∧ (s.construct).inReset = s.inReset :=
  by and_intros <;> rfl

@[simp] theorem State.storeByte_fields (s : State) :
    (s.storeByte).params = s.params ∧ (s.storeByte).constructed = s.constructed ∧ (s.storeByte).speed = s.speed ∧
    (s.storeByte).buf = Memory.write s.buf s.idx.toNat s.sr ∧ (s.storeByte).busy = s.busy ∧
    (s.storeByte).cmd = s.cmd ∧ (s.storeByte).phase = s.phase ∧ (s.storeByte).bitc = s.bitc ∧
    (s.storeByte).idx = s.idx ∧ (s.storeByte).sr = s.sr ∧ (s.storeByte).samp = s.samp ∧ (s.storeByte).crc = s.crc ∧
    (s.storeByte).rsp = s.rsp ∧ (s.storeByte).padout = s.padout ∧ (s.storeByte).history = s.history ∧
    (s.storeByte).offers = s.offers ∧ (s.storeByte).oracle = s.oracle ∧ (s.storeByte).taken = s.taken ∧
    (s.storeByte).era = s.era ∧ (s.storeByte).inReset = s.inReset :=
  by and_intros <;> rfl

@[simp] theorem State.startSequence_fields (s : State) :
    (s.startSequence).params = s.params ∧ (s.startSequence).constructed = s.constructed ∧
    (s.startSequence).speed = s.speed ∧ (s.startSequence).buf = s.buf ∧ (s.startSequence).busy = s.busy ∧
    (s.startSequence).cmd = s.cmd ∧ (s.startSequence).phase = s.phase ∧ (s.startSequence).bitc = s.bitc ∧
    (s.startSequence).idx = 0 ∧ (s.startSequence).sr = s.sr ∧ (s.startSequence).samp = s.samp ∧
    (s.startSequence).crc = s.crc ∧ (s.startSequence).rsp = s.rsp ∧ (s.startSequence).padout = s.padout ∧
    (s.startSequence).history = s.history ∧ (s.startSequence).offers = s.offers ∧
    (s.startSequence).oracle = s.oracle ∧ (s.startSequence).taken = s.taken ∧ (s.startSequence).era = s.era ∧
    (s.startSequence).inReset = s.inReset :=
  by and_intros <;> rfl

@[simp] theorem State.offer_fields (s : State) (w : Word) :
    (s.offer w).params = s.params ∧ (s.offer w).constructed = s.constructed ∧ (s.offer w).speed = s.speed ∧
    (s.offer w).buf = s.buf ∧ (s.offer w).busy = s.busy ∧ (s.offer w).cmd = s.cmd ∧ (s.offer w).phase = s.phase ∧
    (s.offer w).bitc = s.bitc ∧ (s.offer w).idx = s.idx ∧ (s.offer w).sr = s.sr ∧ (s.offer w).samp = s.samp ∧
    (s.offer w).crc = s.crc ∧ (s.offer w).rsp = s.rsp ∧ (s.offer w).padout = s.padout ∧
    (s.offer w).history = s.history ∧ (s.offer w).offers = w :: s.offers ∧ (s.offer w).oracle = s.oracle ∧
    (s.offer w).taken = s.taken ∧ (s.offer w).era = s.era ∧ (s.offer w).inReset = s.inReset :=
  by and_intros <;> rfl

@[simp] theorem State.hardwareReset_fields (s : State) :
    (s.hardwareReset).params = s.params ∧ (s.hardwareReset).constructed = false ∧
    (s.hardwareReset).speed = .standard ∧
    (s.hardwareReset).buf = (s.buf.filter fun c => s.stillReset || s.wroteCell c.1) ∧
    (s.hardwareReset).busy = false ∧ (s.hardwareReset).cmd = 0 ∧ (s.hardwareReset).phase = 0 ∧
    (s.hardwareReset).bitc = 0 ∧ (s.hardwareReset).idx = 0 ∧ (s.hardwareReset).sr = 0 ∧
    (s.hardwareReset).samp = false ∧ (s.hardwareReset).crc = 0 ∧ (s.hardwareReset).rsp = none ∧
    (s.hardwareReset).padout = s.padAfterReset ∧ (s.hardwareReset).history = s.history ∧
    (s.hardwareReset).offers = s.offers ∧ (s.hardwareReset).oracle = s.oracle ∧ (s.hardwareReset).taken = s.taken ∧
    (s.hardwareReset).era = (if s.stillReset then s.era else s.era + 1) ∧ (s.hardwareReset).inReset = true :=
  by and_intros <;> rfl

/-- An edge of a hardware reset is followed by further edges of the same reset (R250). -/
@[simp] theorem State.stillReset_hardwareReset (s : State) : s.hardwareReset.stillReset = true := rfl

end Sys2Proof.Machine
end

