-- ==== Sys2Proof/Laws/Ops.lean ====
section
/-! SUPPORT. What each shared operation does, said once: the micro-operations, the slots, the bit, byte and sequence
procedures, the checks and the end of a command. Provers cite these and need not unfold the operations. -/

namespace Sys2Proof.Machine

/-! ### Procedures -/

@[simp] theorem Run.andThen_done (s : State) (k : State → Run) : (Run.done s).andThen k = k s := rfl
@[simp] theorem Run.andThen_failed (e : Byte) (s : State) (k : State → Run) :
    (Run.failed e s).andThen k = .failed e s := rfl
@[simp] theorem Run.finish_done (s : State) (close : State → State) : (Run.done s).finish close = close s := rfl
@[simp] theorem Run.finish_failed (e : Byte) (s : State) (close : State → State) :
    (Run.failed e s).finish close = s.pinFailure e := rfl

/-! ### The checks (R214) -/

/-- A command whose checks pass runs its body. -/
theorem checked_pass {i : Instr} {s : State} (body : State → State)
    (hr : operandInRange s.params.bufDepth i = true) (hs : stateAllows s.constructed i = true) :
    checked i s body = body s := by
  simp [checked, refusal, hr, hs]

/-- A command out of range answers `BAD_OPERAND` and does nothing else. -/
theorem checked_badOperand {i : Instr} {s : State} (body : State → State)
    (hr : operandInRange s.params.bufDepth i = false) : checked i s body = s.refuse .badOperand := by
  simp [checked, refusal, hr]

/-- A command in range that the state check stops answers `BAD_STATE` and does nothing else. -/
theorem checked_badState {i : Instr} {s : State} (body : State → State)
    (hr : operandInRange s.params.bufDepth i = true) (hs : stateAllows s.constructed i = false) :
    checked i s body = s.refuse .badState := by
  simp [checked, refusal, hr, hs]

/-- Everything the checks can do. -/
theorem checked_cases (i : Instr) (s : State) (body : State → State) :
    (refusal i s = none ∧ checked i s body = body s) ∨
    (∃ st, refusal i s = some st ∧ (st = .badOperand ∨ st = .badState) ∧ checked i s body = s.refuse st) := by
  cases hr : operandInRange s.params.bufDepth i with
  | false => exact .inr ⟨.badOperand, by simp [refusal, hr], .inl rfl, checked_badOperand body hr⟩
  | true =>
    cases hs : stateAllows s.constructed i with
    | false => exact .inr ⟨.badState, by simp [refusal, hr, hs], .inr rfl, checked_badState body hr hs⟩
    | true => exact .inl ⟨by simp [refusal, hr, hs], checked_pass body hr hs⟩

/-- The operand check of the machine is the range of R72 that `WellFormed` states. -/
theorem operandInRange_eq_wellFormed (depth : Nat) (i : Instr) : operandInRange depth i = i.wellFormed depth := by
  cases i <;> rfl

/-! ### The oracle -/

@[simp] theorem Oracle.gives_nil (o o' : Oracle) : o.Gives [] o' ↔ o' = o := Iff.rfl
@[simp] theorem Oracle.gives_cons (o o' : Oracle) (a : PinAnswer) (as : List PinAnswer) :
    o.Gives (a :: as) o' ↔ o.next.1 = a ∧ o.next.2.Gives as o' := Iff.rfl

/-- Answers in a row: first the ones, then the others. -/
theorem Oracle.gives_append (o o' : Oracle) (as bs : List PinAnswer) :
    o.Gives (as ++ bs) o' ↔ ∃ m, o.Gives as m ∧ m.Gives bs o' := by
  induction as generalizing o with
  | nil => simp
  | cons a as ih => simp [ih, and_assoc]

/-- A scripted oracle gives its script. -/
theorem Oracle.gives_script (as rest : List PinAnswer) (d : Nat) :
    Oracle.Gives { script := as ++ rest, draws := d } as { script := rest, draws := d } := by
  induction as with
  | nil => rfl
  | cons a as ih => exact ⟨rfl, ih⟩

/-! ### Micro-operations -/

theorem perform_wait (s : State) (n : Us) : perform (.wait n) s = .done { s with history := .waited n :: s.history } :=
  rfl

theorem perform_low_ok {s : State} {l : Bool} (h : s.oracle.next.1 = .ok l) :
    perform .low s = .done { s with
      oracle := s.oracle.next.2, history := .low :: s.history, padout := .low } := by
  simp [perform, MicroOp.isPin, complete, h, State.log]

theorem perform_low_err {s : State} {e : Byte} (h : s.oracle.next.1 = .err e) :
    perform .low s = .failed e { s with
      oracle := s.oracle.next.2, history := .lowFailed e :: s.history, padout := .unknown } := by
  simp [perform, MicroOp.isPin, complete, h, State.log]

theorem perform_high_ok {s : State} {l : Bool} (h : s.oracle.next.1 = .ok l) :
    perform .high s = .done { s with
      oracle := s.oracle.next.2, history := .high :: s.history, padout := .released } := by
  simp [perform, MicroOp.isPin, complete, h, State.log]

theorem perform_high_err {s : State} {e : Byte} (h : s.oracle.next.1 = .err e) :
    perform .high s = .failed e { s with
      oracle := s.oracle.next.2, history := .highFailed e :: s.history, padout := .unknown } := by
  simp [perform, MicroOp.isPin, complete, h, State.log]

theorem perform_sample_ok {s : State} {l : Bool} (h : s.oracle.next.1 = .ok l) :
    perform .sample s = .done { s with
      oracle := s.oracle.next.2, history := .sampled l :: s.history, samp := l } := by
  simp [perform, MicroOp.isPin, complete, h, State.log]

theorem perform_sample_err {s : State} {e : Byte} (h : s.oracle.next.1 = .err e) :
    perform .sample s = .failed e { s with
      oracle := s.oracle.next.2, history := .sampleFailed e :: s.history } := by
  simp [perform, MicroOp.isPin, complete, h, State.log]

/-! ### Slots -/

/-- A read slot whose three accesses succeed (R133). -/
theorem readBit_ok {s : State} {x : SlotAnswer} {o : Oracle} (h : s.oracle.Gives x.answers o) :
    readBit s = .done { s with
      oracle := o, phase := s.phase + 6, samp := x.level, padout := .released,
      history := (readTrace s.params x.level).reverse ++ s.history } := by
  obtain ⟨h1, h2, h3, rfl⟩ := h
  simp [readBit, readSlot, runSlot, perform, MicroOp.isPin, complete, State.log,
      State.nextPhase, *, readTrace, T, tableEntry, BitVec.add_assoc]

/-- A read slot in which access number `ls.length` fails (R140). -/
theorem readBit_abort {s : State} {ls : List Bool} {e : Byte} {o : Oracle} (hl : ls.length ≤ 2)
    (h : s.oracle.Gives (drivesOk ls ++ [.err e]) o) :
    readBit s = .failed e { s with
      oracle := o, phase := s.phase + BitVec.ofNat 4 (2 * ls.length), padout := readAbortPad ls.length,
      history := (readAbort s.params ls.length e).reverse ++ s.history } := by
  match ls, hl, h with
  | [], _, h =>
    obtain ⟨h1, rfl⟩ := h
    simp [readBit, readSlot, runSlot, perform, MicroOp.isPin, complete, State.log,
      State.nextPhase, *, readAbort, readAbortPad]
  | [a], _, h =>
    obtain ⟨h1, h2, rfl⟩ := h
    simp [readBit, readSlot, runSlot, perform, MicroOp.isPin, complete, State.log,
      State.nextPhase, *, readAbort, readAbortPad, T, tableEntry, BitVec.add_assoc]
  | [a, b], _, h =>
    obtain ⟨h1, h2, h3, rfl⟩ := h
    simp [readBit, readSlot, runSlot, perform, MicroOp.isPin, complete, State.log,
      State.nextPhase, *, readAbort, readAbortPad, T, tableEntry, BitVec.add_assoc]

/-- A write slot whose two accesses succeed (R133). -/
theorem writeBit_ok {s : State} {b x y : Bool} {o : Oracle} (h : s.oracle.Gives [.ok x, .ok y] o) :
    writeBit b s = .done { s with
      oracle := o, phase := s.phase + 4, padout := .released,
      history := (writeTrace s.params b).reverse ++ s.history } := by
  obtain ⟨h1, h2, rfl⟩ := h
  cases b <;>
    simp [writeBit, writeSlot, writeSlot0, writeSlot1, runSlot, perform, MicroOp.isPin, complete, State.log,
      State.nextPhase, *, writeTrace, T, tableEntry, BitVec.add_assoc]

/-- A write slot in which access number `ls.length` fails (R140). -/
theorem writeBit_abort {s : State} {b : Bool} {ls : List Bool} {e : Byte} {o : Oracle} (hl : ls.length ≤ 1)
    (h : s.oracle.Gives (drivesOk ls ++ [.err e]) o) :
    writeBit b s = .failed e { s with
      oracle := o, phase := s.phase + BitVec.ofNat 4 (2 * ls.length), padout := .unknown,
      history := (writeAbort s.params b ls.length e).reverse ++ s.history } := by
  match ls, hl, h with
  | [], _, h =>
    obtain ⟨h1, rfl⟩ := h
    cases b <;> simp [writeBit, writeSlot, writeSlot0, writeSlot1, runSlot, perform, MicroOp.isPin, complete, State.log,
      State.nextPhase, *, writeAbort]
  | [a], _, h =>
    obtain ⟨h1, h2, rfl⟩ := h
    cases b <;>
      simp [writeBit, writeSlot, writeSlot0, writeSlot1, runSlot, perform, MicroOp.isPin, complete, State.log,
      State.nextPhase, *, writeAbort, T, tableEntry, BitVec.add_assoc]

/-- What an oracle can answer to a read slot. -/
theorem Oracle.readSlot_cases (o : Oracle) :
    (∃ (x : SlotAnswer) (o' : Oracle), o.Gives x.answers o') ∨
    (∃ (ls : List Bool) (e : Byte) (o' : Oracle), ls.length ≤ 2 ∧ o.Gives (drivesOk ls ++ [.err e]) o') := by
  cases h1 : o.next.1 with
  | err e => exact .inr ⟨[], e, _, by simp, h1, rfl⟩
  | ok a =>
    cases h2 : o.next.2.next.1 with
    | err e => exact .inr ⟨[a], e, _, by simp, h1, h2, rfl⟩
    | ok b =>
      cases h3 : o.next.2.next.2.next.1 with
      | err e => exact .inr ⟨[a, b], e, _, by simp, h1, h2, h3, rfl⟩
      | ok c => exact .inl ⟨⟨a, b, c⟩, _, h1, h2, h3, rfl⟩

/-- What an oracle can answer to a write slot. -/
theorem Oracle.writeSlot_cases (o : Oracle) :
    (∃ (x y : Bool) (o' : Oracle), o.Gives [.ok x, .ok y] o') ∨
    (∃ (ls : List Bool) (e : Byte) (o' : Oracle), ls.length ≤ 1 ∧ o.Gives (drivesOk ls ++ [.err e]) o') := by
  cases h1 : o.next.1 with
  | err e => exact .inr ⟨[], e, _, by simp, h1, rfl⟩
  | ok a =>
    cases h2 : o.next.2.next.1 with
    | err e => exact .inr ⟨[a], e, _, by simp, h1, h2, rfl⟩
    | ok b => exact .inl ⟨a, b, _, h1, h2, rfl⟩

/-- Everything a read slot can do. -/
theorem readBit_cases (s : State) :
    (∃ (x : SlotAnswer) (o : Oracle), s.oracle.Gives x.answers o ∧ readBit s = .done { s with
      oracle := o, phase := s.phase + 6, samp := x.level, padout := .released,
      history := (readTrace s.params x.level).reverse ++ s.history }) ∨
    (∃ (ls : List Bool) (e : Byte) (o : Oracle), ls.length ≤ 2 ∧ s.oracle.Gives (drivesOk ls ++ [.err e]) o ∧
      readBit s = .failed e { s with
        oracle := o, phase := s.phase + BitVec.ofNat 4 (2 * ls.length), padout := readAbortPad ls.length,
        history := (readAbort s.params ls.length e).reverse ++ s.history }) := by
  obtain ⟨x, o, h⟩ | ⟨ls, e, o, hl, h⟩ := s.oracle.readSlot_cases
  · exact .inl ⟨x, o, h, readBit_ok h⟩
  · exact .inr ⟨ls, e, o, hl, h, readBit_abort hl h⟩

/-- Everything a write slot can do. -/
theorem writeBit_cases (b : Bool) (s : State) :
    (∃ (x y : Bool) (o : Oracle), s.oracle.Gives [.ok x, .ok y] o ∧ writeBit b s = .done { s with
      oracle := o, phase := s.phase + 4, padout := .released,
      history := (writeTrace s.params b).reverse ++ s.history }) ∨
    (∃ (ls : List Bool) (e : Byte) (o : Oracle), ls.length ≤ 1 ∧ s.oracle.Gives (drivesOk ls ++ [.err e]) o ∧
      writeBit b s = .failed e { s with
        oracle := o, phase := s.phase + BitVec.ofNat 4 (2 * ls.length), padout := .unknown,
        history := (writeAbort s.params b ls.length e).reverse ++ s.history }) := by
  obtain ⟨x, y, o, h⟩ | ⟨ls, e, o, hl, h⟩ := s.oracle.writeSlot_cases
  · exact .inl ⟨x, y, o, h, writeBit_ok h⟩
  · exact .inr ⟨ls, e, o, hl, h, writeBit_abort hl h⟩

/-! ### Bytes from bits -/

/-- A bit of `SR` after one shift (R21). -/
theorem getLsbD_shiftInBit (sr : Byte) (b : Bool) (i : Nat) (h : i < 8) :
    (shiftInBit sr b).getLsbD i = if i = 7 then b else sr.getLsbD (i + 1) := by
  have key : ∀ i : Fin 8, (boolByte b <<< 7).getLsbD i.val = (decide (i.val = 7) && b) := by cases b <;> decide
  simp only [shiftInBit, BitVec.getLsbD_or, BitVec.getLsbD_ushiftRight, key ⟨i, h⟩]
  by_cases h7 : i = 7
  · simp [h7]
  · simp [h7, Nat.add_comm]

/-- A bit of the byte a list of bits makes. -/
theorem getLsbD_byteOfBits (bs : List Bool) (i : Nat) (h : i < 8) :
    (byteOfBits bs).getLsbD i = bs.getD i false := by
  have key : ∀ (bs : List Bool) (i : Nat),
      (bs.foldr (fun (b : Bool) n => 2 * n + b.toNat) 0).testBit i = bs.getD i false := by
    intro bs
    induction bs with
    | nil => simp
    | cons b bs ih =>
      intro i
      cases i with
      | zero => cases b <;> simp [Nat.testBit_zero]
      | succ i =>
        rw [List.foldr_cons, Nat.testBit_succ, List.getD_cons_succ, ← ih i]
        congr 1
        cases b with
        | false => simp
        | true => simp; omega
  rw [byteOfBits, BitVec.getLsbD_ofNat, key]
  simp [h]

/-- Eight bits shifted in make the byte whose bit `i` is the `i`-th of them; nothing of the old `SR` is left (R21, R150). -/
theorem foldl_shiftInBit (bs : List Bool) (h : bs.length = 8) (sr : Byte) :
    bs.foldl shiftInBit sr = byteOfBits bs := by
  match bs, h with
  | [b0, b1, b2, b3, b4, b5, b6, b7], _ =>
    apply BitVec.eq_of_getLsbD_eq
    intro i hi
    rw [getLsbD_byteOfBits _ _ hi]
    match i, hi with
    | 0, _ | 1, _ | 2, _ | 3, _ | 4, _ | 5, _ | 6, _ | 7, _ =>
      simp only [List.foldl_cons, List.foldl_nil, getLsbD_shiftInBit, Nat.reduceAdd, Nat.reduceLT, Nat.reduceEqDiff,
        if_true, if_false]
      rfl

/-- A byte is made of its bits. -/
theorem byteOfBits_bitsOf (v : Byte) : byteOfBits (bitsOf v) = v := by
  apply BitVec.eq_of_getLsbD_eq
  intro i hi
  rw [getLsbD_byteOfBits _ _ hi]
  simp [bitsOf, List.getD_eq_getElem?_getD, hi]

end Sys2Proof.Machine
end

