-- ==== Sys2Proof/Laws/Bytes.lean ====
section
/-! SUPPORT. What the bit, byte and sequence procedures do when every access succeeds and when one fails (spec/43_byte_ops.md
R150, R153 to R156), and the checksum fold (spec/44_crc8.md R171). -/

namespace Sys2Proof.Machine

/-- `PADOUT` after a number of complete slots: released, unless there were none. -/
def padAfterSlots (n : Nat) (pad : PadOut) : PadOut := if n = 0 then pad else .released

@[simp] theorem padAfterSlots_zero (pad : PadOut) : padAfterSlots 0 pad = pad := rfl
@[simp] theorem padAfterSlots_succ (n : Nat) (pad : PadOut) : padAfterSlots (n + 1) pad = .released := rfl
@[simp] theorem padAfterSlots_released (n : Nat) : padAfterSlots n .released = .released := by
  simp [padAfterSlots]

@[simp] theorem levels_nil : levels [] = [] := rfl
@[simp] theorem levels_cons (x : SlotAnswer) (xs : List SlotAnswer) : levels (x :: xs) = x.level :: levels xs := rfl
@[simp] theorem levels_append (xs ys : List SlotAnswer) : levels (xs ++ ys) = levels xs ++ levels ys := by
  simp [levels]
@[simp] theorem length_levels (xs : List SlotAnswer) : (levels xs).length = xs.length := by simp [levels]
@[simp] theorem drivesOk_nil : drivesOk [] = [] := rfl
@[simp] theorem drivesOk_cons (l : Bool) (ls : List Bool) : drivesOk (l :: ls) = .ok l :: drivesOk ls := rfl
@[simp] theorem drivesOk_append (ls ms : List Bool) : drivesOk (ls ++ ms) = drivesOk ls ++ drivesOk ms := by
  simp [drivesOk]

/-! ### Reading -/

/-- Read slots of a byte that all succeed. -/
theorem readBits_ok (xs : List SlotAnswer) {s : State} {o : Oracle} (hp : s.phase = 0)
    (h : s.oracle.Gives (xs.flatMap SlotAnswer.answers) o) :
    readBits xs.length s = .done { s with
      oracle := o, bitc := s.bitc + BitVec.ofNat 4 xs.length, sr := (levels xs).foldl shiftInBit s.sr,
      samp := (levels xs).getLastD s.samp, padout := padAfterSlots xs.length s.padout,
      history := ((levels xs).flatMap (readTrace s.params)).reverse ++ s.history } := by
  induction xs generalizing s with
  | nil =>
    obtain rfl : o = s.oracle := h
    simp [readBits]
  | cons x xs ih =>
    rw [List.flatMap_cons, Oracle.gives_append] at h
    obtain ⟨m, hx, hxs⟩ := h
    rw [List.length_cons, readBits, readBit_ok hx, Run.andThen_done, ih rfl hxs, levels_cons, List.getLastD_cons]
    simp only [State.shiftIn, State.endSlot, hp, BitVec.ofNat_add]
    rw [BitVec.add_comm (BitVec.ofNat 4 xs.length), ← BitVec.add_assoc]
    simp

/-- A read slot of a byte fails after `xs.length` complete ones. -/
theorem readBits_abort (n : Nat) (xs : List SlotAnswer) {ls : List Bool} {e : Byte} {s : State} {o : Oracle}
    (hn : xs.length < n) (hl : ls.length ≤ 2)
    (h : s.oracle.Gives (xs.flatMap SlotAnswer.answers ++ (drivesOk ls ++ [.err e])) o) :
    ∃ phase bitc sr samp, readBits n s = .failed e { s with
      oracle := o, phase := phase, bitc := bitc, sr := sr, samp := samp, padout := readAbortPad ls.length,
      history := ((levels xs).flatMap (readTrace s.params) ++ readAbort s.params ls.length e).reverse ++
        s.history } := by
  induction xs generalizing s n with
  | nil =>
    obtain ⟨n, rfl⟩ : ∃ k, n = k + 1 := ⟨n - 1, by simp at hn; omega⟩
    simp only [List.flatMap_nil, List.nil_append] at h
    rw [readBits, readBit_abort hl h, Run.andThen_failed]
    exact ⟨_, _, _, _, rfl⟩
  | cons x xs ih =>
    obtain ⟨n, rfl⟩ : ∃ k, n = k + 1 := ⟨n - 1, by simp at hn; omega⟩
    rw [List.flatMap_cons, List.append_assoc, Oracle.gives_append] at h
    obtain ⟨m, hx, hxs⟩ := h
    rw [readBits, readBit_ok hx, Run.andThen_done]
    obtain ⟨p, b, r, l, hr⟩ := ih n (by simpa using hn) (s := State.endSlot (State.shiftIn { s with
      oracle := m, phase := s.phase + 6, samp := x.level, padout := .released,
      history := (readTrace s.params x.level).reverse ++ s.history })) hxs
    refine ⟨p, b, r, l, ?_⟩
    rw [hr]
    simp [State.shiftIn, State.endSlot]

/-- Eight read slots make the byte of the levels sampled (R150). -/
theorem readByte_ok {xs : List SlotAnswer} {s : State} {o : Oracle} (h8 : xs.length = 8)
    (h : s.oracle.Gives (xs.flatMap SlotAnswer.answers) o) :
    readByte s = .done { s with
      oracle := o, phase := 0, bitc := 8, sr := byteOfBits (levels xs), samp := (levels xs).getLastD s.samp,
      padout := .released, history := ((levels xs).flatMap (readTrace s.params)).reverse ++ s.history } := by
  have := readBits_ok xs (s := s.startByte 0) rfl h
  rw [h8] at this
  rw [readByte, this, foldl_shiftInBit _ (by simpa using h8)]
  rfl

/-- A byte read whose slot number `xs.length` fails. -/
theorem readByte_abort {xs : List SlotAnswer} {ls : List Bool} {e : Byte} {s : State} {o : Oracle}
    (h8 : xs.length < 8) (hl : ls.length ≤ 2)
    (h : s.oracle.Gives (xs.flatMap SlotAnswer.answers ++ (drivesOk ls ++ [.err e])) o) :
    ∃ phase bitc sr samp, readByte s = .failed e { s with
      oracle := o, phase := phase, bitc := bitc, sr := sr, samp := samp, padout := readAbortPad ls.length,
      history := ((levels xs).flatMap (readTrace s.params) ++ readAbort s.params ls.length e).reverse ++
        s.history } := by
  obtain ⟨p, b, r, l, hr⟩ := readBits_abort 8 xs (s := s.startByte 0) h8 hl h
  exact ⟨p, b, r, l, by rw [readByte, hr]; rfl⟩

/-! ### Writing -/

@[simp] theorem length_bitsOf (v : Byte) : (bitsOf v).length = 8 := by simp [bitsOf]

/-- The bits `k` and above of a byte, in wire order. -/
theorem drop_bitsOf (v : Byte) (k : Nat) (h : k < 8) :
    (bitsOf v).drop k = v.getLsbD k :: (bitsOf v).drop (k + 1) := by
  rw [List.drop_eq_getElem_cons (by simpa [bitsOf] using h)]
  simp [bitsOf]

/-- The write slots of a byte from bit `k` on, all successful; `8 - k = n`. -/
theorem writeBits_ok (n k : Nat) (ls : List Bool) {s : State} {o : Oracle} (hn : n + k = 8) (hp : s.phase = 0)
    (hb : s.bitc = BitVec.ofNat 4 k) (hl : ls.length = 2 * n) (h : s.oracle.Gives (drivesOk ls) o) :
    writeBits n s = .done { s with
      oracle := o, bitc := 8, padout := padAfterSlots n s.padout,
      history := (((bitsOf s.sr).drop k).flatMap (writeTrace s.params)).reverse ++ s.history } := by
  induction n generalizing s k ls with
  | zero =>
    obtain rfl : k = 8 := by omega
    obtain rfl : ls = [] := by simpa using hl
    obtain rfl : o = s.oracle := h
    have hb : s.bitc = 8 := hb
    simp [writeBits, ← hb, List.drop_eq_nil_of_le (Nat.le_of_eq (length_bitsOf s.sr))]
  | succ n ih =>
    match ls, hl, h with
    | x :: y :: ls, hl, h =>
      obtain ⟨m, hx, hls⟩ := (Oracle.gives_append _ _ [PinAnswer.ok x, .ok y] (drivesOk ls)).1 h
      have hk : selectBit s.sr s.bitc = s.sr.getLsbD k := by
        rw [selectBit, hb, BitVec.toNat_ofNat, Nat.mod_eq_of_lt (by omega)]
      rw [writeBits, hk, writeBit_ok hx, Run.andThen_done,
        ih (k + 1) ls (by omega) rfl (by simp [State.endSlot, hb, BitVec.ofNat_add]) (by simp at hl; omega) hls,
        drop_bitsOf s.sr k (by omega)]
      simp [State.endSlot, hp]

/-- A write slot of a byte fails at bit `k + m`, after `m` complete ones from bit `k` on. -/
theorem writeBits_abort (n k m : Nat) (ls : List Bool) {e : Byte} {s : State} {o : Oracle} (hn : n + k = 8)
    (hb : s.bitc = BitVec.ofNat 4 k) (hm : m < n) (h1 : 2 * m ≤ ls.length) (h2 : ls.length ≤ 2 * m + 1)
    (h : s.oracle.Gives (drivesOk ls ++ [.err e]) o) :
    ∃ phase bitc, writeBits n s = .failed e { s with
      oracle := o, phase := phase, bitc := bitc, padout := .unknown,
      history := ((((bitsOf s.sr).drop k).take m).flatMap (writeTrace s.params) ++
        writeAbort s.params (s.sr.getLsbD (k + m)) (ls.length - 2 * m) e).reverse ++ s.history } := by
  induction m generalizing s n k ls with
  | zero =>
    obtain ⟨n, rfl⟩ : ∃ j, n = j + 1 := ⟨n - 1, by omega⟩
    have hk : selectBit s.sr s.bitc = s.sr.getLsbD k := by
      rw [selectBit, hb, BitVec.toNat_ofNat, Nat.mod_eq_of_lt (by omega)]
    rw [writeBits, hk, writeBit_abort (by omega) h, Run.andThen_failed]
    exact ⟨_, _, rfl⟩
  | succ m ih =>
    obtain ⟨n, rfl⟩ : ∃ j, n = j + 1 := ⟨n - 1, by omega⟩
    match ls, h1, h2, h with
    | x :: y :: ls, h1, h2, h =>
      obtain ⟨m', hx, hls⟩ := (Oracle.gives_append _ _ [PinAnswer.ok x, .ok y] (drivesOk ls ++ [.err e])).1 h
      have hk : selectBit s.sr s.bitc = s.sr.getLsbD k := by
        rw [selectBit, hb, BitVec.toNat_ofNat, Nat.mod_eq_of_lt (by omega)]
      simp only [List.length_cons] at h1 h2
      rw [writeBits, hk, writeBit_ok hx, Run.andThen_done]
      obtain ⟨p, b, hr⟩ := ih n (k + 1) ls (by omega) (s := State.endSlot { s with
        oracle := m', phase := s.phase + 4, padout := .released,
        history := (writeTrace s.params (s.sr.getLsbD k)).reverse ++ s.history })
        (by simp [State.endSlot, hb, BitVec.ofNat_add]) (by omega) (by omega) (by omega) hls
      refine ⟨p, b, ?_⟩
      rw [hr, drop_bitsOf s.sr k (by omega)]
      simp [State.endSlot, show ls.length + 1 + 1 - 2 * (m + 1) = ls.length - 2 * m by omega,
        show k + (m + 1) = k + 1 + m by omega]

/-- Eight write slots send the bits of the byte (R150). -/
theorem writeByte_ok {v : Byte} {ls : List Bool} {s : State} {o : Oracle} (hl : ls.length = 16)
    (h : s.oracle.Gives (drivesOk ls) o) :
    writeByte v s = .done { s with
      oracle := o, phase := 0, bitc := 8, sr := v, padout := .released,
      history := (writeByteTrace s.params v).reverse ++ s.history } := by
  rw [writeByte, writeBits_ok 8 0 ls (s := s.startByte v) rfl rfl rfl hl h]
  rfl

/-- A byte write whose slot number `k` fails. -/
theorem writeByte_abort {v : Byte} {k : Nat} {ls : List Bool} {e : Byte} {s : State} {o : Oracle} (hk : k < 8)
    (h1 : 2 * k ≤ ls.length) (h2 : ls.length ≤ 2 * k + 1) (h : s.oracle.Gives (drivesOk ls ++ [.err e]) o) :
    ∃ phase bitc, writeByte v s = .failed e { s with
      oracle := o, phase := phase, bitc := bitc, sr := v, padout := .unknown,
      history := (((bitsOf v).take k).flatMap (writeTrace s.params) ++
        writeAbort s.params (v.getLsbD k) (ls.length - 2 * k) e).reverse ++ s.history } := by
  obtain ⟨p, b, hr⟩ := writeBits_abort 8 0 k ls (s := s.startByte v) rfl rfl hk h1 h2 h
  refine ⟨p, b, ?_⟩
  rw [writeByte, hr, Nat.zero_add]
  rfl

/-! ### The checksum fold -/

/-- The fold over `n` cells from `IDX` on touches `CRC` and `IDX` alone (R171). -/
theorem crcFold_eq (n : Nat) (s : State) (hi : s.idx.toNat + n < 512) :
    crcFold n s = { s with
      idx := s.idx + BitVec.ofNat 9 n,
      crc := ((List.range n).map fun k => s.memRead (s.idx.toNat + k)).foldl crcByte s.crc } := by
  induction n generalizing s with
  | zero => simp [crcFold]
  | succ n ih =>
    have h1 : (s.idx + 1).toNat = s.idx.toNat + 1 := by
      rw [BitVec.toNat_add]
      simp
      omega
    rw [crcFold, ih _ (by simpa [h1] using by omega)]
    simp only [List.range_succ_eq_map, List.map_cons, List.map_map, List.foldl_cons, Nat.add_zero]
    congr 1
    · rw [BitVec.ofNat_add, BitVec.add_assoc, BitVec.add_comm 1]
      rfl
    · congr 1
      refine List.map_congr_left fun k _ => ?_
      show State.memRead s ((s.idx + 1).toNat + k) = State.memRead s (s.idx.toNat + (k + 1))
      rw [h1, Nat.add_assoc, Nat.add_comm 1 k]

/-- `CRC` after the fold of CRC8 and CHKCRC is the checksum of `BUF[0 .. len-1]` (R171 to R173). -/
theorem crcOfBuffer_eq (len : BitVec 16) (s : State) (h : len.toNat ≤ 256) :
    crcOfBuffer len s = { s with
      idx := BitVec.ofNat 9 len.toNat, crc := crcSeq ((List.range len.toNat).map s.memRead) } := by
  rw [crcOfBuffer, crcFold_eq _ _ (by simpa using by omega)]
  have h0 : (fun k => s.memRead ((0 : BitVec 9).toNat + k)) = s.memRead := by
    funext k
    rw [show (0 : BitVec 9).toNat = 0 from rfl, Nat.zero_add]
  rw [crcSeq, ← h0]
  congr 1
  exact BitVec.zero_add _

/-! ### One step of the CRC is linear (R174 (c)) -/

theorem crcBit_xor (c d : Byte) (a b : Bool) : crcBit (c ^^^ d) (a ^^ b) = crcBit c a ^^^ crcBit d b := by
  have h : (c ^^^ d) >>> 1 = c >>> 1 ^^^ d >>> 1 := by
    ext i hi
    simp
  simp only [crcBit, BitVec.getLsbD_xor, h]
  cases c.getLsbD 0 <;> cases d.getLsbD 0 <;> cases a <;> cases b <;> simp <;> ext i hi <;> simp <;>
    cases (140#8)[i] <;> simp

theorem crcByte_xor (c d v w : Byte) : crcByte (c ^^^ d) (v ^^^ w) = crcByte c v ^^^ crcByte d w := by
  simp [crcByte, List.range_succ, crcBit_xor]

end Sys2Proof.Machine
end

