-- ==== Sys2Proof/Laws/Sequences.lean ====
section
/-! SUPPORT. What the sequence procedures `readBytes` and `writeBytes` do when every access succeeds and when one fails
(spec/43_byte_ops.md R153 to R156). -/

namespace Sys2Proof.Machine

/-- The buffer with the bytes stored from cell `a` on. -/
def Memory.writeAll : Memory → Nat → List Byte → Memory
  | m, _, [] => m
  | m, a, b :: bs => Memory.writeAll (m.write a b) (a + 1) bs

theorem Memory.read_writeAll (bs : List Byte) (m : Memory) (a c : Nat) :
    (m.writeAll a bs).read c = if a ≤ c ∧ c < a + bs.length then bs[c - a]? else m.read c := by
  induction bs generalizing m a with
  | nil => simp [Memory.writeAll]
  | cons b bs ih =>
    rw [Memory.writeAll, ih]
    simp only [List.length_cons]
    by_cases h : c = a
    · subst h
      simp
    · rw [Memory.read_write_other _ _ h]
      by_cases h2 : a + 1 ≤ c ∧ c < a + 1 + bs.length
      · rw [if_pos h2, if_pos (by omega), show c - a = c - (a + 1) + 1 by omega]
        rfl
      · rw [if_neg h2, if_neg (by omega)]

/-- The first `n` bytes that a list of bits makes. -/
def bytesOfBits : Nat → List Bool → List Byte
  | 0, _ => []
  | n + 1, bs => byteOfBits (bs.take 8) :: bytesOfBits n (bs.drop 8)

@[simp] theorem length_bytesOfBits (n : Nat) (bs : List Bool) : (bytesOfBits n bs).length = n := by
  induction n generalizing bs with
  | zero => rfl
  | succ n ih => simp [bytesOfBits, ih]

theorem getElem?_bytesOfBits (n a : Nat) (bs : List Bool) (h : a < n) :
    (bytesOfBits n bs)[a]? = some (byteOfBits ((bs.drop (8 * a)).take 8)) := by
  induction n generalizing bs a with
  | zero => omega
  | succ n ih =>
    cases a with
    | zero => simp [bytesOfBits]
    | succ a =>
      rw [bytesOfBits, List.getElem?_cons_succ, ih a _ (by omega), List.drop_drop, Nat.mul_succ,
        Nat.add_comm]

/-- `IDX` one further, in a state where it has not reached 256. -/
theorem toNat_idx_succ (s : State) (n : Nat) (h : s.idx.toNat + (n + 1) < 512) :
    (s.idx + 1).toNat = s.idx.toNat + 1 := by
  rw [BitVec.toNat_add]
  simp
  omega

/-- `n` bytes of RDBYTES, all of whose accesses succeed (R154). -/
theorem readBytes_ok (n : Nat) (xs : List SlotAnswer) {s : State} {o : Oracle} (hn : xs.length = 8 * n)
    (hi : s.idx.toNat + n < 512) (h : s.oracle.Gives (xs.flatMap SlotAnswer.answers) o) :
    ∃ phase bitc sr samp, readBytes n s = .done { s with
      oracle := o, phase := phase, bitc := bitc, sr := sr, samp := samp, idx := s.idx + BitVec.ofNat 9 n,
      buf := s.buf.writeAll s.idx.toNat (bytesOfBits n (levels xs)), padout := padAfterSlots n s.padout,
      history := ((levels xs).flatMap (readTrace s.params)).reverse ++ s.history } := by
  induction n generalizing s xs with
  | zero =>
    obtain rfl : xs = [] := by simpa using hn
    obtain rfl : o = s.oracle := h
    exact ⟨_, _, _, _, by simp [readBytes, bytesOfBits, Memory.writeAll]; rfl⟩
  | succ n ih =>
    rw [← List.take_append_drop 8 xs, List.flatMap_append, Oracle.gives_append] at h
    obtain ⟨m, hx, hxs⟩ := h
    rw [readBytes, readByte_ok (by simp; omega) hx, Run.andThen_done]
    have h1 := toNat_idx_succ s n hi
    obtain ⟨p, b, r, l, hr⟩ := ih (xs.drop 8) (s := State.endByte (State.storeByte { s with
      oracle := m, phase := 0, bitc := 8, sr := byteOfBits (levels (xs.take 8)),
      samp := (levels (xs.take 8)).getLastD s.samp, padout := .released,
      history := ((levels (xs.take 8)).flatMap (readTrace s.params)).reverse ++ s.history })) (by simp; omega)
      (by simp only [State.endByte, State.storeByte, State.memWrite]; omega) hxs
    refine ⟨p, b, r, l, ?_⟩
    rw [hr]
    have hl : levels xs = levels (xs.take 8) ++ levels (xs.drop 8) := by
      rw [← levels_append, List.take_append_drop]
    simp only [State.endByte, State.storeByte, State.memWrite, h1, bytesOfBits, Memory.writeAll]
    rw [hl, List.take_left' (by simp; omega), List.drop_left' (by simp; omega), BitVec.ofNat_add,
      BitVec.add_comm (BitVec.ofNat 9 n), ← BitVec.add_assoc]
    simp

/-- RDBYTES with a failing access inside byte `k`: the bytes before it are stored, it is not (R156). -/
theorem readBytes_abort (n k : Nat) (xs : List SlotAnswer) {ls : List Bool} {e : Byte} {s : State} {o : Oracle}
    (hk : k < n) (h1 : 8 * k ≤ xs.length) (h2 : xs.length < 8 * k + 8) (hi : s.idx.toNat + n < 512)
    (hl : ls.length ≤ 2) (h : s.oracle.Gives (xs.flatMap SlotAnswer.answers ++ (drivesOk ls ++ [.err e])) o) :
    ∃ phase bitc idx sr samp, readBytes n s = .failed e { s with
      oracle := o, phase := phase, bitc := bitc, sr := sr, samp := samp, idx := idx,
      buf := s.buf.writeAll s.idx.toNat (bytesOfBits k (levels xs)), padout := readAbortPad ls.length,
      history := ((levels xs).flatMap (readTrace s.params) ++ readAbort s.params ls.length e).reverse ++
        s.history } := by
  induction k generalizing s n xs with
  | zero =>
    obtain ⟨n, rfl⟩ : ∃ j, n = j + 1 := ⟨n - 1, by omega⟩
    obtain ⟨p, b, r, l, hr⟩ := readByte_abort (by omega) hl h
    exact ⟨p, b, s.idx, r, l, by rw [readBytes, hr, Run.andThen_failed]; rfl⟩
  | succ k ih =>
    obtain ⟨n, rfl⟩ : ∃ j, n = j + 1 := ⟨n - 1, by omega⟩
    rw [← List.take_append_drop 8 xs, List.flatMap_append, List.append_assoc, Oracle.gives_append] at h
    obtain ⟨m, hx, hxs⟩ := h
    rw [readBytes, readByte_ok (by simp; omega) hx, Run.andThen_done]
    have h3 := toNat_idx_succ s n hi
    obtain ⟨p, b, i, r, l, hr⟩ := ih n (xs.drop 8) (s := State.endByte (State.storeByte { s with
      oracle := m, phase := 0, bitc := 8, sr := byteOfBits (levels (xs.take 8)),
      samp := (levels (xs.take 8)).getLastD s.samp, padout := .released,
      history := ((levels (xs.take 8)).flatMap (readTrace s.params)).reverse ++ s.history })) (by omega)
      (by simp; omega) (by simp; omega)
      (by simp only [State.endByte, State.storeByte, State.memWrite]; omega) hxs
    refine ⟨p, b, i, r, l, ?_⟩
    rw [hr]
    have hl : levels xs = levels (xs.take 8) ++ levels (xs.drop 8) := by
      rw [← levels_append, List.take_append_drop]
    simp only [State.endByte, State.storeByte, State.memWrite, h3, bytesOfBits, Memory.writeAll]
    rw [hl, List.take_left' (by simp; omega), List.drop_left' (by simp; omega)]
    simp

/-- The events of the bytes that WRBYTES sends from cell `a` on. -/
def writeCellsTrace (s : State) (a n : Nat) : List Event :=
  (List.range n).flatMap fun k => writeByteTrace s.params (s.memRead (a + k))

theorem writeCellsTrace_succ (s : State) (a n : Nat) :
    writeCellsTrace s a (n + 1) = writeByteTrace s.params (s.memRead a) ++ writeCellsTrace s (a + 1) n := by
  simp [writeCellsTrace, List.range_succ_eq_map, List.flatMap_map, Nat.add_assoc, Nat.add_comm 1]

/-- `n` bytes of WRBYTES, all of whose accesses succeed (R155). -/
theorem writeBytes_ok (n : Nat) (ls : List Bool) {s : State} {o : Oracle} (hn : ls.length = 16 * n)
    (hi : s.idx.toNat + n < 512) (h : s.oracle.Gives (drivesOk ls) o) :
    ∃ phase bitc sr, writeBytes n s = .done { s with
      oracle := o, phase := phase, bitc := bitc, sr := sr, idx := s.idx + BitVec.ofNat 9 n,
      padout := padAfterSlots n s.padout,
      history := (writeCellsTrace s s.idx.toNat n).reverse ++ s.history } := by
  induction n generalizing s ls with
  | zero =>
    obtain rfl : ls = [] := by simpa using hn
    obtain rfl : o = s.oracle := h
    exact ⟨_, _, _, by simp [writeBytes, writeCellsTrace]; rfl⟩
  | succ n ih =>
    rw [← List.take_append_drop 16 ls, drivesOk_append, Oracle.gives_append] at h
    obtain ⟨m, hx, hxs⟩ := h
    rw [writeBytes, writeByte_ok (by simp; omega) hx, Run.andThen_done]
    have h1 := toNat_idx_succ s n hi
    obtain ⟨p, b, r, hr⟩ := ih (ls.drop 16) (s := State.endByte { s with
      oracle := m, phase := 0, bitc := 8, sr := s.memRead s.idx.toNat, padout := .released,
      history := (writeByteTrace s.params (s.memRead s.idx.toNat)).reverse ++ s.history }) (by simp; omega)
      (by simp only [State.endByte]; omega) hxs
    refine ⟨p, b, r, ?_⟩
    rw [hr, writeCellsTrace_succ]
    simp only [State.endByte, h1]
    rw [BitVec.ofNat_add, BitVec.add_comm (BitVec.ofNat 9 n), ← BitVec.add_assoc]
    simp
    rfl

/-- WRBYTES with a failing access inside slot `m` of byte `k` (R156). -/
theorem writeBytes_abort (n k m : Nat) (ls : List Bool) {e : Byte} {s : State} {o : Oracle} (hk : k < n) (hm : m < 8)
    (h1 : 16 * k + 2 * m ≤ ls.length) (h2 : ls.length ≤ 16 * k + 2 * m + 1) (hi : s.idx.toNat + n < 512)
    (h : s.oracle.Gives (drivesOk ls ++ [.err e]) o) :
    ∃ phase bitc idx sr, writeBytes n s = .failed e { s with
      oracle := o, phase := phase, bitc := bitc, sr := sr, idx := idx, padout := .unknown,
      history := (writeCellsTrace s s.idx.toNat k ++
        ((bitsOf (s.memRead (s.idx.toNat + k))).take m).flatMap (writeTrace s.params) ++
        writeAbort s.params ((s.memRead (s.idx.toNat + k)).getLsbD m) (ls.length - (16 * k + 2 * m)) e).reverse ++
        s.history } := by
  induction k generalizing s n ls with
  | zero =>
    obtain ⟨n, rfl⟩ : ∃ j, n = j + 1 := ⟨n - 1, by omega⟩
    obtain ⟨p, b, hr⟩ := writeByte_abort (v := s.memRead s.idx.toNat) hm (by omega) (by omega) h
    exact ⟨p, b, s.idx, _, by rw [writeBytes, hr, Run.andThen_failed]; simp [writeCellsTrace]; rfl⟩
  | succ k ih =>
    obtain ⟨n, rfl⟩ : ∃ j, n = j + 1 := ⟨n - 1, by omega⟩
    rw [← List.take_append_drop 16 ls, drivesOk_append, List.append_assoc, Oracle.gives_append] at h
    obtain ⟨m', hx, hxs⟩ := h
    rw [writeBytes, writeByte_ok (by simp; omega) hx, Run.andThen_done]
    have h3 := toNat_idx_succ s n hi
    obtain ⟨p, b, i, r, hr⟩ := ih n (ls.drop 16) (s := State.endByte { s with
      oracle := m', phase := 0, bitc := 8, sr := s.memRead s.idx.toNat, padout := .released,
      history := (writeByteTrace s.params (s.memRead s.idx.toNat)).reverse ++ s.history }) (by omega)
      (by simp; omega) (by simp; omega) (by simp only [State.endByte]; omega) hxs
    refine ⟨p, b, i, r, ?_⟩
    rw [hr, writeCellsTrace_succ]
    have hm : ∀ (a : Nat) (s' : State), s'.buf = s.buf → s'.era = s.era → s'.memRead a = s.memRead a := by
      intro a s' hb he
      simp [State.memRead, hb, he]
    simp only [State.endByte, h3]
    rw [hm _ _ rfl rfl, show s.idx.toNat + 1 + k = s.idx.toNat + (k + 1) by omega,
      show (ls.drop 16).length - (16 * k + 2 * m) = ls.length - (16 * (k + 1) + 2 * m) by simp; omega]
    simp
    rfl

end Sys2Proof.Machine
end

