-- ==== Sys2Proof/Laws/Runs.lean ====
section
/-! SUPPORT. What every procedure of micro-operations can do, said once: it appends a trace to the history, an error is its
last event and ends it, and it leaves alone everything but `PADOUT`, `SAMP`, the oracle, the sequencing registers, `SR` and,
for RDBYTES, `BUF` (spec/00_scope.md R13, R14; spec/10_state.md R20, R35; spec/60_exceptions.md R212). -/

namespace Sys2Proof.Machine

/-- The trace `es` leads from `s` to `t`. -/
structure Extends (s t : State) (es : List Event) : Prop where
  params : t.params = s.params
  constructed : t.constructed = s.constructed
  speed : t.speed = s.speed
  busy : t.busy = s.busy
  cmd : t.cmd = s.cmd
  crc : t.crc = s.crc
  rsp : t.rsp = s.rsp
  offers : t.offers = s.offers
  taken : t.taken = s.taken
  era : t.era = s.era
  inReset : t.inReset = s.inReset
  history : t.history = es.reverse ++ s.history
  samp : t.samp = (lastSample es).getD s.samp
  padout : t.padout = es.foldl padAfter s.padout

/-- What a procedure started in `s` comes to. -/
def Run.Good (s : State) : Run → Prop
  | .done t => ∃ es, Extends s t es ∧ ∀ x ∈ es, failCode x = none
  | .failed e t => ∃ es ev, Extends s t (es ++ [ev]) ∧ failCode ev = some e ∧ ∀ x ∈ es, failCode x = none

theorem lastSample_append (xs ys : List Event) :
    lastSample (xs ++ ys) = (lastSample ys).or (lastSample xs) := by
  induction xs with
  | nil => simp [lastSample]
  | cons x xs ih => simp [lastSample, ih, Option.or_assoc]

theorem Extends.refl (s : State) : Extends s s [] := by constructor <;> rfl

theorem Extends.trans {s t u : State} {es fs : List Event} (h : Extends s t es) (g : Extends t u fs) :
    Extends s u (es ++ fs) where
  params := g.params.trans h.params
  constructed := g.constructed.trans h.constructed
  speed := g.speed.trans h.speed
  busy := g.busy.trans h.busy
  cmd := g.cmd.trans h.cmd
  crc := g.crc.trans h.crc
  rsp := g.rsp.trans h.rsp
  offers := g.offers.trans h.offers
  taken := g.taken.trans h.taken
  era := g.era.trans h.era
  inReset := g.inReset.trans h.inReset
  history := by rw [g.history, h.history]; simp
  samp := by
    rw [g.samp, h.samp, lastSample_append]
    cases lastSample fs <;> rfl
  padout := by rw [g.padout, h.padout, List.foldl_append]

/-- An update of the sequencing registers, `SR`, `BUF` or the oracle alone. -/
theorem Extends.of_silent {s t : State} {es : List Event} (h : Extends s t es) {u : State}
    (hu : u = { t with
      phase := u.phase, bitc := u.bitc, idx := u.idx, sr := u.sr, buf := u.buf, oracle := u.oracle }) :
    Extends s u es := by
  rw [hu]
  exact ⟨h.params, h.constructed, h.speed, h.busy, h.cmd, h.crc, h.rsp, h.offers, h.taken, h.era, h.inReset,
    h.history, h.samp, h.padout⟩

theorem Run.Good.done_silent {s t : State} (ht : t = { s with
      phase := t.phase, bitc := t.bitc, idx := t.idx, sr := t.sr, buf := t.buf, oracle := t.oracle }) :
    (Run.done t).Good s :=
  ⟨[], (Extends.refl s).of_silent ht, by simp⟩

theorem Run.Good.of_silent {s t : State} {r : Run} (h : r.Good t) (ht : t = { s with
      phase := t.phase, bitc := t.bitc, idx := t.idx, sr := t.sr, buf := t.buf, oracle := t.oracle }) : r.Good s := by
  have h0 : Extends s t [] := (Extends.refl s).of_silent ht
  cases r with
  | done u =>
    obtain ⟨es, he, hf⟩ := h
    exact ⟨es, h0.trans he, hf⟩
  | failed e u =>
    obtain ⟨es, ev, he, hv, hf⟩ := h
    exact ⟨es, ev, h0.trans he, hv, hf⟩

theorem Run.Good.andThen {s : State} {r : Run} {k : State → Run} (h : r.Good s) (hk : ∀ t, (k t).Good t) :
    (r.andThen k).Good s := by
  cases r with
  | failed e t => exact h
  | done t =>
    obtain ⟨es, he, hf⟩ := h
    have h2 := hk t
    rw [Run.andThen_done]
    cases hr : k t with
    | done u =>
      rw [hr] at h2
      obtain ⟨fs, hg, hf2⟩ := h2
      exact ⟨es ++ fs, he.trans hg, fun x hx => (List.mem_append.1 hx).elim (hf x) (hf2 x)⟩
    | failed e u =>
      rw [hr] at h2
      obtain ⟨fs, ev, hg, hv, hf2⟩ := h2
      exact ⟨es ++ fs, ev, by simpa using he.trans hg, hv,
        fun x hx => (List.mem_append.1 hx).elim (hf x) (hf2 x)⟩

theorem complete_good (op : MicroOp) (a : PinAnswer) (s : State) : (complete op a s).Good s := by
  cases op with
  | wait n => exact ⟨[.waited n], by constructor <;> rfl, by simp [failCode]⟩
  | low =>
    cases a with
    | ok l => exact ⟨[.low], by constructor <;> rfl, by simp [failCode]⟩
    | err e => exact ⟨[], .lowFailed e, by constructor <;> rfl, rfl, by simp⟩
  | high =>
    cases a with
    | ok l => exact ⟨[.high], by constructor <;> rfl, by simp [failCode]⟩
    | err e => exact ⟨[], .highFailed e, by constructor <;> rfl, rfl, by simp⟩
  | sample =>
    cases a with
    | ok l => exact ⟨[.sampled l], by constructor <;> rfl, by simp [failCode]⟩
    | err e => exact ⟨[], .sampleFailed e, by constructor <;> rfl, rfl, by simp⟩

theorem perform_good (op : MicroOp) (s : State) : (perform op s).Good s := by
  unfold perform
  split
  · exact (complete_good op _ _).of_silent rfl
  · exact complete_good op _ _

theorem runSlot_good (ops : List MicroOp) (s : State) : (runSlot ops s).Good s := by
  induction ops generalizing s with
  | nil => exact Run.Good.done_silent rfl
  | cons op ops ih => exact (perform_good op s).andThen fun t => (ih t.nextPhase).of_silent rfl

theorem readBits_good (n : Nat) (s : State) : (readBits n s).Good s := by
  induction n generalizing s with
  | zero => exact Run.Good.done_silent rfl
  | succ n ih => exact (runSlot_good _ s).andThen fun t => (ih _).of_silent rfl

theorem writeBits_good (n : Nat) (s : State) : (writeBits n s).Good s := by
  induction n generalizing s with
  | zero => exact Run.Good.done_silent rfl
  | succ n ih => exact (runSlot_good _ s).andThen fun t => (ih _).of_silent rfl

theorem readByte_good (s : State) : (readByte s).Good s := (readBits_good 8 _).of_silent rfl

theorem writeByte_good (v : Byte) (s : State) : (writeByte v s).Good s := (writeBits_good 8 _).of_silent rfl

theorem readBytes_good (n : Nat) (s : State) : (readBytes n s).Good s := by
  induction n generalizing s with
  | zero => exact Run.Good.done_silent rfl
  | succ n ih => exact (readByte_good s).andThen fun t => (ih _).of_silent rfl

theorem writeBytes_good (n : Nat) (s : State) : (writeBytes n s).Good s := by
  induction n generalizing s with
  | zero => exact Run.Good.done_silent rfl
  | succ n ih => exact (writeByte_good _ s).andThen fun t => (ih _).of_silent rfl

/-- A command whose body is a good procedure and a final answer. -/
theorem Run.Good.finish_cases {s : State} {r : Run} (h : r.Good s) (close : State → State) :
    (∃ t es, r.finish close = close t ∧ r = .done t ∧ Extends s t es ∧ ∀ x ∈ es, failCode x = none) ∨
    (∃ e t es ev, r.finish close = t.pinFailure e ∧ r = .failed e t ∧ Extends s t (es ++ [ev]) ∧
      failCode ev = some e ∧ ∀ x ∈ es, failCode x = none) := by
  cases r with
  | done t =>
    obtain ⟨es, he, hf⟩ := h
    exact .inl ⟨t, es, rfl, rfl, he, hf⟩
  | failed e t =>
    obtain ⟨es, ev, he, hv, hf⟩ := h
    exact .inr ⟨e, t, es, ev, rfl, rfl, he, hv, hf⟩

/-! ### What no procedure but RDBYTES changes: `BUF`; and the canonical form that RDBYTES keeps -/

/-- `P` holds of the state a procedure comes to. -/
def Run.Ends (P : State → Prop) : Run → Prop
  | .done t => P t
  | .failed _ t => P t

theorem Run.Ends.andThen {P : State → Prop} {r : Run} {k : State → Run} (h : r.Ends P)
    (hk : ∀ t, P t → (k t).Ends P) : (r.andThen k).Ends P := by
  cases r with
  | done t => exact hk t h
  | failed e t => exact h

theorem complete_buf (op : MicroOp) (a : PinAnswer) (s : State) :
    (complete op a s).Ends fun t => t.buf = s.buf := by
  cases op <;> cases a <;> exact rfl

theorem runSlot_buf (ops : List MicroOp) (m : Memory) (s : State) (h : s.buf = m) :
    (runSlot ops s).Ends fun t => t.buf = m := by
  induction ops generalizing s with
  | nil => exact h
  | cons op ops ih =>
    refine Run.Ends.andThen (P := fun t => t.buf = m) ?_ fun t ht => ih t.nextPhase ht
    unfold perform
    rw [← h]
    split
    · exact complete_buf op _ { s with oracle := s.oracle.next.2 }
    · exact complete_buf op _ s

theorem readBits_buf (n : Nat) (m : Memory) (s : State) (h : s.buf = m) :
    (readBits n s).Ends fun t => t.buf = m := by
  induction n generalizing s with
  | zero => exact h
  | succ n ih => exact (runSlot_buf _ m s h).andThen fun t ht => ih _ ht

theorem writeBits_buf (n : Nat) (m : Memory) (s : State) (h : s.buf = m) :
    (writeBits n s).Ends fun t => t.buf = m := by
  induction n generalizing s with
  | zero => exact h
  | succ n ih => exact (runSlot_buf _ m s h).andThen fun t ht => ih _ ht

theorem writeBytes_buf (n : Nat) (m : Memory) (s : State) (h : s.buf = m) :
    (writeBytes n s).Ends fun t => t.buf = m := by
  induction n generalizing s with
  | zero => exact h
  | succ n ih => exact (writeBits_buf 8 m (s.startByte (s.memRead s.idx.toNat)) h).andThen fun t ht => ih t.endByte ht

end Sys2Proof.Machine
end

