-- ==== Sys2Proof/Laws/Commands.lean ====
section
/-! SUPPORT. Every command as a procedure and an end: what a command that passes its checks does, said once for all
commands, from which the rules over all commands follow (spec/60_exceptions.md R210 to R216). -/

namespace Sys2Proof.Machine

/-- The micro-operations of command `i`; an internal command has none. -/
def commandRun (i : Instr) (s : State) : Run :=
  match i with
  | .init => perform .high s
  | .sethi => perform .high s
  | .setlo => perform .low s
  | .ishi => perform .sample s
  | .islo => perform .sample s
  | .wait us => perform (.wait us) s
  | .reset => runSlot (resetSequence s.params) s.startSlot
  | .rdbit => readBit s.startSlot
  | .wrbit1 => runSlot (writeSlot1 s.params) s.startSlot
  | .wrbit0 => runSlot (writeSlot0 s.params) s.startSlot
  | .wrbit b => writeBit b s.startSlot
  | .rdbyte => readByte s
  | .wrbyte v => writeByte v s
  | .rdbytes len => readBytes len.toNat s.startSequence
  | .wrbytes len => writeBytes len.toNat s.startSequence
  | .crc8 _ => .done s
  | .chkcrc _ => .done s
  | .ldbuf _ => .done s
  | .stbuf _ _ => .done s
  | .getspd => .done s
  | .setspd _ => .done s

/-- The end of command `i` once its micro-operations have succeeded. -/
def commandClose (i : Instr) (t : State) : State :=
  match i with
  | .init => t.construct
  | .sethi => t.reply 0
  | .setlo => t.reply 0
  | .ishi => t.reply (boolByte t.samp)
  | .islo => t.reply (boolByte !t.samp)
  | .wait _ => t.reply 0
  | .reset => t.reply (boolByte !t.samp)
  | .rdbit => t.reply (boolByte t.samp)
  | .wrbit1 => t.reply 0
  | .wrbit0 => t.reply 0
  | .wrbit _ => t.reply 0
  | .rdbyte => t.reply t.sr
  | .wrbyte _ => t.reply 0
  | .rdbytes _ => t.reply 0
  | .wrbytes _ => t.reply 0
  | .crc8 len => crc8Body len t
  | .chkcrc len => chkcrcBody len t
  | .ldbuf idx => ldbufBody idx t
  | .stbuf idx v => stbufBody idx v t
  | .getspd => getspdBody t
  | .setspd b => setspdBody b t

/-- Every command is its checks, its micro-operations and its end (R93, R94, R214). -/
theorem exec_eq (i : Instr) (s : State) :
    exec i s = .next (checked i s fun s => (commandRun i s).finish (commandClose i)) := by
  cases i <;> rfl

theorem commandRun_good (i : Instr) (s : State) : (commandRun i s).Good s := by
  cases i <;> first
    | exact perform_good _ s
    | exact (runSlot_good _ s.startSlot).of_silent rfl
    | exact readByte_good s
    | exact writeByte_good _ s
    | exact (readBytes_good _ s.startSequence).of_silent rfl
    | exact (writeBytes_good _ s.startSequence).of_silent rfl
    | exact Run.Good.done_silent rfl

/-- What a command can come to: a refusal that changes the response alone; its end after a trace without an error; or a
trace that ends with a failed access, and the pin failure (R210, R212, R214). -/
theorem exec_cases (i : Instr) (s : State) :
    (∃ st, refusal i s = some st ∧ (st = .badOperand ∨ st = .badState) ∧ exec i s = .next (s.refuse st)) ∨
    (∃ t es, refusal i s = none ∧ exec i s = .next (commandClose i t) ∧ commandRun i s = .done t ∧ Extends s t es ∧
      ∀ x ∈ es, failCode x = none) ∨
    (∃ e t es ev, refusal i s = none ∧ exec i s = .next (t.pinFailure e) ∧ commandRun i s = .failed e t ∧
      Extends s t (es ++ [ev]) ∧ failCode ev = some e ∧ ∀ x ∈ es, failCode x = none) := by
  rw [exec_eq]
  obtain ⟨hr, h⟩ | ⟨st, hr, hs, h⟩ := checked_cases i s fun s => (commandRun i s).finish (commandClose i)
  · rw [h]
    obtain ⟨t, es, h1, h2, h3, h4⟩ | ⟨e, t, es, ev, h1, h2, h3, h4, h5⟩ :=
      (commandRun_good i s).finish_cases (commandClose i)
    · exact .inr (.inl ⟨t, es, hr, by rw [h1], h2, h3, h4⟩)
    · exact .inr (.inr ⟨e, t, es, ev, hr, by rw [h1], h2, h3, h4, h5⟩)
  · rw [h]
    exact .inl ⟨st, hr, hs, rfl⟩

/-- The fold of the checksum changes `CRC` and `IDX` alone, at any length. -/
theorem crcFold_frame (n : Nat) (s : State) :
    crcFold n s = { s with idx := (crcFold n s).idx, crc := (crcFold n s).crc } := by
  induction n generalizing s with
  | zero => rfl
  | succ n ih =>
    rw [crcFold]
    generalize h : ({ s with crc := crcByte s.crc (s.memRead s.idx.toNat), idx := s.idx + 1 } : State) = u
    rw [ih u, ← h]

theorem crcOfBuffer_frame (len : BitVec 16) (s : State) :
    crcOfBuffer len s = { s with idx := (crcOfBuffer len s).idx, crc := (crcOfBuffer len s).crc } := by
  rw [crcOfBuffer, crcFold_frame]

/-- What the end of a command changes: the response; `CONSTRUCTED` and `SPEED` for INIT, `SPEED` for SETSPD, `CRC` and
`IDX` for the checksum commands, `BUF` for STBUF (R20). -/
theorem commandClose_frame (i : Instr) (t : State) :
    commandClose i t = { t with
      rsp := (commandClose i t).rsp
      constructed := if i = .init then true else t.constructed
      speed := match i with | .init => .standard | .setspd b => Speed.ofBit b | _ => t.speed
      idx := (commandClose i t).idx
      crc := match i with | .crc8 _ => (commandClose i t).crc | .chkcrc _ => (commandClose i t).crc | _ => t.crc
      buf := match i with | .stbuf idx v => t.buf.write idx.toNat v | _ => t.buf } := by
  cases i <;> first
    | rfl
    | (rw [commandClose, crc8Body, crcOfBuffer_frame]; rfl)
    | (rw [commandClose, chkcrcBody, crcOfBuffer_frame]; rfl)

/-- The response of a command that ends without a pin error: `OK`, or `CRC_NONZERO` for CHKCRC alone; a value only for the
commands that return one (R75, R76, R211). -/
theorem commandClose_rsp (i : Instr) (t : State) :
    (∃ d, (commandClose i t).rsp = some (responseWord .ok 0 d) ∧ (returnsValue i = false → d = 0)) ∨
    ((commandClose i t).rsp = some (responseWord .crcNonzero 0 0) ∧ ∃ len, i = .chkcrc len) := by
  cases i with
  | chkcrc len =>
    by_cases h : (crcOfBuffer len t).crc = 0
    · exact .inl ⟨0, by simp [commandClose, chkcrcBody, State.crcVerdict, State.respond, h], fun _ => rfl⟩
    · exact .inr ⟨by simp only [commandClose, chkcrcBody, State.crcVerdict, State.respond, h, if_false], len, rfl⟩
  | _ => exact .inl ⟨_, rfl, fun h => by first | rfl | cases h⟩

/-- No micro-operation, no change (R17: an internal command is one step). -/
theorem commandRun_internal (i : Instr) (s : State) (h : touchesPin i = false) (hw : ∀ us, i ≠ .wait us) :
    commandRun i s = .done s := by
  cases i <;> first | rfl | exact absurd rfl (hw _) | cases h

/-- Only RDBYTES changes `BUF` in its micro-operations (R20). -/
theorem commandRun_buf (i : Instr) (s : State) (h : ∀ len, i ≠ .rdbytes len) :
    (commandRun i s).Ends fun t => t.buf = s.buf := by
  have hp : ∀ op : MicroOp, (perform op s).Ends fun t => t.buf = s.buf := by
    intro op
    unfold perform
    split
    · exact complete_buf op _ { s with oracle := s.oracle.next.2 }
    · exact complete_buf op _ s
  cases i <;> first
    | exact hp _
    | exact runSlot_buf _ s.buf s.startSlot rfl
    | exact readBits_buf 8 s.buf (s.startByte 0) rfl
    | exact writeBits_buf 8 s.buf (s.startByte _) rfl
    | exact writeBytes_buf _ s.buf s.startSequence rfl
    | exact absurd rfl (h _)
    | exact rfl

/-! ### The checks and the answers, in the words of the claims -/

theorem newEvents_eq {s t : State} {es : List Event} (h : t.history = es.reverse ++ s.history) :
    newEvents s t = es := by
  simp [newEvents, h]

/-- The status of an answer that is known. -/
theorem answered_iff {t : State} {st st' : Status} {e d : Byte} (h : t.rsp = some (responseWord st' e d)) :
    t.Answered st ↔ st' = st := by
  simp only [State.Answered, h, Option.some.injEq, exists_eq_left', rspStatus_responseWord]
  cases st <;> cases st' <;> simp [Status.code]

theorem stateAllows_eq_false (i : Instr) (s : State) : stateAllows s.constructed i = false ↔ StateRefuses s i := by
  cases i <;> simp [stateAllows, StateRefuses]

theorem refusal_eq_none {i : Instr} {s : State} :
    refusal i s = none ↔ i.wellFormed s.params.bufDepth = true ∧ ¬ StateRefuses s i := by
  rw [← stateAllows_eq_false, refusal, operandInRange_eq_wellFormed]
  split <;> [split; skip] <;> simp_all

theorem refusal_eq_badOperand {i : Instr} {s : State} :
    refusal i s = some .badOperand ↔ i.wellFormed s.params.bufDepth = false := by
  rw [refusal, operandInRange_eq_wellFormed]
  split <;> [split; skip] <;> simp_all

theorem refusal_eq_badState {i : Instr} {s : State} :
    refusal i s = some .badState ↔ i.wellFormed s.params.bufDepth = true ∧ StateRefuses s i := by
  rw [← stateAllows_eq_false, refusal, operandInRange_eq_wellFormed]
  split <;> [split; skip] <;> simp_all

end Sys2Proof.Machine
end

