-- ==== Sys2Proof/Laws/Loopback.lean ====
section
/-! SUPPORT. The bit slots a loopback pin sees in the traces of slots and of RESET (spec/43_byte_ops.md R158). -/

namespace Sys2Proof.Machine

/-- No sample comes first. -/
def noSampleFirst : List Event → Bool
  | .sampled _ :: _ => false
  | .sampleFailed _ :: _ => false
  | _ => true

theorem slotOf_noSample {p : Params} {a b : Us} {es : List Event} (h : noSampleFirst es = true) :
    slotOf p a b es = writtenSlot p a b := by
  unfold slotOf
  split <;> simp_all [noSampleFirst]

@[simp] theorem noSampleFirst_writeTrace (p : Params) (b : Bool) (es : List Event) :
    noSampleFirst (writeTrace p b ++ es) = true := by cases b <;> rfl

@[simp] theorem noSampleFirst_readTrace (p : Params) (l : Bool) (es : List Event) :
    noSampleFirst (readTrace p l ++ es) = true := rfl

/-- A write slot, whatever follows it but a sample. -/
theorem wireSlots_writeTrace {p : Params} (hp : p.Admissible) (b : Bool) {es : List Event}
    (h : noSampleFirst es = true) : wireSlots p (writeTrace p b ++ es) = .wrote b :: wireSlots p es := by
  have hne : p.std.C ≠ p.std.A := fun he => by
    have := hp.2.1
    rw [he] at this
    omega
  cases b <;> simp [writeTrace, wireSlots, slotOf_noSample h, writtenSlot, T, tableEntry, hne]

/-- A read slot. -/
theorem wireSlots_readTrace (p : Params) (l : Bool) (es : List Event) :
    wireSlots p (readTrace p l ++ es) = .read l :: wireSlots p es := by
  simp [readTrace, wireSlots, slotOf, T, tableEntry]

/-- The write slots of a list of bits. -/
theorem wireSlots_writes {p : Params} (hp : p.Admissible) (bs : List Bool) {es : List Event}
    (h : noSampleFirst es = true) :
    wireSlots p (bs.flatMap (writeTrace p) ++ es) = bs.map .wrote ++ wireSlots p es := by
  induction bs with
  | nil => rfl
  | cons b bs ih =>
    have hn : noSampleFirst (bs.flatMap (writeTrace p) ++ es) = true := by
      cases bs with
      | nil => exact h
      | cons c cs => simp [List.flatMap_cons, List.append_assoc]
    rw [List.flatMap_cons, List.append_assoc, wireSlots_writeTrace hp b hn, ih]
    rfl

/-- The read slots of a list of levels. -/
theorem wireSlots_reads (p : Params) (ls : List Bool) (es : List Event) :
    wireSlots p (ls.flatMap (readTrace p) ++ es) = ls.map .read ++ wireSlots p es := by
  induction ls with
  | nil => rfl
  | cons l ls ih => rw [List.flatMap_cons, List.append_assoc, wireSlots_readTrace, ih]; rfl

/-- Recording appends to what is pending. -/
theorem replays_writes (bs pending : List Bool) (xs : List WireSlot) :
    Replays pending (bs.map .wrote ++ xs) ↔ Replays (pending ++ bs) xs := by
  induction bs generalizing pending with
  | nil => simp
  | cons b bs ih => simp [Replays, ih]

/-- As many read slots as there are pending bits sample those bits. -/
theorem replays_reads {ls pending : List Bool} {xs : List WireSlot} (h : ls.length = pending.length)
    (hr : Replays pending (ls.map .read ++ xs)) : ls = pending := by
  induction ls generalizing pending with
  | nil => cases pending <;> simp_all
  | cons l ls ih =>
    cases pending with
    | nil => simp at h
    | cons b bs =>
      simp only [List.map_cons, List.cons_append, Replays, List.head?_cons, List.tail_cons] at hr
      rw [hr.1 b rfl, ih (by simpa using h) hr.2]

/-- The pulse of a RESET records no bit; where the tables make it look like a read slot it is one. -/
theorem loopbackBits_reset (p : Params) (l : Bool) (es : List Event) :
    loopbackBits p (.waited p.std.G :: .low :: .waited p.std.H :: .high :: .waited p.std.I :: .sampled l ::
      .waited p.std.J :: es) = loopbackBits p es := by
  simp only [loopbackBits, wireSlots, slotOf, T, tableEntry]
  split <;> simp [List.filterMap_cons, WireSlot.recorded]

end Sys2Proof.Machine
end

