-- ==== Sys2Proof/Laws/PerInstr.lean ====
section
/-! SUPPORT. One lemma per command: its word matches the row of the opcode map that bears its mnemonic (spec/30_encoding.md
R80, R82). -/

namespace Sys2Proof.Laws.RowOfCommand

/-- The word of `i` is in the match set of the row named after `i`. -/
def Statement (i : Instr) : Prop :=
  ∃ r ∈ opcodeRows, r.mnemonic = i.mnemonic ∧ encode i &&& r.mask = r.pattern

/-- A row by its place in the map. -/
theorem of_row (k : Nat) {i : Instr} (r : OpcodeRow) (hr : opcodeRows[k]? = some r) (hm : r.mnemonic = i.mnemonic)
    (hw : encode i &&& r.mask = r.pattern) : Statement i :=
  ⟨r, List.mem_of_getElem? hr, hm, hw⟩

/-- Masking a packed word masks its fields. -/
theorem pack_and_pack (op op' : BitVec 8) (a a' : BitVec 16) (d d' : Byte) :
    pack op a d &&& pack op' a' d' = pack (op &&& op') (a &&& a') (d &&& d') := by
  have h : (op ++ a) &&& (op' ++ a') = (op &&& op') ++ (a &&& a') := BitVec.and_append
  rw [show pack (op &&& op') (a &&& a') (d &&& d') = (op &&& op') ++ (a &&& a') ++ (d &&& d') from rfl, ← h]
  exact BitVec.and_append

/-- A packed word under the mask of a format whose only operand is `a`. -/
theorem pack_and_a (op : BitVec 8) (a : BitVec 16) : pack op a 0 &&& 0xFF0000FF = pack op 0 0 := by
  rw [show (0xFF0000FF : Word) = pack (BitVec.allOnes 8) 0 0xFF from rfl, pack_and_pack, BitVec.and_allOnes]
  simp

/-- A packed word under the mask of a format whose only operand is `d`. -/
theorem pack_and_d (op : BitVec 8) (d : Byte) : pack op 0 d &&& 0xFFFFFF00 = pack op 0 0 := by
  rw [show (0xFFFFFF00 : Word) = pack (BitVec.allOnes 8) 0xFFFF 0 from rfl, pack_and_pack, BitVec.and_allOnes]
  simp

/-- A packed word under the mask of the format with both operands. -/
theorem pack_and_ad (op : BitVec 8) (a : BitVec 16) (d : Byte) : pack op a d &&& 0xFF000000 = pack op 0 0 := by
  rw [show (0xFF000000 : Word) = pack (BitVec.allOnes 8) 0 0 from rfl, pack_and_pack, BitVec.and_allOnes]
  simp

theorem init : Statement .init := of_row 0 _ rfl rfl rfl
theorem sethi : Statement .sethi := of_row 1 _ rfl rfl rfl
theorem setlo : Statement .setlo := of_row 2 _ rfl rfl rfl
theorem ishi : Statement .ishi := of_row 3 _ rfl rfl rfl
theorem islo : Statement .islo := of_row 4 _ rfl rfl rfl
theorem wait (us : Us) : Statement (.wait us) := of_row 5 _ rfl rfl (pack_and_a _ _)
theorem reset : Statement .reset := of_row 6 _ rfl rfl rfl
theorem rdbit : Statement .rdbit := of_row 7 _ rfl rfl rfl
theorem wrbit1 : Statement .wrbit1 := of_row 8 _ rfl rfl rfl
theorem wrbit0 : Statement .wrbit0 := of_row 9 _ rfl rfl rfl
theorem wrbit (b : Bool) : Statement (.wrbit b) := of_row 10 _ rfl rfl (by cases b <;> rfl)
theorem rdbyte : Statement .rdbyte := of_row 11 _ rfl rfl rfl
theorem wrbyte (v : Byte) : Statement (.wrbyte v) := of_row 12 _ rfl rfl (pack_and_d _ _)
theorem rdbytes (len : BitVec 16) : Statement (.rdbytes len) := of_row 13 _ rfl rfl (pack_and_a _ _)
theorem wrbytes (len : BitVec 16) : Statement (.wrbytes len) := of_row 14 _ rfl rfl (pack_and_a _ _)
theorem crc8 (len : BitVec 16) : Statement (.crc8 len) := of_row 15 _ rfl rfl (pack_and_a _ _)
theorem chkcrc (len : BitVec 16) : Statement (.chkcrc len) := of_row 16 _ rfl rfl (pack_and_a _ _)
theorem ldbuf (idx : BitVec 16) : Statement (.ldbuf idx) := of_row 17 _ rfl rfl (pack_and_a _ _)
theorem stbuf (idx : BitVec 16) (v : Byte) : Statement (.stbuf idx v) := of_row 18 _ rfl rfl (pack_and_ad _ _ _)
theorem getspd : Statement .getspd := of_row 19 _ rfl rfl rfl
theorem setspd (b : Bool) : Statement (.setspd b) := of_row 20 _ rfl rfl (by cases b <;> rfl)

end Sys2Proof.Laws.RowOfCommand
end

