-- ==== Sys2Proof/Laws/Sequencer.lean ====
section
/-! SUPPORT. Edges in an environment that answers at once, against the procedures: one edge for each micro-operation of a
slot, a byte and a sequence (spec/10_state.md R24, spec/00_scope.md R17). -/

namespace Sys2Proof.Machine

theorem promptEdges_add (m n : Nat) (s : State) : promptEdges (m + n) s = promptEdges n (promptEdges m s) := by
  induction m generalizing s with
  | zero => rw [Nat.zero_add]; rfl
  | succ m ih => rw [Nat.succ_add]; exact ih s.promptEdge

/-- The state a procedure comes to. -/
def Run.state : Run → State
  | .done t => t
  | .failed _ t => t

/-- What the sequencer does when a procedure is over: `next` where it succeeded, the pin failure otherwise. -/
def Run.closeBy (next : State → State) : Run → State
  | .done t => next t
  | .failed e t => t.pinFailure e

/-- A micro-operation adds one event and touches the oracle, `PADOUT` and `SAMP` beside it. -/
theorem perform_frame (op : MicroOp) (s : State) :
    (perform op s).state = { s with
      oracle := (perform op s).state.oracle, history := (perform op s).state.history,
      padout := (perform op s).state.padout, samp := (perform op s).state.samp } ∧
    (perform op s).state.history.length = 1 + s.history.length := by
  unfold perform
  rw [Nat.add_comm]
  split
  · cases op <;> cases s.oracle.next.1 <;> exact ⟨rfl, rfl⟩
  · cases op <;> exact ⟨rfl, rfl⟩

/-- The hand-over of a pending response at once (R94). -/
theorem promptEdge_handOver {s : State} {r : Word} (hb : s.busy = true) (hr : s.rsp = some r) :
    s.promptEdge = s.handOver := by
  simp [State.promptEdge, State.usedInputs, State.currentOp, State.running, State.clockEdge, State.promptInputs,
    State.runEdge, hb, hr]

/-- The acceptance of an offered word at once (R93). -/
theorem promptEdge_accept {s : State} {w : Word} {rest : List Word} (hb : s.busy = false) (ho : s.offers = w :: rest) :
    s.promptEdge = ({ s with offers := rest } : State).acceptEdge w := by
  simp [State.promptEdge, State.usedInputs, State.clockEdge, State.promptInputs, State.runEdge, hb, ho]

/-- An edge with an outstanding request (R231, R236). -/
theorem runEdge_op {u : State} {op : MicroOp} (i : PortIn) (hb : u.busy = true) (hn : u.rsp = none)
    (hc : u.currentOp = some op) :
    u.runEdge i = if op.isPin = true then (if i.pinAck = true then u.answerOp op i.answer else u)
      else (if i.dlyDone = true then u.answerOp op (.ok false) else u) := by
  simp [State.runEdge, hb, hn, hc]

/-- The answer to an outstanding request at once: the micro-operation is performed, and the sequencer advances or the
command ends (R13, R24). -/
theorem promptEdge_op {s : State} {i : Instr} {op : MicroOp} (hr : s.running = true) (hd : decode s.cmd = .ok i)
    (ho : s.currentOp = some op) : s.promptEdge = (perform op s).closeBy (advance i) := by
  have hb : s.busy = true := by simp [State.running] at hr; exact hr.1
  have hn : s.rsp = none := by simpa [State.running, hb] using hr
  have key : ∀ (u : State) (a : PinAnswer), u.cmd = s.cmd →
      u.answerOp op a = (complete op a u).closeBy (advance i) := by
    intro u a hc
    rw [State.answerOp, hc, hd]
    dsimp only
    cases complete op a u <;> rfl
  have ha : s.promptInputs.answer = s.oracle.next.1 := by
    cases h : s.oracle.next.1 <;> simp [State.promptInputs, PortIn.answer, h]
  cases hp : op.isPin with
  | true =>
    have hu : s.usedInputs = { s with oracle := s.oracle.next.2 } := by
      simp [State.usedInputs, hb, ho, hp]
    have hc : ({ s with oracle := s.oracle.next.2 } : State).currentOp = some op := by
      rw [← ho]
      unfold State.currentOp
      rw [hd]
      rfl
    have he : s.promptEdge = ({ s with oracle := s.oracle.next.2 } : State).answerOp op s.promptInputs.answer := by
      rw [State.promptEdge, hu]
      exact (runEdge_op (u := { s with oracle := s.oracle.next.2 }) _ hb hn hc).trans (by rw [hp]; rfl)
    rw [he, key { s with oracle := s.oracle.next.2 } _ rfl, ha, perform, if_pos hp]
  | false =>
    have hu : s.usedInputs = s := by simp [State.usedInputs, hb, ho, hp]
    have he : s.promptEdge = s.answerOp op (.ok false) := by
      rw [State.promptEdge, hu]
      exact (runEdge_op _ hb hn ho).trans (by rw [hp]; rfl)
    rw [he, key s _ rfl, perform, hp]
    rfl

/-- The micro-operations of a slot depend on the parameters, `SR` and `BITC` alone. -/
theorem slotOps_congr (i : Instr) {s t : State} (hp : t.params = s.params) (hs : t.sr = s.sr) (hb : t.bitc = s.bitc) :
    slotOps i t = slotOps i s := by
  cases i <;> simp [slotOps, hp, hs, hb]

theorem length_slotOps (i : Instr) (s : State) : (slotOps i s).length ≤ 7 := by
  cases i <;> simp [slotOps, resetSequence, readSlot, writeSlot, writeSlot1, writeSlot0] <;> split <;> simp

/-- The rest of a slot or of the reset sequence, one edge for each micro-operation. -/
theorem promptEdges_slot {i : Instr} (hraw : isRaw i = false) (rest : List MicroOp) (hne : rest ≠ []) (s : State)
    (hr : s.running = true) (hd : decode s.cmd = .ok i) (hp : (slotOps i s).drop s.phase.toNat = rest) :
    ∃ n, (runSlot rest s).state.history.length = n + s.history.length ∧
      promptEdges n s = (runSlot rest s).closeBy (endOfSlot i) := by
  induction rest generalizing s with
  | nil => exact absurd rfl hne
  | cons op ops ih =>
    have h7 := length_slotOps i s
    have hlen : s.phase.toNat + ops.length + 1 = (slotOps i s).length := by
      have := congrArg List.length hp
      simp at this
      omega
    have hget : (slotOps i s)[s.phase.toNat]? = some op := by
      have := congrArg List.head? hp
      simpa [List.head?_drop] using this
    have ho : s.currentOp = some op := by
      rw [State.currentOp, if_pos hr, hd]
      simp [slotIndex, hraw, hget]
    obtain ⟨hf, hh⟩ := perform_frame op s
    have he := promptEdge_op hr hd ho
    rw [runSlot]
    cases hq : perform op s with
    | failed e t =>
      rw [hq] at he hh
      exact ⟨1, hh, he⟩
    | done t =>
      rw [hq] at he hf hh
      simp only [Run.state] at hf hh
      simp only [Run.andThen_done]
      have h1 : (t.nextPhase.phase).toNat = s.phase.toNat + 1 := by
        rw [hf]
        simp only [State.nextPhase]
        rw [BitVec.toNat_add]
        simp
        omega
      have hops : slotOps i t.nextPhase = slotOps i s := slotOps_congr i (by rw [hf]; rfl) (by rw [hf]; rfl) (by rw [hf]; rfl)
      have hops' : slotOps i t = slotOps i s := slotOps_congr i (by rw [hf]) (by rw [hf]) (by rw [hf])
      have hadv : s.promptEdge = if ops = [] then endOfSlot i t.nextPhase else t.nextPhase := by
        rw [he]
        have hpass : t.passOp i = t.nextPhase := by simp [State.passOp, hraw]
        rw [Run.closeBy, advance, hpass, hops', h1, hraw]
        cases ops with
        | nil => rw [if_pos (.inr (by simp at hlen; omega))]; rfl
        | cons o os => rw [if_neg (by simp at hlen ⊢; omega)]; rfl
      cases hz : ops with
      | nil =>
        rw [hz] at hadv
        exact ⟨1, hh, hadv⟩
      | cons o os =>
        have hnil : ops ≠ [] := by simp [hz]
        rw [if_neg hnil] at hadv
        obtain ⟨n, hn1, hn2⟩ := ih hnil t.nextPhase (by rw [← hr, hf]; rfl) (by rw [← hd, hf]; rfl) (by
          rw [hops, h1, ← List.drop_drop, hp]; rfl)
        refine ⟨n + 1, ?_, ?_⟩
        · rw [← hz, hn1]
          simp only [State.nextPhase, hh]
          omega
        · rw [← hz, ← hn2, promptEdges, hadv]

/-! ### Bytes -/

/-- What a slot leaves as it was, in a running command. -/
theorem runSlot_keeps (ops : List MicroOp) (s : State) : (runSlot ops s).Ends fun t =>
    t.bitc = s.bitc ∧ t.sr = s.sr ∧ t.idx = s.idx ∧ t.params = s.params ∧ t.running = s.running ∧ t.cmd = s.cmd := by
  have key : ∀ (ops : List MicroOp) (s u : State), (u.bitc = s.bitc ∧ u.sr = s.sr ∧ u.idx = s.idx ∧
      u.params = s.params ∧ u.running = s.running ∧ u.cmd = s.cmd) → (runSlot ops u).Ends fun t =>
      t.bitc = s.bitc ∧ t.sr = s.sr ∧ t.idx = s.idx ∧ t.params = s.params ∧ t.running = s.running ∧
        t.cmd = s.cmd := by
    intro ops s
    induction ops with
    | nil => exact fun u h => h
    | cons op ops ih =>
      intro u h
      obtain ⟨hf, -⟩ := perform_frame op u
      rw [runSlot]
      cases hq : perform op u with
      | failed e t => rw [hq] at hf; simp only [Run.state] at hf; rw [hf]; exact h
      | done t =>
        rw [hq] at hf
        simp only [Run.state] at hf
        rw [Run.andThen_done]
        exact ih t.nextPhase (by rw [hf]; exact h)
  exact key ops s s ⟨rfl, rfl, rfl, rfl, rfl, rfl⟩

/-- `BITC` after a slot, in a byte. -/
theorem toNat_bitc_succ {t : State} (h : t.bitc.toNat < 8) : t.endSlot.bitc.toNat = t.bitc.toNat + 1 := by
  simp only [State.endSlot]
  rw [BitVec.toNat_add]
  simp
  omega

theorem endSlot_bitc_eq_8 {t : State} (h : t.bitc.toNat < 8) : t.endSlot.bitc = 8 ↔ t.bitc.toNat = 7 := by
  rw [← BitVec.toNat_inj, toNat_bitc_succ h]
  simp

/-- The read slots of a byte that are left, one edge for each micro-operation; `last` follows the eighth. -/
theorem promptEdges_readBits {i : Instr} {last : State → State} (hraw : isRaw i = false)
    (hend : ∀ t, endOfSlot i t = afterReadSlot t last) (hops : ∀ t, slotOps i t = readSlot t.params)
    (n : Nat) (s : State) (hr : s.running = true) (hd : decode s.cmd = .ok i) (hp : s.phase = 0)
    (hb : s.bitc.toNat + (n + 1) = 8) :
    ∃ k, (readBits (n + 1) s).state.history.length = k + s.history.length ∧
      promptEdges k s = (readBits (n + 1) s).closeBy last := by
  induction n generalizing s with
  | zero =>
    obtain ⟨k, hk, he⟩ := promptEdges_slot hraw (readSlot s.params) (by simp [readSlot]) s hr hd (by rw [hops, hp]; rfl)
    have hkeep := runSlot_keeps (readSlot s.params) s
    rw [readBits, readBit]
    cases hq : runSlot (readSlot s.params) s with
    | failed e t => rw [hq] at hk he; exact ⟨k, hk, he⟩
    | done t =>
      rw [hq] at hk he hkeep
      refine ⟨k, hk, ?_⟩
      rw [he, Run.closeBy, hend, afterReadSlot, if_pos]
      · rfl
      · exact (endSlot_bitc_eq_8 (t := t.shiftIn) (by show t.bitc.toNat < 8; rw [hkeep.1]; omega)).2
          (by show t.bitc.toNat = 7; rw [hkeep.1]; omega)
  | succ n ih =>
    obtain ⟨k, hk, he⟩ := promptEdges_slot hraw (readSlot s.params) (by simp [readSlot]) s hr hd (by rw [hops, hp]; rfl)
    have hkeep := runSlot_keeps (readSlot s.params) s
    rw [readBits, readBit]
    cases hq : runSlot (readSlot s.params) s with
    | failed e t => rw [hq] at hk he; exact ⟨k, hk, he⟩
    | done t =>
      rw [hq] at hk he hkeep
      have h8 : t.shiftIn.bitc.toNat < 8 := by show t.bitc.toNat < 8; rw [hkeep.1]; omega
      rw [Run.closeBy, hend, afterReadSlot, if_neg (fun h => by
        have := (endSlot_bitc_eq_8 h8).1 h
        rw [show t.shiftIn.bitc = s.bitc from hkeep.1] at this
        omega)] at he
      obtain ⟨m, hm, hg⟩ := ih t.shiftIn.endSlot (hkeep.2.2.2.2.1.trans hr) (by
        rw [show t.shiftIn.endSlot.cmd = s.cmd from hkeep.2.2.2.2.2, hd]) rfl (by
        rw [toNat_bitc_succ h8, show t.shiftIn.bitc = s.bitc from hkeep.1]
        omega)
      refine ⟨k + m, ?_, ?_⟩
      · rw [Run.andThen_done, hm, show t.shiftIn.endSlot.history = t.history from rfl]
        simp only [Run.state] at hk
        omega
      · rw [promptEdges_add, he, hg]
        rfl

/-- The write slots of a byte that are left, one edge for each micro-operation; `last` follows the eighth. -/
theorem promptEdges_writeBits {i : Instr} {last : State → State} (hraw : isRaw i = false)
    (hend : ∀ t, endOfSlot i t = afterWriteSlot t last)
    (hops : ∀ t, slotOps i t = writeSlot t.params (selectBit t.sr t.bitc))
    (n : Nat) (s : State) (hr : s.running = true) (hd : decode s.cmd = .ok i) (hp : s.phase = 0)
    (hb : s.bitc.toNat + (n + 1) = 8) :
    ∃ k, (writeBits (n + 1) s).state.history.length = k + s.history.length ∧
      promptEdges k s = (writeBits (n + 1) s).closeBy last := by
  have hne : ∀ (p : Params) (b : Bool), writeSlot p b ≠ [] := by
    intro p b
    cases b <;> simp [writeSlot, writeSlot1, writeSlot0]
  induction n generalizing s with
  | zero =>
    obtain ⟨k, hk, he⟩ := promptEdges_slot hraw _ (hne s.params (selectBit s.sr s.bitc)) s hr hd (by rw [hops, hp]; rfl)
    have hkeep := runSlot_keeps (writeSlot s.params (selectBit s.sr s.bitc)) s
    rw [writeBits, writeBit]
    cases hq : runSlot (writeSlot s.params (selectBit s.sr s.bitc)) s with
    | failed e t => rw [hq] at hk he; exact ⟨k, hk, he⟩
    | done t =>
      rw [hq] at hk he hkeep
      refine ⟨k, hk, ?_⟩
      rw [he, Run.closeBy, hend, afterWriteSlot, if_pos]
      · rfl
      · exact (endSlot_bitc_eq_8 (by rw [hkeep.1]; omega)).2 (by rw [hkeep.1]; omega)
  | succ n ih =>
    obtain ⟨k, hk, he⟩ := promptEdges_slot hraw _ (hne s.params (selectBit s.sr s.bitc)) s hr hd (by rw [hops, hp]; rfl)
    have hkeep := runSlot_keeps (writeSlot s.params (selectBit s.sr s.bitc)) s
    rw [writeBits, writeBit]
    cases hq : runSlot (writeSlot s.params (selectBit s.sr s.bitc)) s with
    | failed e t => rw [hq] at hk he; exact ⟨k, hk, he⟩
    | done t =>
      rw [hq] at hk he hkeep
      have h8 : t.bitc.toNat < 8 := by rw [hkeep.1]; omega
      rw [Run.closeBy, hend, afterWriteSlot, if_neg (fun h => by
        have := (endSlot_bitc_eq_8 h8).1 h
        rw [hkeep.1] at this
        omega)] at he
      obtain ⟨m, hm, hg⟩ := ih t.endSlot (hkeep.2.2.2.2.1.trans hr) (by
        rw [show t.endSlot.cmd = s.cmd from hkeep.2.2.2.2.2, hd]) rfl (by rw [toNat_bitc_succ h8, hkeep.1]; omega)
      refine ⟨k + m, ?_, ?_⟩
      · rw [Run.andThen_done, hm, show t.endSlot.history = t.history from rfl]
        simp only [Run.state] at hk
        omega
      · rw [promptEdges_add, he, hg]
        rfl

/-! ### Byte sequences -/

/-- What the slots of a byte leave as it was, in a running command. -/
theorem readBits_keeps (n : Nat) (x : BitVec 9) (b : Bool) (c : Word) (s : State)
    (h : s.idx = x ∧ s.running = b ∧ s.cmd = c) :
    (readBits n s).Ends fun t => t.idx = x ∧ t.running = b ∧ t.cmd = c := by
  induction n generalizing s with
  | zero => exact h
  | succ n ih =>
    refine Run.Ends.andThen (P := fun t => t.idx = x ∧ t.running = b ∧ t.cmd = c) ?_ fun t ht => ih t.shiftIn.endSlot ht
    have hk := runSlot_keeps (readSlot s.params) s
    rw [readBit]
    cases hq : runSlot (readSlot s.params) s <;> rw [hq] at hk <;>
      exact ⟨hk.2.2.1.trans h.1, hk.2.2.2.2.1.trans h.2.1, hk.2.2.2.2.2.trans h.2.2⟩

theorem writeBits_keeps (n : Nat) (x : BitVec 9) (b : Bool) (c : Word) (s : State)
    (h : s.idx = x ∧ s.running = b ∧ s.cmd = c) :
    (writeBits n s).Ends fun t => t.idx = x ∧ t.running = b ∧ t.cmd = c := by
  induction n generalizing s with
  | zero => exact h
  | succ n ih =>
    refine Run.Ends.andThen (P := fun t => t.idx = x ∧ t.running = b ∧ t.cmd = c) ?_ fun t ht => ih t.endSlot ht
    have hk := runSlot_keeps (writeSlot s.params (selectBit s.sr s.bitc)) s
    rw [writeBit]
    cases hq : runSlot (writeSlot s.params (selectBit s.sr s.bitc)) s <;> rw [hq] at hk <;>
      exact ⟨hk.2.2.1.trans h.1, hk.2.2.2.2.1.trans h.2.1, hk.2.2.2.2.2.trans h.2.2⟩

/-- `IDX` after a byte, in a sequence of at most 256. -/
theorem toNat_endByte_idx {t : State} (h : t.idx.toNat < 256) : t.endByte.idx.toNat = t.idx.toNat + 1 := by
  simp only [State.endByte]
  rw [BitVec.toNat_add]
  simp
  omega

/-- The bytes of RDBYTES that are left, one edge for each micro-operation (R154). -/
theorem promptEdges_readBytes {len : BitVec 16} (hl : len.toNat ≤ 256) (n : Nat) (s : State) (hr : s.running = true)
    (hd : decode s.cmd = .ok (.rdbytes len)) (hs : s.startByte 0 = s) (hi : s.idx.toNat + (n + 1) = len.toNat) :
    ∃ k, (readBytes (n + 1) s).state.history.length = k + s.history.length ∧
      promptEdges k s = (readBytes (n + 1) s).closeBy fun t => t.reply 0 := by
  induction n generalizing s with
  | zero =>
    obtain ⟨k, hk, he⟩ := promptEdges_readBits (last := afterReadByte len) rfl (fun _ => rfl) (fun _ => rfl) 7 s hr hd
      (by rw [← hs]; rfl) (by rw [← hs]; rfl)
    have hkeep := readBits_keeps 8 _ _ _ s ⟨rfl, rfl, rfl⟩
    rw [readBytes, readByte, hs]
    cases hq : readBits 8 s with
    | failed e t => rw [hq] at hk he; exact ⟨k, hk, he⟩
    | done t =>
      rw [hq] at hk he hkeep
      refine ⟨k, hk, ?_⟩
      have h1 : t.storeByte.endByte.idx.toNat = s.idx.toNat + 1 := by
        rw [toNat_endByte_idx (by show t.idx.toNat < 256; rw [hkeep.1]; omega)]
        show t.idx.toNat + 1 = _
        rw [hkeep.1]
      rw [he, Run.closeBy, afterReadByte, if_pos (by omega)]
      rfl
  | succ n ih =>
    obtain ⟨k, hk, he⟩ := promptEdges_readBits (last := afterReadByte len) rfl (fun _ => rfl) (fun _ => rfl) 7 s hr hd
      (by rw [← hs]; rfl) (by rw [← hs]; rfl)
    have hkeep := readBits_keeps 8 _ _ _ s ⟨rfl, rfl, rfl⟩
    rw [readBytes, readByte, hs]
    cases hq : readBits 8 s with
    | failed e t => rw [hq] at hk he; exact ⟨k, hk, he⟩
    | done t =>
      rw [hq] at hk he hkeep
      have h1 : t.storeByte.endByte.idx.toNat = s.idx.toNat + 1 := by
        rw [toNat_endByte_idx (by show t.idx.toNat < 256; rw [hkeep.1]; omega)]
        show t.idx.toNat + 1 = _
        rw [hkeep.1]
      rw [Run.closeBy, afterReadByte, if_neg (by omega)] at he
      obtain ⟨m, hm, hg⟩ := ih (t.storeByte.endByte.startByte 0) (hkeep.2.1.trans hr) (by
        rw [show (t.storeByte.endByte.startByte 0).cmd = s.cmd from hkeep.2.2, hd]) rfl (by
        show t.storeByte.endByte.idx.toNat + (n + 1) = _
        omega)
      have hsame : readBytes (n + 1) (t.storeByte.endByte.startByte 0) = readBytes (n + 1) t.storeByte.endByte := rfl
      rw [hsame] at hm hg
      refine ⟨k + m, ?_, ?_⟩
      · rw [Run.andThen_done, hm, show (t.storeByte.endByte.startByte 0).history = t.history from rfl]
        simp only [Run.state] at hk
        omega
      · rw [promptEdges_add, he, hg]
        rfl

/-- The bytes of WRBYTES that are left, one edge for each micro-operation (R155). -/
theorem promptEdges_writeBytes {len : BitVec 16} (hl : len.toNat ≤ 256) (n : Nat) (s : State) (hr : s.running = true)
    (hd : decode s.cmd = .ok (.wrbytes len)) (hs : s.startByte (s.memRead s.idx.toNat) = s)
    (hi : s.idx.toNat + (n + 1) = len.toNat) :
    ∃ k, (writeBytes (n + 1) s).state.history.length = k + s.history.length ∧
      promptEdges k s = (writeBytes (n + 1) s).closeBy fun t => t.reply 0 := by
  induction n generalizing s with
  | zero =>
    obtain ⟨k, hk, he⟩ := promptEdges_writeBits (last := afterWriteByte len) rfl (fun _ => rfl) (fun _ => rfl) 7 s hr hd
      (by rw [← hs]; rfl) (by rw [← hs]; rfl)
    have hkeep := writeBits_keeps 8 _ _ _ s ⟨rfl, rfl, rfl⟩
    rw [writeBytes, writeByte, hs]
    cases hq : writeBits 8 s with
    | failed e t => rw [hq] at hk he; exact ⟨k, hk, he⟩
    | done t =>
      rw [hq] at hk he hkeep
      refine ⟨k, hk, ?_⟩
      have h1 : t.endByte.idx.toNat = s.idx.toNat + 1 := by
        rw [toNat_endByte_idx (by rw [hkeep.1]; omega), hkeep.1]
      rw [he, Run.closeBy, afterWriteByte, if_pos (by omega)]
      rfl
  | succ n ih =>
    obtain ⟨k, hk, he⟩ := promptEdges_writeBits (last := afterWriteByte len) rfl (fun _ => rfl) (fun _ => rfl) 7 s hr hd
      (by rw [← hs]; rfl) (by rw [← hs]; rfl)
    have hkeep := writeBits_keeps 8 _ _ _ s ⟨rfl, rfl, rfl⟩
    rw [writeBytes, writeByte, hs]
    cases hq : writeBits 8 s with
    | failed e t => rw [hq] at hk he; exact ⟨k, hk, he⟩
    | done t =>
      rw [hq] at hk he hkeep
      have h1 : t.endByte.idx.toNat = s.idx.toNat + 1 := by
        rw [toNat_endByte_idx (by rw [hkeep.1]; omega), hkeep.1]
      rw [Run.closeBy, afterWriteByte, if_neg (by omega)] at he
      obtain ⟨m, hm, hg⟩ := ih (t.endByte.startByte (t.endByte.memRead t.endByte.idx.toNat)) (hkeep.2.1.trans hr) (by
        rw [show (t.endByte.startByte (t.endByte.memRead t.endByte.idx.toNat)).cmd = s.cmd from hkeep.2.2, hd]) rfl (by
        show t.endByte.idx.toNat + (n + 1) = _
        omega)
      have hsame : writeBytes (n + 1) (t.endByte.startByte (t.endByte.memRead t.endByte.idx.toNat)) =
          writeBytes (n + 1) t.endByte := rfl
      rw [hsame] at hm hg
      refine ⟨k + m, ?_, ?_⟩
      · rw [Run.andThen_done, hm,
          show (t.endByte.startByte (t.endByte.memRead t.endByte.idx.toNat)).history = t.history from rfl]
        simp only [Run.state] at hk
        omega
      · rw [promptEdges_add, he, hg]
        rfl

/-! ### Whole commands -/

/-- A command that has passed its checks, started in a running state: one edge for each micro-operation. -/
theorem promptEdges_command (i : Instr) (u : State) (hr : u.running = true) (hd : decode u.cmd = .ok i)
    (ha : u.params.Admissible) (hc : refusal i u = none) :
    ∃ n, ((commandRun i u).finish (commandClose i)).history.length = n + u.history.length ∧
      promptEdges n (launch i u) = (commandRun i u).finish (commandClose i) := by
  have hfin : ∀ (r : Run) (c : State → State), r.finish c = r.closeBy c := by intro r c; cases r <;> rfl
  have hh : ∀ (r : Run) (c : State → State), (∀ t, (c t).history = t.history) →
      (r.closeBy c).history = r.state.history := by
    intro r c h; cases r with
    | done t => exact h t
    | failed e t => rfl
  have slot : ∀ (hraw : isRaw i = false) (ops : List MicroOp) (_ : ops ≠ []) (v : State),
     v.running = true → decode v.cmd = .ok i → slotOps i v = ops → v.phase = 0 →
     (∀ t, (endOfSlot i t).history = t.history) →
     v.history = u.history →
     ∃ n, ((runSlot ops v).finish (endOfSlot i)).history.length = n + u.history.length ∧
       promptEdges n v = (runSlot ops v).finish (endOfSlot i) := by
    intro hraw ops hne v h1 h2 h3 h4 h5 h6
    obtain ⟨n, hn, he⟩ := promptEdges_slot hraw ops hne v h1 h2 (by rw [h3, h4]; rfl)
    exact ⟨n, by rw [hfin, hh _ _ h5, hn, h6], by rw [hfin, he]⟩
  have raw : ∀ (hraw : isRaw i = true) (op : MicroOp), slotOps i u = [op] →
     (∀ t, (endOfSlot i t).history = t.history) →
     ∃ n, ((perform op u).finish (endOfSlot i)).history.length = n + u.history.length ∧
       promptEdges n u = (perform op u).finish (endOfSlot i) := by
    intro hraw op h1 h2
    have ho : u.currentOp = some op := by
      rw [State.currentOp, if_pos hr, hd]; simp [slotIndex, hraw, h1]
    refine ⟨1, ?_, ?_⟩
    · rw [hfin, hh _ _ h2, (perform_frame op u).2]
    · show u.promptEdge = _
      rw [promptEdge_op hr hd ho, hfin]
      cases perform op u with
      | failed e t => rfl
      | done t => simp [Run.closeBy, advance, hraw, State.passOp]
  have hlen : i.wellFormed u.params.bufDepth = true := by
    rw [← operandInRange_eq_wellFormed]
    unfold refusal at hc
    by_contra h
    simp [h] at hc
  have ⟨_, _, _, h256⟩ := ha
  cases i with
  | init => exact raw rfl _ rfl (fun _ => rfl)
  | sethi => exact raw rfl _ rfl (fun _ => rfl)
  | setlo => exact raw rfl _ rfl (fun _ => rfl)
  | ishi => exact raw rfl _ rfl (fun _ => rfl)
  | islo => exact raw rfl _ rfl (fun _ => rfl)
  | wait us => exact raw rfl _ rfl (fun _ => rfl)
  | reset => exact slot rfl (resetSequence u.params) (by simp [resetSequence]) u.startSlot hr hd rfl rfl (fun _ => rfl) rfl
  | rdbit => exact slot rfl (readSlot u.params) (by simp [readSlot]) u.startSlot hr hd rfl rfl (fun _ => rfl) rfl
  | wrbit1 => exact slot rfl (writeSlot1 u.params) (by simp [writeSlot1]) u.startSlot hr hd rfl rfl (fun _ => rfl) rfl
  | wrbit0 => exact slot rfl (writeSlot0 u.params) (by simp [writeSlot0]) u.startSlot hr hd rfl rfl (fun _ => rfl) rfl
  | wrbit b =>
    exact slot rfl (writeSlot u.params b)
      (by cases b <;> simp [writeSlot, writeSlot1, writeSlot0]) u.startSlot hr hd rfl rfl (fun _ => rfl) rfl
  | rdbyte =>
    obtain ⟨k, hk, he⟩ := promptEdges_readBits (last := fun t => t.reply t.sr) rfl (fun _ => rfl) (fun _ => rfl) 7
      (u.startByte 0) hr hd rfl rfl
    refine ⟨k, ?_, ?_⟩
    · rw [hfin]; exact (congrArg List.length (hh (readBits 8 (u.startByte 0)) (fun t => t.reply t.sr) (fun _ => rfl))).trans hk
    · rw [hfin]; exact he
  | wrbyte v =>
    obtain ⟨k, hk, he⟩ := promptEdges_writeBits (last := fun t => t.reply 0) rfl (fun _ => rfl) (fun _ => rfl) 7
      (u.startByte v) hr hd rfl rfl
    refine ⟨k, ?_, ?_⟩
    · rw [hfin]; exact (congrArg List.length (hh (writeBits 8 (u.startByte v)) (fun t => t.reply 0) (fun _ => rfl))).trans hk
    · rw [hfin]; exact he
  | rdbytes len =>
    simp [Instr.wellFormed] at hlen
    by_cases h0 : len = 0
    · subst h0; exact ⟨0, (Nat.zero_add _).symm, rfl⟩
    · obtain ⟨n, hn⟩ : ∃ n, len.toNat = n + 1 := ⟨len.toNat - 1, by
        have : len.toNat ≠ 0 := fun h => h0 (BitVec.eq_of_toNat_eq h)
        omega⟩
      obtain ⟨k, hk, he⟩ := promptEdges_readBytes (by omega) n (u.startSequence.startByte 0) hr hd rfl
        (by rw [hn]; exact Nat.zero_add _)
      refine ⟨k, ?_, ?_⟩
      · rw [hfin]; show ((readBytes len.toNat u.startSequence).closeBy (fun t => t.reply 0)).history.length = _
        rw [hn]; exact (congrArg List.length (hh _ (fun t => t.reply 0) (fun _ => rfl))).trans hk
      · rw [hfin, launch, if_neg h0, he]; show _ = (readBytes len.toNat u.startSequence).closeBy (fun t => t.reply 0)
        rw [hn]; rfl
  | wrbytes len =>
    simp [Instr.wellFormed] at hlen
    by_cases h0 : len = 0
    · subst h0; exact ⟨0, (Nat.zero_add _).symm, rfl⟩
    · obtain ⟨n, hn⟩ : ∃ n, len.toNat = n + 1 := ⟨len.toNat - 1, by
        have : len.toNat ≠ 0 := fun h => h0 (BitVec.eq_of_toNat_eq h)
        omega⟩
      obtain ⟨k, hk, he⟩ := promptEdges_writeBytes (by omega) n (u.startSequence.startByte (u.memRead 0)) hr hd rfl
        (by rw [hn]; exact Nat.zero_add _)
      refine ⟨k, ?_, ?_⟩
      · rw [hfin]; show ((writeBytes len.toNat u.startSequence).closeBy (fun t => t.reply 0)).history.length = _
        rw [hn]; exact (congrArg List.length (hh _ (fun t => t.reply 0) (fun _ => rfl))).trans hk
      · rw [hfin, launch, if_neg h0, he]; show _ = (writeBytes len.toNat u.startSequence).closeBy (fun t => t.reply 0)
        rw [hn]; rfl
  | crc8 len => exact ⟨0, by rw [commandRun, Run.finish_done, commandClose_frame]; exact (Nat.zero_add _).symm, rfl⟩
  | chkcrc len => exact ⟨0, by rw [commandRun, Run.finish_done, commandClose_frame]; exact (Nat.zero_add _).symm, rfl⟩
  | ldbuf idx => exact ⟨0, (Nat.zero_add _).symm, rfl⟩
  | stbuf idx v => exact ⟨0, (Nat.zero_add _).symm, rfl⟩
  | getspd => exact ⟨0, (Nat.zero_add _).symm, rfl⟩
  | setspd b => exact ⟨0, (Nat.zero_add _).symm, rfl⟩

end Sys2Proof.Machine
end

