-- ==== Sys2Proof/Laws/Progress.lean ====
section
/-! SUPPORT. Every answered request brings the command nearer to its response: "every loop in every procedure has a fixed
trip count" (spec/00_scope.md R17). -/

namespace Sys2Proof.Machine

/-- A bound on the answers a running command can still take, from its sequencing registers. -/
def State.answersLeft (s : State) : Nat :=
  (512 - s.idx.toNat) * 256 + (16 - s.bitc.toNat) * 16 + (16 - s.phase.toNat)

/-- A micro-operation that succeeds changes the history, `PADOUT` and `SAMP` alone. -/
theorem complete_done_frame {op : MicroOp} {a : PinAnswer} {s t : State} (h : complete op a s = .done t) :
    t = { s with history := t.history, padout := t.padout, samp := t.samp } := by
  cases op <;> cases a <;> simp only [complete] at h <;> cases h <;> rfl

/-- The end of a slot inside a byte: the next slot has a higher `BITC`. -/
theorem answersLeft_endSlot {t : State} (h : t.bitc.toNat < 8) (hp : t.phase.toNat < 8) :
    t.endSlot.answersLeft < t.answersLeft := by
  have := toNat_bitc_succ h
  simp only [State.answersLeft, this]
  simp only [State.endSlot_fields]
  omega

/-- The end of a byte inside a sequence: the next byte has a higher `IDX`. -/
theorem answersLeft_startByte {t u : State} (hi : u.idx = t.idx + 1) (hlt : t.idx.toNat < 511)
    (hb : t.bitc.toNat < 16) (v : Byte) : (u.startByte v).answersLeft < t.answersLeft := by
  have h1 : (t.idx + 1).toNat = t.idx.toNat + 1 := by rw [BitVec.toNat_add]; simp; omega
  simp only [State.answersLeft, State.startByte_fields, hi, h1]
  omega

/-- Past the last micro-operation of a slot there is a response or a higher count. -/
theorem endOfSlot_progress {i : Instr} {t : State} (hops : slotOps i t ≠ []) (hc : countersOk i t = true)
    (hd : refusal i t = none) (ha : t.params.Admissible) (hp : t.phase.toNat ≤ 7) :
    (endOfSlot i t).rsp.isSome = true ∨ (endOfSlot i t).answersLeft < t.answersLeft := by
  have read : ∀ (last : State → State), t.bitc.toNat < 8 →
      (t.bitc.toNat = 7 → (last t.shiftIn.endSlot).rsp.isSome = true ∨ (last t.shiftIn.endSlot).answersLeft < t.answersLeft) →
      (afterReadSlot t last).rsp.isSome = true ∨ (afterReadSlot t last).answersLeft < t.answersLeft := by
    intro last hb hl
    rw [afterReadSlot]
    split
    · rename_i h; exact hl ((endSlot_bitc_eq_8 (t := t.shiftIn) hb).1 h)
    · exact .inr (answersLeft_endSlot (t := t.shiftIn) hb (by show t.phase.toNat < 8; omega))
  have write : ∀ (last : State → State), t.bitc.toNat < 8 →
      (t.bitc.toNat = 7 → (last t.endSlot).rsp.isSome = true ∨ (last t.endSlot).answersLeft < t.answersLeft) →
      (afterWriteSlot t last).rsp.isSome = true ∨ (afterWriteSlot t last).answersLeft < t.answersLeft := by
    intro last hb hl
    rw [afterWriteSlot]
    split
    · rename_i h; exact hl ((endSlot_bitc_eq_8 hb).1 h)
    · exact .inr (answersLeft_endSlot hb (by omega))
  cases i with
  | rdbyte => exact read _ (by simpa [countersOk] using hc) fun _ => .inl rfl
  | wrbyte v => exact write _ (by simpa [countersOk] using hc) fun _ => .inl rfl
  | rdbytes len =>
    simp [countersOk] at hc
    have hlen := (refusal_eq_none.1 hd).1
    simp [Instr.wellFormed] at hlen
    refine read _ hc.1 fun _ => ?_
    rw [afterReadByte]
    split
    · exact .inl rfl
    · exact .inr (answersLeft_startByte rfl (by have := ha.2.2.2; omega) (by omega) _)
  | wrbytes len =>
    simp [countersOk] at hc
    have hlen := (refusal_eq_none.1 hd).1
    simp [Instr.wellFormed] at hlen
    refine write _ hc.1 fun _ => ?_
    rw [afterWriteByte]
    split
    · exact .inl rfl
    · exact .inr (answersLeft_startByte rfl (by have := ha.2.2.2; omega) (by omega) _)
  | crc8 _ => exact absurd rfl hops
  | chkcrc _ => exact absurd rfl hops
  | ldbuf _ => exact absurd rfl hops
  | stbuf _ _ => exact absurd rfl hops
  | getspd => exact absurd rfl hops
  | setspd _ => exact absurd rfl hops
  | _ => exact .inl rfl
/-- An answered request ends the command or leaves fewer answers to come. -/
theorem answerOp_progress {s : State} {op : MicroOp} (a : PinAnswer) (hi : s.Inv) (ho : s.currentOp = some op) :
    (s.answerOp op a).rsp.isSome = true ∨ (s.answerOp op a).answersLeft < s.answersLeft := by
  have hr : s.running = true := by
    by_contra h
    simp [State.currentOp, h] at ho
  obtain ⟨ha, -, -, -, -, -, hs, -⟩ := hi
  rw [State.sequencerOk, hr] at hs
  rw [State.answerOp]
  cases hd : decode s.cmd with
  | error e => simp [hd] at hs
  | ok i =>
    simp only [hd, Bool.not_true, Bool.false_or, Bool.and_eq_true, decide_eq_true_eq, Option.isNone_iff_eq_none] at hs
    obtain ⟨⟨href, hlt⟩, hcnt⟩ := hs
    cases hq : complete op a s with
    | failed e t => exact .inl rfl
    | done t =>
      have hf := complete_done_frame hq
      have h7 := length_slotOps i s
      show (advance i t).rsp.isSome = true ∨ (advance i t).answersLeft < s.answersLeft
      have hraw : isRaw i = false → t.nextPhase.phase.toNat = s.phase.toNat + 1 := by
        intro h
        rw [slotIndex, h] at hlt
        have : t.nextPhase.phase = s.phase + 1 := by rw [hf]; rfl
        rw [this, BitVec.toNat_add]
        simp at hlt ⊢
        omega
      have hcount : isRaw i = false → t.nextPhase.answersLeft < s.answersLeft := by
        intro h
        have h1 := hraw h
        have h2 : t.nextPhase.idx = s.idx ∧ t.nextPhase.bitc = s.bitc := by rw [hf]; exact ⟨rfl, rfl⟩
        rw [slotIndex, h] at hlt
        simp only [State.answersLeft, h1, h2]
        simp at hlt
        omega
      rw [advance]
      cases hw : isRaw i with
      | true =>
        rw [if_pos (.inl rfl)]
        cases i <;> first | exact .inl rfl | exact absurd (show false = true from hw) Bool.false_ne_true
      | false =>
        have hlt' : s.phase.toNat < (slotOps i s).length := by simpa [slotIndex, hw] using hlt
        rw [show t.passOp i = t.nextPhase by simp [State.passOp, hw]]
        split
        · have hne : slotOps i t.nextPhase ≠ [] := by
            rw [slotOps_congr i (s := s) (by rw [hf]; rfl) (by rw [hf]; rfl) (by rw [hf]; rfl)]
            intro h
            simp [h] at hlt'
          exact (endOfSlot_progress hne (by rw [← hcnt, hf]; cases i <;> rfl) (by rw [← href, hf]; rfl)
            (by rw [hf]; exact ha) (by rw [hraw hw]; omega)).imp_right fun h => h.trans (hcount hw)
        · exact .inr (hcount hw)

end Sys2Proof.Machine
end

