-- ==== Sys2Proof/Tests/Slice0.lean ====
section
/-! SUPPORT. Tests. Expected values are those of spec/95_test_vectors.md (the vector is named) or written out by hand from
the encodings of spec/30_encoding.md; and for every statement with hypotheses, a state and operands that meet them. -/

namespace Sys2Proof.Tests

open Sys2Proof.Machine

/-! ### Well-formedness refuses an ill-formed term of each kind (R73, R215) -/

theorem test_wf_rdbytes_257 : (Instr.rdbytes 257).wellFormed 256 = false := by decide
theorem test_wf_wrbytes_257 : (Instr.wrbytes 257).wellFormed 256 = false := by decide
theorem test_wf_crc8_257 : (Instr.crc8 257).wellFormed 256 = false := by decide
theorem test_wf_chkcrc_65535 : (Instr.chkcrc 65535).wellFormed 256 = false := by decide
theorem test_wf_ldbuf_256 : (Instr.ldbuf 256).wellFormed 256 = false := by decide
theorem test_wf_stbuf_256 : (Instr.stbuf 256 0).wellFormed 256 = false := by decide
theorem test_wf_whole_buffer : (Instr.rdbytes 256).wellFormed 256 = true := by decide
theorem test_wf_last_cell : (Instr.ldbuf 255).wellFormed 256 = true := by decide

/-! ### Decoding, from words written out bit by bit: op, a, d (R71, R72, R80) -/

theorem test_decode_init : decodeTableWord 32 0b00000001000000000000000000000000 = some (.init) := by decide
theorem test_decode_sethi : decodeTableWord 32 0b00000010000000000000000000000000 = some (.sethi) := by decide
theorem test_decode_setlo : decodeTableWord 32 0b00000011000000000000000000000000 = some (.setlo) := by decide
theorem test_decode_ishi : decodeTableWord 32 0b00000100000000000000000000000000 = some (.ishi) := by decide
theorem test_decode_islo : decodeTableWord 32 0b00000101000000000000000000000000 = some (.islo) := by decide
theorem test_decode_wait : decodeTableWord 32 0b00000110000000011110000000000000 = some (.wait 480) := by decide
theorem test_decode_reset : decodeTableWord 32 0b00000111000000000000000000000000 = some (.reset) := by decide
theorem test_decode_rdbit : decodeTableWord 32 0b00001000000000000000000000000000 = some (.rdbit) := by decide
theorem test_decode_wrbit1 : decodeTableWord 32 0b00001001000000000000000000000000 = some (.wrbit1) := by decide
theorem test_decode_wrbit0 : decodeTableWord 32 0b00001010000000000000000000000000 = some (.wrbit0) := by decide
theorem test_decode_wrbit : decodeTableWord 32 0b00001011000000000000000000000001 = some (.wrbit true) := by decide
theorem test_decode_rdbyte : decodeTableWord 32 0b00001100000000000000000000000000 = some (.rdbyte) := by decide
theorem test_decode_wrbyte : decodeTableWord 32 0b00001101000000000000000010110010 = some (.wrbyte 0xB2) := by decide
theorem test_decode_rdbytes : decodeTableWord 32 0b00001110000000010000000000000000 = some (.rdbytes 256) := by decide
theorem test_decode_wrbytes : decodeTableWord 32 0b00001111000000000000001000000000 = some (.wrbytes 2) := by decide
theorem test_decode_crc8 : decodeTableWord 32 0b00010000000000000000100000000000 = some (.crc8 8) := by decide
theorem test_decode_chkcrc : decodeTableWord 32 0b00010001000000000000100100000000 = some (.chkcrc 9) := by decide
theorem test_decode_ldbuf : decodeTableWord 32 0b00010010000000001111111100000000 = some (.ldbuf 255) := by decide
theorem test_decode_stbuf : decodeTableWord 32 0b00010011111111111111111100000001 = some (.stbuf 65535 1) := by decide
theorem test_decode_getspd : decodeTableWord 32 0b00010100000000000000000000000000 = some (.getspd) := by decide
theorem test_decode_setspd : decodeTableWord 32 0b00010101000000000000000000000001 = some (.setspd true) := by decide

theorem test_decode_illegal : [0x00000000, 0x16000000, 0xFF000000, 0x07000001, 0x0B000002, 0x06000001, 0x0D000100,
    0x15000002, 0x12000001, 0x100008FF].map (decodeTableWord 32) = List.replicate 10 none := by decide

theorem test_text : (Instr.stbuf 0 0xCC).text = "STBUF 0, 204" := by decide

/-! ### States to run a command in -/

/-- A fresh block, with a command accepted and the pin's answers scripted. -/
def fresh (answers : List PinAnswer) : State :=
  { State.reset with busy := true, oracle := { script := answers, draws := 0 } }

/-- A constructed block. -/
def live (answers : List PinAnswer) : State :=
  { fresh answers with constructed := true, padout := .released }

/-- A constructed block in the middle of an RDBYTES 2, in slot 3 of byte 1. -/
def midway : State :=
  { live [.ok true, .ok true, .err 9] with
    cmd := 0x0E000200, phase := 2, bitc := 3, idx := 1, sr := 0x40, buf := [(0, 0xB2), (9, 1)] }

/-- An idle block whose host offers `w`. -/
def idle (answers : List PinAnswer) (w : Word) : State := { live answers with busy := false, offers := [w] }

/-- The inputs of an edge at which nothing happens. -/
def quiet : PortIn :=
  { rstN := true, cmdValid := false, cmdData := 0, rspReady := false, pinAck := false, pinErr := false, pinEcode := 0,
    pinLevel := false, dlyDone := false }

/-- The answers to read slots that sample these levels. -/
def slots (bits : List Bool) : List SlotAnswer := bits.map fun b => ⟨true, true, b⟩

/-- What the oracle is once the script is used up. -/
def spent : Oracle := { script := [], draws := 0 }

theorem live_gives (answers : List PinAnswer) : (live answers).oracle.Gives answers spent := by
  have h := Oracle.gives_script answers [] 0
  rw [List.append_nil] at h
  exact h

/-- The state after command `i`. -/
def after (i : Instr) (s : State) : State :=
  match exec i s with
  | .next t => t
  | .fault _ => s
  | .refused _ => s

/-- The response and the trace of command `i`. -/
def result (i : Instr) (s : State) : Option Word × List Event := ((after i s).rsp, newEvents s (after i s))

/-- Bits as the vectors write them. -/
def bits (l : List Nat) : List Bool := l.map (· == 1)

/-! ### One command each -/

/-- V40-1. -/
theorem test_init : result .init (fresh [.ok true]) = (some 0x00000000, [.high]) ∧
    (after .init (fresh [.ok true])).constructed = true ∧ (after .init (fresh [.ok true])).padout = .released := by decide
/-- V40-2, V40-5. -/
theorem test_init_fails : result .init (fresh [.err 7]) = (some 0x10000700, [.highFailed 7]) ∧
    (after .init (fresh [.err 7])).constructed = false ∧ (after .init (fresh [.err 7])).padout = .unknown ∧
    result .init (live []) = (some 0x50000000, []) := by decide
/-- V40-6, V40-3. -/
theorem test_sethi : result .sethi (live [.ok false]) = (some 0x00000000, [.high]) ∧
    result .sethi (fresh []) = (some 0x50000000, []) := by decide
/-- V40-7, V40-8. -/
theorem test_setlo : (after .setlo (live [.ok true])).padout = .low ∧
    result .setlo (live [.err 1]) = (some 0x10000100, [.lowFailed 1]) := by decide
/-- V40-9, V40-13. -/
theorem test_ishi : result .ishi (live [.ok true]) = (some 0x00000001, [.sampled true]) ∧
    result .ishi (live [.err 0x33]) = (some 0x10003300, [.sampleFailed 0x33]) ∧
    (after .ishi (live [.err 0x33])).padout = .released := by decide
/-- V40-11, V40-12. -/
theorem test_islo : result .islo (live [.ok true]) = (some 0x00000000, [.sampled true]) ∧
    result .islo (live [.ok false]) = (some 0x00000001, [.sampled false]) := by decide
/-- V40-14, V40-16. -/
theorem test_wait : result (.wait 0) (live []) = (some 0x00000000, [.waited 0]) ∧
    result (.wait 65535) (live []) = (some 0x00000000, [.waited 65535]) := by decide
/-- V41-1. -/
theorem test_reset : result .reset (live [.ok true, .ok true, .ok false]) =
    (some 0x00000001, [.waited 0, .low, .waited 480, .high, .waited 70, .sampled false, .waited 410]) := by decide
/-- V41-6. -/
theorem test_reset_release_fails : result .reset (live [.ok true, .err 0x42]) =
    (some 0x10004200, [.waited 0, .low, .waited 480, .highFailed 0x42]) ∧
    (after .reset (live [.ok true, .err 0x42])).padout = .unknown := by decide
/-- V42-2. -/
theorem test_rdbit : result .rdbit (live [.ok true, .ok true, .ok true]) =
    (some 0x00000001, [.low, .waited 6, .high, .waited 9, .sampled true, .waited 55]) := by decide
/-- V42-9. -/
theorem test_rdbit_sample_fails : result .rdbit (live [.ok true, .ok true, .err 0x53]) =
    (some 0x10005300, [.low, .waited 6, .high, .waited 9, .sampleFailed 0x53]) ∧
    (after .rdbit (live [.ok true, .ok true, .err 0x53])).padout = .released := by decide
/-- V42-3. -/
theorem test_wrbit1 : result .wrbit1 (live [.ok true, .ok true]) =
    (some 0x00000000, [.low, .waited 6, .high, .waited 64]) := by decide
/-- V42-4, V42-12. -/
theorem test_wrbit0 : result .wrbit0 (live [.ok true, .ok true]) =
    (some 0x00000000, [.low, .waited 60, .high, .waited 10]) ∧
    result .wrbit0 (live [.ok true, .err 0x62]) = (some 0x10006200, [.low, .waited 60, .highFailed 0x62]) := by decide
/-- V42-5, V42-6. -/
theorem test_wrbit : result (.wrbit true) (live [.ok true, .ok true]) =
    (some 0x00000000, [.low, .waited 6, .high, .waited 64]) ∧
    result (.wrbit false) (live [.ok true, .ok true]) = (some 0x00000000, [.low, .waited 60, .high, .waited 10]) := by
  decide
/-- V43-10: the samples 0,1,0,0,1,1,0,1 make 0xB2. -/
theorem test_rdbyte :
    (after .rdbyte (live ((slots (bits [0, 1, 0, 0, 1, 1, 0, 1])).flatMap SlotAnswer.answers))).rsp =
      some 0x000000B2 := by decide
/-- V43-15: the sample of slot 3 fails. -/
theorem test_rdbyte_aborts :
    result .rdbyte (live ((slots (bits [0, 1, 0])).flatMap SlotAnswer.answers ++ [.ok true, .ok true, .err 9])) =
      (some 0x10000900,
        [.low, .waited 6, .high, .waited 9, .sampled false, .waited 55,
         .low, .waited 6, .high, .waited 9, .sampled true, .waited 55,
         .low, .waited 6, .high, .waited 9, .sampled false, .waited 55,
         .low, .waited 6, .high, .waited 9, .sampleFailed 9]) := by decide
/-- V43-5: the low times of 0xB2. -/
theorem test_wrbyte :
    (newEvents (live []) (after (.wrbyte 0xB2) (live (List.replicate 16 (.ok true))))).filterMap
      (fun e => match e with | .waited n => some n.toNat | _ => none) =
    [60, 10, 6, 64, 60, 10, 60, 10, 6, 64, 6, 64, 60, 10, 6, 64] := by decide
/-- V43-13. -/
theorem test_rdbytes :
    (after (.rdbytes 2) (live ((slots (bits [0, 1, 0, 0, 1, 1, 0, 1, 1, 0, 0, 0, 0, 0, 0, 0])).flatMap
      SlotAnswer.answers))).buf = [(0, 0xB2), (1, 0x01)] := by decide
/-- V43-11, V43-17, V43-19, V43-20. -/
theorem test_rdbytes_bounds : result (.rdbytes 0) (live []) = (some 0x00000000, []) ∧
    result (.rdbytes 257) (live []) = (some 0x40000000, []) ∧
    result (.rdbytes 256) (fresh []) = (some 0x50000000, []) ∧
    result (.rdbytes 257) (fresh []) = (some 0x40000000, []) := by decide
/-- V43-14: the low times of 0xCC, 0x44. -/
theorem test_wrbytes :
    (newEvents (live []) (after (.wrbytes 2)
      { live (List.replicate 32 (.ok true)) with buf := [(0, 0xCC), (1, 0x44)] })).filterMap
      (fun e => match e with | .waited n => some (n.toNat == 6 || n.toNat == 60, n.toNat) | _ => none) =
    (bits [0, 0, 1, 1, 0, 0, 1, 1, 0, 0, 1, 0, 0, 0, 1, 0]).flatMap
      (fun b => if b then [(true, 6), (false, 64)] else [(true, 60), (false, 10)]) := by decide
set_option maxRecDepth 10000 in
/-- Section 2.6, V44-3 and V44-7. -/
theorem test_crcSeq : crcSeq [0x01] = 0x5E ∧
    crcSeq [0x31, 0x32, 0x33, 0x34, 0x35, 0x36, 0x37, 0x38, 0x39] = 0xA1 := by decide
set_option maxRecDepth 10000 in
/-- V44-14, V44-17. -/
theorem test_crc8 : (after (.crc8 8) { fresh [] with
      buf := [(0, 99), (1, 1), (2, 75), (3, 70), (4, 127), (5, 255), (6, 13), (7, 16)] }).rsp = some 0x00000015 ∧
    (after (.crc8 257) (fresh [])).rsp = some 0x40000000 := by decide
set_option maxRecDepth 10000 in
/-- V44-15, V44-16. -/
theorem test_chkcrc :
    (after (.chkcrc 9) { fresh [] with
      buf := [(0, 99), (1, 1), (2, 75), (3, 70), (4, 127), (5, 255), (6, 13), (7, 16), (8, 21)] }).rsp =
        some 0x00000000 ∧
    (after (.chkcrc 9) { fresh [] with
      buf := [(0, 99), (1, 1), (2, 75), (3, 70), (4, 127), (5, 255), (6, 13), (7, 16), (8, 20)] }).rsp =
        some 0x20000000 := by decide
/-- V45-2, V45-5. -/
theorem test_ldbuf : (after (.ldbuf 0) { fresh [] with buf := [(0, 0xCC)] }).rsp = some 0x000000CC ∧
    (after (.ldbuf 256) (fresh [])).rsp = some 0x40000000 := by decide
/-- V45-3, V45-7. -/
theorem test_stbuf : (after (.stbuf 255 0xFF) (fresh [])).buf = [(255, 0xFF)] ∧
    result (.stbuf 65535 1) (fresh []) = (some 0x40000000, []) := by decide
/-- V45-8, V45-11. -/
theorem test_getspd : (after .getspd (fresh [])).rsp = some 0x50000000 ∧
    (after .getspd { live [] with speed := .overdrive }).rsp = some 0x00000001 := by decide
/-- V45-11, V45-12, V45-9. -/
theorem test_setspd : (after (.setspd true) (live [])).speed = .overdrive ∧
    (after (.setspd false) { live [] with speed := .overdrive }).speed = .standard ∧
    (after (.setspd true) (fresh [])).rsp = some 0x50000000 := by decide

/-! ### The step, and the block at its ports -/

/-- The state `step` leads to; `s` where it stops. -/
def next (s : State) : State :=
  match step s with
  | .next t => t
  | .fault _ => s
  | .refused _ => s

/-- V60-1, V60-3, V60-7: what the host gets from a fresh block. -/
theorem test_step : (next (State.reset.withFetchWord 32 0x00000000)).taken = [0x30000000] ∧
    (next (State.reset.withFetchWord 32 0x07000001)).taken = [0x30000000] ∧
    (next (State.reset.withFetchWord 32 0x07000000)).taken = [0x50000000] ∧
    (next (State.reset.withFetchWord 32 0x13000263)).buf = [(2, 0x63)] := by decide

/-- P1, commands 3 to 5: the loopback pin records the bits of WRBYTE alone, and their replay is 0xB2. -/
theorem test_loopback : loopbackBits defaultParams (newEvents (live []) (after (.wrbyte 0xB2) (after .reset
      (live ([.ok true, .ok true, .ok false] ++ List.replicate 16 (.ok true)))))) = bits [0, 1, 0, 0, 1, 1, 0, 1] ∧
    (after .rdbyte (live (loopbackAnswers (bits [0, 1, 0, 0, 1, 1, 0, 1])))).rsp = some 0x000000B2 := by decide

/-- R158: reset pulses, read slots and slots cut short record nothing, single write slots do. -/
theorem test_loopback_slots : wireSlots defaultParams
    ([.waited 0, .low, .waited 480, .high, .waited 70, .sampled false, .waited 410] ++ readTrace defaultParams true ++
      writeTrace defaultParams false ++ [.sampled true] ++ writeTrace defaultParams true ++
      writeAbort defaultParams true 1 7) = [.read true, .wrote false, .wrote true] := by decide

/-- R26: the end of a completed RESET is `RecoveryIdle(high)`. -/
theorem test_resetPhase_end : resetPhase (after .reset (live [.ok true, .ok true, .ok false])).phase =
    some .recoveryIdleHigh ∧
    (({ live [] with cmd := 0x07000000, phase := 6 } : State).clockEdge { quiet with dlyDone := true }).phase = 7 := by
  decide

/-- R251: reset in the middle of RDBYTES keeps the byte that had arrived and no other. -/
theorem test_hardwareReset : midway.hardwareReset.buf = [(0, 0xB2)] ∧
    midway.hardwareReset.hardwareReset.buf = [(0, 0xB2)] ∧ midway.hardwareReset.outputs =
    { cmdReady := true, rsp := none, pin := none, dly := none } := by decide

/-- R35, R45, R251: `PADOUT` after a hardware reset of an idle block, in a low pulse, and while a release is requested. -/
theorem test_padAfterReset : (idle [] 0).hardwareReset.padout = .unknown ∧
    ({ midway with phase := 1, padout := .low } : State).hardwareReset.padout = .low ∧
    ({ midway with phase := 2, padout := .low } : State).hardwareReset.padout = .unknown := by decide

/-- R24, R230: in slot 3 the release is requested. -/
theorem test_request : midway.outputs = { cmdReady := false, rsp := none, pin := some 0, dly := none } := by decide

/-! ### Every statement's hypotheses are met by something -/

theorem witness_DecodedWordIsTheEncodedCommand :
    ∃ w i, decode w = .ok i :=
  ⟨0x0601E000, .wait 480, rfl⟩
set_option maxRecDepth 10000 in
theorem witness_WordIsLegalExactlyWhenItsRowMatches :
    (idle [] 0x0B000002).Idle ∧ (idle [] 0x0B000002).offers = [0x0B000002] ∧
      ∀ r ∈ opcodeRows, (0x0B000002 : Word) &&& r.mask ≠ r.pattern :=
  by decide
theorem witness_UndefinedOpcodeDoesNothing :
    ∀ w ∈ [(0x00000000 : Word), 0x16000001, 0xFF000000], (idle [] w).Idle ∧ (idle [] w).offers = [w] ∧
      (opField w = 0 ∨ 0x16 ≤ (opField w).toNat) :=
  fun w h => by simp at h; rcases h with rfl | rfl | rfl <;> decide
theorem witness_StepRunsTheDecodedCommand :
    State.reset.busy = false ∧ State.reset.offers = [] ∧
      (idle [] 0x0601E000).busy = false ∧ (idle [] 0x0601E000).offers = [0x0601E000] ∧
      decode (BitVec.ofNat 32 0x0601E000) = .ok (.wait 480) ∧ 0x0601E000 < 2 ^ 32 ∧
      (after .getspd (live [])).rsp = some 0 :=
  ⟨rfl, rfl, rfl, rfl, rfl, by decide, rfl⟩
theorem witness_EveryStepKeepsTheInvariant :
    State.reset.Inv ∧ midway.Inv ∧ (after (.rdbytes 257) (live [])).Inv :=
  by decide
theorem witness_EveryClockEdgeKeepsTheInvariant :
    midway.Inv ∧ quiet.rstN = true ∧ ({ quiet with rstN := false } : PortIn).rstN = false :=
  by decide
theorem witness_ClockEdgesRefineTheCommandStep :
    (idle [.ok true] 0x02000000).Idle ∧ (idle [.ok true] 0x02000000).params.Admissible ∧
      (idle [.ok true] 0x02000000).offers = [0x02000000] :=
  by decide
theorem witness_HardwareResetPutsTheBlockIdle :
    ({ quiet with rstN := false } : PortIn).rstN = false ∧ State.reset.busy = false ∧
      State.reset.inReset = false ∧ quiet.rstN = true ∧ quiet.cmdValid = false :=
  by decide
theorem witness_HardwareResetAbandonsTheCommand :
    midway.busy = true ∧ midway.padout ≠ .low ∧
      ({ midway with phase := 1, padout := .low } : State).currentOp ≠ some .high ∧
      (∀ j ∈ [{ quiet with rstN := false }], PortIn.rstN j = false) ∧ (∀ r, midway.rsp = some r → (rspStatus r).toNat < 3) ∧
      decode midway.cmd = .ok (.rdbytes 2) ∧ 0 < midway.idx.toNat ∧
      (after (.stbuf 255 7) { live [] with cmd := 0x1300FF07 }).rsp = some 0 ∧
      decode (after (.stbuf 255 7) { live [] with cmd := 0x1300FF07 }).cmd = .ok (.stbuf 255 7) :=
  ⟨rfl, by decide, by decide, by decide, nofun, rfl, by decide, rfl, rfl⟩
theorem witness_BusyBlockAcceptsNoCommand :
    (idle [] 0).busy = false ∧ ({ quiet with cmdValid := true } : PortIn).cmdValid = true ∧ midway.busy = true ∧
      quiet.rstN = true :=
  by decide
theorem witness_ResponseIsHeldUntilTaken :
    (after .getspd (live [])).busy = true ∧ (after .getspd (live [])).rsp = some 0 ∧ quiet.rstN = true ∧
      quiet.rspReady = false ∧ ({ quiet with rspReady := true } : PortIn).rspReady = true :=
  by decide
theorem witness_UnansweredRequestHangsTheBlock :
    midway.currentOp = some .high ∧
      ∀ i ∈ [quiet, quiet], i.rstN = true ∧ i.pinAck = false ∧ i.dlyDone = false :=
  by decide
theorem witness_CommandsEndWhenTheCapabilitiesAnswer :
    midway.Inv ∧ midway.busy = true ∧
      CapabilitiesAnswer (fun _ => { quiet with pinAck := true, dlyDone := true }) midway :=
  ⟨by decide, rfl, fun n op _ => ⟨n, Nat.le_refl n, .inr (by cases op.isPin <;> rfl)⟩⟩
theorem witness_OneStableRequestAtATime :
    midway.outputs.pin.isSome = true ∧ quiet.pinAck = false ∧
      ({ midway with phase := 1 } : State).outputs.dly.isSome = true ∧
      ({ midway with phase := 1 } : State).currentOp = some (.wait 6) ∧ quiet.dlyDone = false :=
  by decide
theorem witness_ResetPhasesRequestTheirMicroOperation :
    ∀ p ∈ [(0 : BitVec 4), 1, 2, 3, 4, 5, 6], ({ live [] with cmd := 0x07000000, phase := p } : State).running = true ∧
      ({ quiet with dlyDone := true } : PortIn).rstN = true ∧ ({ quiet with dlyDone := true } : PortIn).dlyDone = true :=
  by decide
theorem witness_InitConstructsTheDriver :
    (fresh []).constructed = false ∧ (fresh [.ok true]).oracle.next = (.ok true, spent) ∧
      (fresh [.err 7]).oracle.next = (.err 7, spent) ∧ (live []).constructed = true :=
  by decide
/-- For SethiReleasesTheLine, SetloPullsTheLineLow, IshiReportsTheLevel, IsloReportsTheComplement, WaitIssuesOneRequest. -/
theorem witness_OneAccessCommands :
    (live []).constructed = true ∧ (live [.ok true]).oracle.next = (.ok true, spent) ∧
      (live [.ok false]).oracle.next = (.ok false, spent) ∧ (live [.err 255]).oracle.next = (.err 255, spent) ∧
      (fresh []).constructed = false :=
  by decide
theorem witness_ResetSendsThePulseAndReportsPresence :
    (live (SlotAnswer.answers ⟨true, true, false⟩)).oracle.Gives (SlotAnswer.answers ⟨true, true, false⟩) spent ∧
      (live [.err 0]).oracle.Gives [.err 0] spent ∧
      (live [.ok true, .err 0x42]).oracle.Gives [.ok true, .err 0x42] spent ∧
      (live [.ok true, .ok true, .err 255]).oracle.Gives [.ok true, .ok true, .err 255] spent :=
  ⟨live_gives _, live_gives _, live_gives _, live_gives _⟩
theorem witness_PresenceIsTheLineAtTheSampleInstant :
    ∃ s t, exec .reset s = .next t ∧ t.Answered .ok ∧
      WiredAnd (fun tau => decide (510 ≤ tau ∧ tau ≤ 620)) 0 s.padout (newEvents s t) :=
  ⟨live [.ok true, .ok true, .ok false], after .reset (live [.ok true, .ok true, .ok false]), rfl,
    ⟨0x00000001, by decide, by decide⟩, by
      rw [show newEvents (live [.ok true, .ok true, .ok false]) (after .reset (live [.ok true, .ok true, .ok false])) =
        [.waited 0, .low, .waited 480, .high, .waited 70, .sampled false, .waited 410] by decide]
      simp [WiredAnd, lineLevel, nominalUs, padAfter]⟩
theorem witness_RdbitReadsOneSlot :
    ∀ ls ∈ [[], [true], [true, false]], ls.length ≤ 2 ∧
      (live (drivesOk ls ++ [.err 1])).oracle.Gives (drivesOk ls ++ [.err 1]) spent ∧
      (live (SlotAnswer.answers ⟨true, false, true⟩)).oracle.Gives (SlotAnswer.answers ⟨true, false, true⟩) spent :=
  fun ls h => ⟨by revert ls; decide, live_gives _, live_gives _⟩
theorem witness_WriteBitCommandsSendTheirSlot :
    ∀ ls ∈ [[], [true]], ls.length ≤ 1 ∧
      (live (drivesOk ls ++ [.err 1])).oracle.Gives (drivesOk ls ++ [.err 1]) spent ∧
      (live [.ok true, .ok false]).oracle.Gives [.ok true, .ok false] spent :=
  fun ls h => ⟨by revert ls; decide, live_gives _, live_gives _⟩
theorem witness_WrbitSendsTheChosenSlot :
    opField 0x0B000002 = 0x0B ∧ (0x0B000002 : Word).extractLsb' 1 23 ≠ 0 ∧
      opField 0x0B800000 = 0x0B ∧ (0x0B800000 : Word).extractLsb' 1 23 ≠ 0 ∧
      (live [.ok true, .ok false]).oracle.Gives [.ok true, .ok false] spent :=
  ⟨by decide, by decide, by decide, by decide, live_gives _⟩
theorem witness_RdbyteAssemblesTheSampledBits :
    ∃ xs : List SlotAnswer, xs.length = 8 ∧
      (live (xs.flatMap SlotAnswer.answers)).oracle.Gives (xs.flatMap SlotAnswer.answers) spent ∧
      ∀ ys ∈ [[], xs.take 7], ∀ ls ∈ [[], [true], [true, true]], ys.length < 8 ∧ ls.length ≤ 2 ∧
        (live (ys.flatMap SlotAnswer.answers ++ drivesOk ls ++ [.err 9])).oracle.Gives
          (ys.flatMap SlotAnswer.answers ++ drivesOk ls ++ [.err 9]) spent :=
  ⟨slots (bits [0, 1, 0, 0, 1, 1, 0, 1]), rfl, live_gives _, fun ys h ls hl => ⟨by revert ys; decide, by revert ls; decide, live_gives _⟩⟩
theorem witness_WrbyteSendsItsBits :
    (live (drivesOk (List.replicate 16 true))).oracle.Gives (drivesOk (List.replicate 16 true)) spent ∧
      ∀ k ∈ [0, 7], ∀ j ∈ [0, 1], k < 8 ∧ 2 * k ≤ (List.replicate (2 * k + j) true).length ∧
        (List.replicate (2 * k + j) true).length ≤ 2 * k + 1 ∧
        (live (drivesOk (List.replicate (2 * k + j) true) ++ [.err 1])).oracle.Gives
          (drivesOk (List.replicate (2 * k + j) true) ++ [.err 1]) spent :=
  ⟨live_gives _, fun k hk j hj => ⟨by revert k; decide, by simp, by simp at hj ⊢; omega, live_gives _⟩⟩
theorem witness_RdbytesFillsTheBuffer :
    ∀ len ∈ [(0 : BitVec 16), 2], (live []).params.Admissible ∧ len.toNat ≤ (live []).params.bufDepth ∧
      (slots (List.replicate (8 * len.toNat) true)).length = 8 * len.toNat ∧
      (live ((slots (List.replicate (8 * len.toNat) true)).flatMap SlotAnswer.answers)).oracle.Gives
        ((slots (List.replicate (8 * len.toNat) true)).flatMap SlotAnswer.answers) spent ∧
      (live []).params.bufDepth < (257 : BitVec 16).toNat ∧ (256 : BitVec 16).toNat ≤ (fresh []).params.bufDepth :=
  fun len h => ⟨by decide, by simp at h; rcases h with rfl | rfl <;> decide, by simp [slots], live_gives _, by decide,
    by decide⟩
theorem witness_WrbytesSendsTheBuffer :
    ∀ len ∈ [(0 : BitVec 16), 256], (live []).params.Admissible ∧ len.toNat ≤ (live []).params.bufDepth ∧
      (List.replicate (16 * len.toNat) true).length = 16 * len.toNat ∧
      (live (drivesOk (List.replicate (16 * len.toNat) true))).oracle.Gives
        (drivesOk (List.replicate (16 * len.toNat) true)) spent ∧
      (live []).params.bufDepth < (257 : BitVec 16).toNat :=
  fun len h => ⟨by decide, by simp at h; rcases h with rfl | rfl <;> decide, by simp, live_gives _, by decide⟩
theorem witness_ByteSequencesStopAtTheFailedAccess :
    ∀ k ∈ [0, 1], ∀ m ∈ [0, 7], ∀ j ∈ [0, 1, 2], k < (2 : BitVec 16).toNat ∧ m < 8 ∧
      (slots (List.replicate (8 * k + m) true)).length = 8 * k + m ∧ (List.replicate j true).length ≤ 2 ∧
      (live ((slots (List.replicate (8 * k + m) true)).flatMap SlotAnswer.answers ++ drivesOk (List.replicate j true) ++
          [.err 7])).oracle.Gives ((slots (List.replicate (8 * k + m) true)).flatMap SlotAnswer.answers ++
            drivesOk (List.replicate j true) ++ [.err 7]) spent ∧
      (j ≤ 1 → 16 * k + 2 * m ≤ (List.replicate (16 * k + 2 * m + j) true).length ∧
        (List.replicate (16 * k + 2 * m + j) true).length ≤ 16 * k + 2 * m + 1) ∧
      (live (drivesOk (List.replicate (16 * k + 2 * m + j) true) ++ [.err 7])).oracle.Gives
        (drivesOk (List.replicate (16 * k + 2 * m + j) true) ++ [.err 7]) spent :=
  fun k hk m hm j hj => ⟨by revert k; decide, by revert m; decide, by simp [slots], by revert j; decide, live_gives _,
    fun h => ⟨by simp, by simpa using h⟩, live_gives _⟩
theorem witness_LoopbackReturnsTheByteWritten :
    (live []).params.Admissible ∧ (live []).constructed = true ∧ (List.replicate 16 true).length = 16 ∧
      (live (drivesOk (List.replicate 16 true))).oracle.Gives (drivesOk (List.replicate 16 true)) spent :=
  ⟨by decide, rfl, rfl, live_gives _⟩
/-- The pin's answers to RESET, WRBYTE 0xB2 and RDBYTE in P1. -/
def loopbackRun : List PinAnswer :=
  SlotAnswer.answers ⟨true, true, false⟩ ++ drivesOk (List.replicate 16 true) ++
    (slots (bits [0, 1, 0, 0, 1, 1, 0, 1])).flatMap SlotAnswer.answers

set_option maxRecDepth 10000 in
/-- For the second clause of LoopbackReturnsTheByteWritten. -/
theorem witness_LoopbackReturnsTheByteWritten_premise :
    (live loopbackRun).oracle.Gives loopbackRun spent ∧ (slots (bits [0, 1, 0, 0, 1, 1, 0, 1])).length = 8 ∧
      Replays [] (wireSlots defaultParams (newEvents (live loopbackRun)
        (after .rdbyte (after (.wrbyte 0xB2) (after .reset (live loopbackRun)))))) :=
  ⟨live_gives _, rfl, by
    rw [show wireSlots defaultParams (newEvents (live loopbackRun)
        (after .rdbyte (after (.wrbyte 0xB2) (after .reset (live loopbackRun))))) =
      (bits [0, 1, 0, 0, 1, 1, 0, 1]).map .wrote ++ (bits [0, 1, 0, 0, 1, 1, 0, 1]).map .read by decide]
    simp [Replays, bits]⟩
/-- For CrcCommandAnswersTheChecksum and ChkcrcAnswersWhetherTheChecksumIsZero. -/
theorem witness_CrcCommandsAnswer :
    ∀ len ∈ [(0 : BitVec 16), 256], (fresh []).params.Admissible ∧ len.toNat ≤ (fresh []).params.bufDepth ∧
      (fresh []).params.bufDepth < (257 : BitVec 16).toNat :=
  fun len h => ⟨by decide, by simp at h; rcases h with rfl | rfl <;> decide, by decide⟩
set_option maxRecDepth 10000 in
theorem witness_ChecksumOfDataWithItsChecksumIsZero :
    (fresh []).params.Admissible ∧ (9 : BitVec 16).toNat ≤ (fresh []).params.bufDepth ∧
      (List.range (9 : BitVec 16).toNat).map (State.memRead { fresh [] with
        buf := [(0, 99), (1, 1), (2, 75), (3, 70), (4, 127), (5, 255), (6, 13), (7, 16), (8, 21)] }) =
      [99, 1, 75, 70, 127, 255, 13, 16] ++ [crcSeq [99, 1, 75, 70, 127, 255, 13, 16]] :=
  by decide
theorem witness_ChecksumDetectsEverySingleBitError :
    [(1 : Byte), 0x5E].length = [(3 : Byte), 4].length ∧ 7 < 8 ∧ [(1 : Byte), 0x5E][1]? = some 0x5E :=
  by decide
theorem witness_LdbufReadsOneCell :
    opField 0x12000001 = 0x12 ∧ dField 0x12000001 ≠ 0 ∧ (255 : BitVec 16).toNat < (fresh []).params.bufDepth ∧
      (fresh []).params.bufDepth ≤ (256 : BitVec 16).toNat :=
  by decide
theorem witness_StbufWritesOneCell :
    opField 0x13FFFF01 = 0x13 ∧ (255 : BitVec 16).toNat < (fresh []).params.bufDepth ∧
      (fresh []).params.bufDepth ≤ (256 : BitVec 16).toNat :=
  by decide
theorem witness_LdbufReturnsTheLatestWrite :
    (255 : BitVec 16).toNat < (fresh []).params.bufDepth ∧ (0 : BitVec 16).toNat < (fresh []).params.bufDepth ∧
      exec (.stbuf 255 7) (fresh []) = .next (after (.stbuf 255 7) (fresh [])) :=
  ⟨by decide, by decide, rfl⟩
/-- For GetspdAnswersTheSpeed and SetspdChangesOnlyTheSpeed. -/
theorem witness_SpeedCommands :
    (live []).constructed = true ∧ (fresh []).constructed = false ∧
      opField 0x15000002 = 0x15 ∧ (0x15000002 : Word).extractLsb' 1 23 ≠ 0 :=
  by decide
theorem witness_RefusedCommandDoesNothing :
    (idle [] 0x07000001).Idle ∧ (idle [] 0x07000001).offers = [0x07000001] ∧
      decode 0x07000001 = .error (.reservedBits 0x07) ∧
      (Instr.rdbytes 257).wellFormed (fresh []).params.bufDepth = false ∧
      (Instr.rdbytes 256).wellFormed (fresh []).params.bufDepth = true ∧ StateRefuses (fresh []) (.rdbytes 256) ∧
      StateRefuses (live []) .init ∧ ¬ StateRefuses (fresh []) (.crc8 0) ∧ ¬ StateRefuses (live []) .getspd :=
  ⟨by decide, rfl, rfl, by decide, by decide, rfl, rfl, id, nofun⟩
theorem witness_PinErrorEndsTheCommandAtOnce :
    ∃ i s t, exec i s = .next t ∧ t.Answered .pinError :=
  ⟨.ishi, live [.err 0x33], after .ishi (live [.err 0x33]), rfl, 0x10003300, by decide, by decide⟩
theorem witness_OutcomesOfEachCommand :
    ∃ i s t, exec i s = .next t ∧ t.Answered .ok ∧ returnsValue i = false :=
  ⟨.wait 0, live [], after (.wait 0) (live []), rfl, ⟨0, by decide, by decide⟩, rfl⟩
theorem witness_CommandsLeaveTheLineReleased :
    ∃ s t u, exec .wrbit1 s = .next t ∧ t.Answered .ok ∧ s.padout = .released ∧ exec .setlo s = .next u ∧
      u.Answered .ok :=
  ⟨live [.ok true, .ok true], after .wrbit1 (live [.ok true, .ok true]), after .setlo (live [.ok true, .ok true]), rfl,
    ⟨0, by decide, by decide⟩, rfl, rfl, ⟨0, by decide, by decide⟩⟩
theorem witness_SpeedChangesNoTrace :
    ∃ s t, Instr.wrbit1 ≠ .getspd ∧ exec .wrbit1 s = .next t :=
  ⟨live [.ok true, .ok true], after .wrbit1 (live [.ok true, .ok true]), by decide, rfl⟩
/-- For TransientRegistersDoNotMatter, OnlyTheListedCommandsWriteEachRegister, CountsAndDurationsOfEachCommand. -/
theorem witness_RulesOverAllCommands :
    ∃ s t, exec (.rdbytes 0) s = .next t ∧ s.params.Admissible ∧ t.Answered .ok :=
  ⟨live [], after (.rdbytes 0) (live []), rfl, by decide, 0, by decide, by decide⟩
theorem witness_NominalDurationIsALowerBound :
    ∃ s t, exec (.wait 480) s = .next t ∧ s.params.Admissible ∧ t.Answered .ok ∧
      [(⟨.waited 480, 0, ((480 : Nat) : NNReal)⟩ : TimedEvent)].map TimedEvent.event = newEvents s t ∧
      Timed 0 [⟨.waited 480, 0, ((480 : Nat) : NNReal)⟩] :=
  ⟨live [], after (.wait 480) (live []), rfl, by decide, ⟨0, by decide, by decide⟩, by decide, by simp,
    by simp [nominalUs], trivial⟩
theorem witness_HostProgramSeesNoEarlierProgram :
    (idle [] 0).Idle ∧ ({ idle [] 0 with sr := 5, crc := 7, taken := [0], history := [.high] } : State).Idle ∧
      SameBlock (idle [] 0) { idle [] 0 with sr := 5, crc := 7, taken := [0], history := [.high] } :=
  ⟨by decide, by decide, rfl, rfl, rfl, rfl, rfl, rfl⟩
theorem witness_ReferenceAdapterDrivesOpenDrain :
    ({ pullLow := true, ack := false } : PinAdapter).ack = false :=
  rfl
theorem witness_ReferenceDelayUnitCountsDown :
    ∀ k ∈ [0, 6], k ≤ (3 : Us).toNat * 2 :=
  by decide

end Sys2Proof.Tests
end

/-! ## The answers of commands (spec/00_scope.md R13, R14, R17; spec/30_encoding.md R74, R75; spec/60_exceptions.md R210) -/

namespace Sys2Proof.Machine

/-! ### Response words -/

/-- A response word has the form of R74 and R75 when only `PIN_ERROR` carries a code and only `OK` carries data. -/
theorem responseOk_responseWord {st : Status} {e d : Byte} (he : st = .pinError ∨ e = 0) (hd : st = .ok ∨ d = 0) :
    responseOk (responseWord st e d) = true := by
  rcases he with rfl | rfl <;> rcases hd with h | rfl
  · cases h
  · simp [responseOk, Status.code]
  · simp [responseOk, h, Status.code]
  · cases st <;> simp [responseOk, Status.code]

/-- The response of a command that ends without a pin error has the form of R74 and R75. -/
theorem commandClose_responseOk (i : Instr) (t : State) :
    ∃ r, (commandClose i t).rsp = some r ∧ responseOk r = true := by
  obtain ⟨d, h, -⟩ | ⟨h, -⟩ := commandClose_rsp i t
  · exact ⟨_, h, responseOk_responseWord (.inr rfl) (.inl rfl)⟩
  · exact ⟨_, h, responseOk_responseWord (.inr rfl) (.inr rfl)⟩

/-- The end of a command adds no event. -/
@[simp] theorem commandClose_history (i : Instr) (t : State) : (commandClose i t).history = t.history := by
  rw [commandClose_frame]

/-- Every command answers, with its trace appended to the history; it stays `BUSY` until the hand-over. -/
theorem exec_answers (i : Instr) (s : State) : ∃ (t : State) (r : Word) (es : List Event),
    exec i s = .next t ∧ t.rsp = some r ∧ responseOk r = true ∧
    t.history = es.reverse ++ s.history ∧ t.busy = s.busy ∧ t.params = s.params ∧ t.taken = s.taken := by
  obtain ⟨st, -, -, h⟩ | ⟨t, es, -, h, -, hx, -⟩ | ⟨e, t, es, ev, -, h, -, hx, -, -⟩ := exec_cases i s
  · exact ⟨_, _, [], h, rfl, responseOk_responseWord (.inr rfl) (.inr rfl), rfl, rfl, rfl, rfl⟩
  · obtain ⟨r, hr, hok⟩ := commandClose_responseOk i t
    refine ⟨_, r, es, h, hr, hok, by rw [commandClose_history, hx.history], ?_⟩
    rw [commandClose_frame]
    exact ⟨hx.busy, hx.params, hx.taken⟩
  · exact ⟨_, _, es ++ [ev], h, rfl, responseOk_responseWord (.inl rfl) (.inr rfl), hx.history, hx.busy, hx.params,
      hx.taken⟩

/-- Settles O7: whichever way a command ends, it has set a well-formed response. -/
theorem everyCommandAnswers : Obligations.EveryCommandAnswers := by
  intro i s
  obtain ⟨t, r, es, he, hr, hok, hh, -⟩ := exec_answers i s
  exact ⟨t, r, es.reverse, he, hr, hok, hh⟩

/-! ### Pin errors -/

/-- A failed access samples no level. -/
theorem sampleLevel_of_failCode {ev : Event} {e : Byte} (h : failCode ev = some e) : sampleLevel ev = none := by
  cases ev <;> first | rfl | cases h

/-- A failed access at the end of a trace leaves the last sample as it was (R212 (c)). -/
theorem lastSample_append_failed (es : List Event) {ev : Event} {e : Byte} (h : failCode ev = some e) :
    lastSample (es ++ [ev]) = lastSample es := by
  simp [lastSample_append, lastSample, sampleLevel_of_failCode h]

/-- A command whose accesses all succeed does not answer `PIN_ERROR`. -/
theorem commandClose_not_pinError (i : Instr) (t : State) : ¬ (commandClose i t).Answered .pinError := by
  obtain ⟨d, h, -⟩ | ⟨h, -⟩ := commandClose_rsp i t <;> simp [answered_iff h]

/-- Settles O48, by the three ways a command can end. -/
theorem pinErrorEndsTheCommandAtOnce : Obligations.PinErrorEndsTheCommandAtOnce := by
  intro i s t ht
  obtain ⟨st, -, hst, h⟩ | ⟨u, es, -, h, -, hx, hf⟩ | ⟨e, u, es, ev, -, h, -, hx, hv, hf⟩ := exec_cases i s <;>
    obtain rfl : _ = t := Host.Outcome.next.inj (h.symm.trans ht)
  · have hne : ¬ (s.refuse st).Answered .pinError := by
      rw [answered_iff (t := s.refuse st) rfl]
      rcases hst with rfl | rfl <;> decide
    refine ⟨fun ha => absurd ha hne, fun _ => ?_⟩
    rw [newEvents_eq (s := s) (t := s.refuse st) (es := []) rfl]
    simp
  · refine ⟨fun ha => absurd ha (commandClose_not_pinError i u), fun _ => ?_⟩
    rwa [newEvents_eq (by rw [commandClose_history, hx.history])]
  · refine ⟨fun _ => ⟨es, ev, e, newEvents_eq hx.history, hv, hf, rfl, hx.constructed, hx.speed, ?_⟩, fun ha => ?_⟩
    · rw [← lastSample_append_failed es hv]
      exact hx.samp
    · exact absurd ⟨_, rfl, rspStatus_responseWord _ _ _⟩ ha

end Sys2Proof.Machine

/-! ## Accesses, waits and durations (spec/00_scope.md R15; the table of R275) -/

namespace Sys2Proof.Machine

/-! ### The tally of a trace -/

/-- Pin accesses, waits and nominal duration of one event. -/
def eventTally (e : Event) : Nat × Nat × Nat := if isAccess e then (1, 0, nominalUs e) else (0, 1, nominalUs e)

/-- Pin accesses, waits and nominal duration of a list of events, in either order. -/
def tally (es : List Event) : Nat × Nat × Nat := (es.map eventTally).sum

@[simp] theorem tally_nil : tally [] = 0 := rfl
@[simp] theorem tally_cons (e : Event) (es : List Event) : tally (e :: es) = eventTally e + tally es := rfl

theorem tally_append (es fs : List Event) : tally (es ++ fs) = tally es + tally fs := by
  simp [tally]

@[simp] theorem tally_reverse (es : List Event) : tally es.reverse = tally es := by
  rw [tally, List.map_reverse, List.sum_reverse, tally]

/-- The tally is the triple that R275's table lists. -/
theorem tally_eq (es : List Event) : tally es = (accessCount es, waitCount es, duration es) := by
  induction es with
  | nil => rfl
  | cons e es ih =>
    rw [tally_cons, ih, eventTally]
    cases h : isAccess e <;> simp [accessCount, waitCount, duration, h, Nat.add_comm]

/-! ### The tally of a procedure -/

/-- A procedure started in `s` that runs to its end has added `c` to the tally of the history. -/
def Run.Costs (s : State) (c : Nat × Nat × Nat) (r : Run) : Prop :=
  ∀ t, r = .done t → tally t.history = c + tally s.history ∧ t.params = s.params

theorem Run.Costs.done {s t : State} (hh : t.history = s.history) (hp : t.params = s.params) :
    (Run.done t).Costs s 0 := by
  rintro _ ⟨⟩
  rw [hh, zero_add]
  exact ⟨rfl, hp⟩

theorem Run.Costs.andThen {s : State} {c d : Nat × Nat × Nat} {r : Run} {k : State → Run} (h : r.Costs s c)
    (hk : ∀ t, t.params = s.params → (k t).Costs t d) : (r.andThen k).Costs s (c + d) := by
  intro u hu
  cases r with
  | failed e t => cases hu
  | done t =>
    obtain ⟨ht, hp⟩ := h t rfl
    obtain ⟨hu', hp'⟩ := hk t hp u hu
    exact ⟨by rw [hu', ht, ← add_assoc, add_comm d], hp'.trans hp⟩

/-- A micro-operation is one access of no duration, or one wait of its argument. -/
def opTally : MicroOp → Nat × Nat × Nat
  | .wait n => (0, 1, n.toNat)
  | .low => (1, 0, 0)
  | .high => (1, 0, 0)
  | .sample => (1, 0, 0)

theorem complete_costs (op : MicroOp) (a : PinAnswer) (s : State) : (complete op a s).Costs s (opTally op) := by
  intro t ht
  cases op <;> cases a <;> cases ht <;> exact ⟨rfl, rfl⟩

theorem perform_costs (op : MicroOp) (s : State) : (perform op s).Costs s (opTally op) := by
  unfold perform
  split
  · exact complete_costs op _ { s with oracle := s.oracle.next.2 }
  · exact complete_costs op _ s

theorem runSlot_costs (ops : List MicroOp) (s : State) : (runSlot ops s).Costs s (ops.map opTally).sum := by
  induction ops generalizing s with
  | nil => exact Run.Costs.done rfl rfl
  | cons op ops ih => exact (perform_costs op s).andThen fun t _ => ih t.nextPhase

/-- Accesses, waits and duration of a read slot (R133, R141). -/
def readSlotTally (p : Params) : Nat × Nat × Nat := (3, 3, p.std.A.toNat + p.std.E.toNat + p.std.F.toNat)

/-- Accesses, waits and duration of a write slot of either bit, by R7 (a) (R133, R141). -/
def writeSlotTally (p : Params) : Nat × Nat × Nat := (2, 2, p.std.A.toNat + p.std.B.toNat)

theorem readBit_costs (s : State) : (readBit s).Costs s (readSlotTally s.params) := by
  have h : ((readSlot s.params).map opTally).sum = readSlotTally s.params := by
    simp [readSlot, opTally, readSlotTally, T, tableEntry, Nat.add_assoc]
  exact h ▸ runSlot_costs (readSlot s.params) s

theorem sum_writeSlot {p : Params} (hp : p.Admissible) (b : Bool) :
    ((writeSlot p b).map opTally).sum = writeSlotTally p := by
  cases b
  · simp [writeSlot, writeSlot0, opTally, writeSlotTally, T, tableEntry, hp.1]
  · simp [writeSlot, writeSlot1, opTally, writeSlotTally, T, tableEntry]

theorem writeBit_costs {s : State} (hp : s.params.Admissible) (b : Bool) :
    (writeBit b s).Costs s (writeSlotTally s.params) :=
  sum_writeSlot hp b ▸ runSlot_costs (writeSlot s.params b) s

theorem readBits_costs (n : Nat) (s : State) : (readBits n s).Costs s (n • readSlotTally s.params) := by
  induction n generalizing s with
  | zero =>
    rw [zero_nsmul]
    exact Run.Costs.done rfl rfl
  | succ n ih =>
    rw [succ_nsmul']
    exact (readBit_costs s).andThen fun t ht => ht ▸ ih t.shiftIn.endSlot

theorem writeBits_costs (n : Nat) {s : State} (hp : s.params.Admissible) :
    (writeBits n s).Costs s (n • writeSlotTally s.params) := by
  induction n generalizing s with
  | zero =>
    rw [zero_nsmul]
    exact Run.Costs.done rfl rfl
  | succ n ih =>
    rw [succ_nsmul']
    exact (writeBit_costs hp _).andThen fun t ht => ht ▸ ih (s := t.endSlot) (ht.symm ▸ hp)

theorem readByte_costs (s : State) : (readByte s).Costs s (8 • readSlotTally s.params) :=
  readBits_costs 8 (s.startByte 0)

theorem writeByte_costs (v : Byte) {s : State} (hp : s.params.Admissible) :
    (writeByte v s).Costs s (8 • writeSlotTally s.params) :=
  writeBits_costs 8 (s := s.startByte v) hp

theorem readBytes_costs (n : Nat) (s : State) : (readBytes n s).Costs s (n • 8 • readSlotTally s.params) := by
  induction n generalizing s with
  | zero =>
    rw [zero_nsmul]
    exact Run.Costs.done rfl rfl
  | succ n ih =>
    rw [succ_nsmul']
    exact (readByte_costs s).andThen fun t ht => ht ▸ ih t.storeByte.endByte

theorem writeBytes_costs (n : Nat) {s : State} (hp : s.params.Admissible) :
    (writeBytes n s).Costs s (n • 8 • writeSlotTally s.params) := by
  induction n generalizing s with
  | zero =>
    rw [zero_nsmul]
    exact Run.Costs.done rfl rfl
  | succ n ih =>
    rw [succ_nsmul']
    exact (writeByte_costs _ hp).andThen fun t ht => ht ▸ ih (s := t.endByte) (ht.symm ▸ hp)

/-! ### The tally of a command -/

/-- The micro-operations of a command add what its row of R275's table says. -/
theorem commandRun_costs (i : Instr) {s : State} (hp : s.params.Admissible) :
    (commandRun i s).Costs s (nominalCounts s.params i) := by
  have slot : ∀ (ops : List MicroOp) (c : Nat × Nat × Nat), (ops.map opTally).sum = c →
      (runSlot ops s.startSlot).Costs s c := fun ops _ h => h ▸ runSlot_costs ops s.startSlot
  cases i with
  | init => exact perform_costs .high s
  | sethi => exact perform_costs .high s
  | setlo => exact perform_costs .low s
  | ishi => exact perform_costs .sample s
  | islo => exact perform_costs .sample s
  | wait us => exact perform_costs (.wait us) s
  | reset => exact slot (resetSequence s.params) _ (by
      simp [resetSequence, opTally, nominalCounts, T, tableEntry, Nat.add_assoc])
  | rdbit => exact readBit_costs s.startSlot
  | wrbit1 => exact slot (writeSlot1 s.params) _ (sum_writeSlot hp true)
  | wrbit0 => exact slot (writeSlot0 s.params) _ (by
      simp [writeSlot0, opTally, nominalCounts, T, tableEntry])
  | wrbit b => exact slot (writeSlot s.params b) _ (by
      rw [sum_writeSlot hp b]
      cases b <;> simp [writeSlotTally, nominalCounts, hp.1])
  | rdbyte => exact readByte_costs s
  | wrbyte v => exact writeByte_costs v hp
  | rdbytes len =>
    have h : nominalCounts s.params (.rdbytes len) = len.toNat • 8 • readSlotTally s.params := by
      simp only [nominalCounts, readSlotTally, Prod.smul_mk, smul_eq_mul, Prod.mk.injEq]
      refine ⟨by ring, by ring, by ring⟩
    exact h ▸ readBytes_costs len.toNat s.startSequence
  | wrbytes len =>
    have h : nominalCounts s.params (.wrbytes len) = len.toNat • 8 • writeSlotTally s.params := by
      simp only [nominalCounts, writeSlotTally, Prod.smul_mk, smul_eq_mul, Prod.mk.injEq]
      refine ⟨by ring, by ring, by ring⟩
    exact h ▸ writeBytes_costs len.toNat (s := s.startSequence) hp
  | crc8 len => exact Run.Costs.done rfl rfl
  | chkcrc len => exact Run.Costs.done rfl rfl
  | ldbuf idx => exact Run.Costs.done rfl rfl
  | stbuf idx v => exact Run.Costs.done rfl rfl
  | getspd => exact Run.Costs.done rfl rfl
  | setspd b => exact Run.Costs.done rfl rfl

/-- A command that ends with `OK` has performed all its micro-operations. -/
theorem exec_ok_cases {i : Instr} {s t : State} (ht : exec i s = .next t) (hok : t.Answered .ok) :
    ∃ u es, refusal i s = none ∧ commandRun i s = .done u ∧ t = commandClose i u ∧ Extends s u es ∧
      ∀ x ∈ es, failCode x = none := by
  obtain ⟨st, -, hst, h⟩ | ⟨u, es, hr, h, hd, hx, hf⟩ | ⟨e, u, es, ev, -, h, -, -, -, -⟩ := exec_cases i s <;>
    obtain rfl : _ = t := Host.Outcome.next.inj (h.symm.trans ht)
  · rw [answered_iff (t := s.refuse st) rfl] at hok
    rcases hst with rfl | rfl <;> cases hok
  · exact ⟨u, es, hr, hd, rfl, hx, hf⟩
  · rw [answered_iff (t := u.pinFailure e) rfl] at hok
    cases hok

/-- Accesses, waits and duration of the trace of a command that ends with `OK` (R275). -/
theorem tally_newEvents_of_ok {i : Instr} {s t : State} (hp : s.params.Admissible) (ht : exec i s = .next t)
    (hok : t.Answered .ok) : tally (newEvents s t) = nominalCounts s.params i := by
  obtain ⟨u, es, -, hd, rfl, hx, -⟩ := exec_ok_cases ht hok
  obtain ⟨hc, -⟩ := commandRun_costs i hp u hd
  rw [newEvents_eq (by rw [commandClose_history, hx.history])]
  rw [hx.history, tally_append, tally_reverse] at hc
  exact add_right_cancel hc

/-! ### Time stamps -/

/-- A timed trace takes at least the sum of its waits (R15). -/
theorem add_duration_le_endTime {tau : NNReal} {es : List TimedEvent} (h : Timed tau es) :
    tau + ((duration (es.map TimedEvent.event) : Nat) : NNReal) ≤ endTime tau es := by
  induction es generalizing tau with
  | nil => simp [duration, endTime]
  | cons e es ih =>
    obtain ⟨hstart, hfinish, hrest⟩ := h
    have hd : duration ((e :: es).map TimedEvent.event) = nominalUs e.event + duration (es.map TimedEvent.event) := rfl
    calc tau + ((duration ((e :: es).map TimedEvent.event) : Nat) : NNReal)
        = tau + (nominalUs e.event : Nat) + (duration (es.map TimedEvent.event) : Nat) := by
          rw [hd, Nat.cast_add, add_assoc]
      _ ≤ e.finish + (duration (es.map TimedEvent.event) : Nat) := by
          gcongr
          exact (add_le_add_left hstart _).trans hfinish
      _ ≤ endTime tau (e :: es) := ih hrest

/-- Settles O55: a timed trace takes its waits, and the waits of a completed command are its row of R275. -/
theorem nominalDurationIsALowerBound : Obligations.NominalDurationIsALowerBound := by
  refine ⟨fun _ _ h => add_duration_le_endTime h, ?_⟩
  intro i s t tau es hp ht hok hes htimed
  have hcounts := (tally_eq _).symm.trans (tally_newEvents_of_ok hp ht hok)
  rw [← hcounts, ← hes]
  exact add_duration_le_endTime htimed

end Sys2Proof.Machine

/-! ## The invariant (spec/00_scope.md R7, spec/10_state.md R24, spec/20_memory.md R50, spec/30_encoding.md R74, R94) -/

namespace Sys2Proof.Machine

/-! ### A buffer in canonical form with existing cells only -/

/-- The canonical form and the existing cells of R50, together. -/
def Memory.Fits (depth : Nat) (m : Memory) : Prop := Memory.wf m = true ∧ Memory.below depth m = true

theorem Memory.Fits.write {depth : Nat} {m : Memory} (h : m.Fits depth) {a : Nat} (ha : a < depth) (v : Byte) :
    (m.write a v).Fits depth :=
  ⟨Memory.wf_write m a v h.1, Memory.below_write depth m a v ha h.2⟩

/-- RDBYTES stores at cells that exist, as long as `IDX` stays below the depth (R61, R154). -/
theorem readBytes_fits {depth : Nat} (hd : depth ≤ 256) (n : Nat) {s : State} (h : s.buf.Fits depth)
    (hi : s.idx.toNat + n ≤ depth) : (readBytes n s).Ends fun t => t.buf.Fits depth := by
  induction n generalizing s with
  | zero => exact h
  | succ n ih =>
    have hbuf : (readByte s).Ends fun t => t.buf = s.buf := readBits_buf 8 s.buf (s.startByte 0) rfl
    have hkeep : (readByte s).Ends fun t => t.idx = s.idx ∧ t.running = s.running ∧ t.cmd = s.cmd :=
      readBits_keeps 8 _ _ _ (s.startByte 0) ⟨rfl, rfl, rfl⟩
    rw [readBytes]
    cases hq : readByte s with
    | failed e t =>
      rw [hq] at hbuf
      exact (congrArg (Memory.Fits depth) hbuf).mpr h
    | done t =>
      rw [hq] at hbuf hkeep
      obtain ⟨hidx, -, -⟩ := hkeep
      have ht : t.buf.Fits depth := (congrArg (Memory.Fits depth) hbuf).mpr h
      have hlt : t.idx.toNat < 256 := by rw [hidx]; omega
      have hsucc : t.storeByte.endByte.idx.toNat = s.idx.toNat + 1 := by
        rw [toNat_endByte_idx (t := t.storeByte) hlt, ← hidx]
        rfl
      exact ih (s := t.storeByte.endByte) (ht.write (by rw [hidx]; omega) t.sr) (by omega)

/-! ### The clauses of the invariant that no command's progress touches -/

/-- The parameters, the buffer and the responses taken are as the invariant has them. -/
structure State.Sound (s : State) : Prop where
  params : s.params.Admissible
  buf : s.buf.Fits s.params.bufDepth
  taken : s.taken.all responseOk = true

theorem State.Sound.congr {s t : State} (h : s.Sound) (hp : t.params = s.params) (hb : t.buf = s.buf)
    (ht : t.taken = s.taken) : t.Sound where
  params := hp ▸ h.params
  buf := by rw [hp, hb]; exact h.buf
  taken := ht ▸ h.taken

theorem State.Inv.sound {s : State} (h : s.Inv) : s.Sound := by
  obtain ⟨hp, hwf, hbelow, -, -, htaken, -, -⟩ := h
  exact ⟨hp, ⟨hwf, hbelow⟩, htaken⟩

theorem State.Inv.responseOk {s : State} (h : s.Inv) : s.rsp.all responseOk = true := by
  obtain ⟨-, -, -, -, hok, -⟩ := h
  exact hok

/-- An idle block needs no more than that. -/
theorem State.Sound.inv_idle {s : State} (h : s.Sound) (hb : s.busy = false) (hr : s.rsp = none) : s.Inv := by
  refine ⟨h.params, h.buf.1, h.buf.2, ?_, ?_, h.taken, ?_, fun _ => hb⟩
  · simp [hr]
  · simp [hr]
  · simp [State.sequencerOk, State.running, hb]

/-- The invariant in the middle of a command. -/
abbrev State.Active (s : State) : Prop := s.Inv ∧ s.busy = true

/-- A block whose response waits. -/
theorem State.Sound.active_answered {s : State} {r : Word} (h : s.Sound) (hb : s.busy = true) (hi : s.inReset = false)
    (hr : s.rsp = some r) (hok : responseOk r = true) : s.Active := by
  refine ⟨⟨h.params, h.buf.1, h.buf.2, fun _ => hb, ?_, h.taken, ?_, ?_⟩, hb⟩
  · simpa [hr] using hok
  · simp [State.sequencerOk, State.running, hr]
  · simp [hi]

/-- The hand-over puts a well-formed response on the record. -/
theorem State.Sound.inv_handOver {s : State} (h : s.Sound) (hok : s.rsp.all responseOk = true) : s.handOver.Inv := by
  refine State.Sound.inv_idle ⟨h.params, h.buf, ?_⟩ rfl rfl
  have ht := h.taken
  cases hr : s.rsp <;> simp_all

/-! ### A command in execution -/

/-- Command `i` has passed its checks and has not answered yet. -/
structure State.Executes (i : Instr) (s : State) : Prop where
  sound : s.Sound
  busy : s.busy = true
  outOfReset : s.inReset = false
  unanswered : s.rsp = none
  decodes : decode s.cmd = .ok i
  passed : refusal i s = none

/-- An update of the transient registers, `PADOUT`, the history or the oracle alone. -/
theorem State.Executes.of_transient {i : Instr} {s t : State} (h : s.Executes i) (ht : t = { s with
      phase := t.phase, bitc := t.bitc, idx := t.idx, sr := t.sr, samp := t.samp, crc := t.crc, padout := t.padout,
      history := t.history, oracle := t.oracle }) : t.Executes i := by
  rw [ht]
  exact ⟨h.sound.congr rfl rfl rfl, h.busy, h.outOfReset, h.unanswered, h.decodes, h.passed⟩

/-- A write to an existing cell. -/
theorem State.Executes.memWrite {i : Instr} {s : State} (h : s.Executes i) {a : Nat} (ha : a < s.params.bufDepth)
    (v : Byte) : (s.memWrite a v).Executes i :=
  ⟨⟨h.sound.params, h.sound.buf.write ha v, h.sound.taken⟩, h.busy, h.outOfReset, h.unanswered, h.decodes, h.passed⟩

theorem State.Executes.inRange {i : Instr} {s : State} (h : s.Executes i) : i.wellFormed s.params.bufDepth = true :=
  (refusal_eq_none.1 h.passed).1

/-- The sequencing registers name a micro-operation. -/
theorem State.Executes.active {i : Instr} {s : State} (h : s.Executes i) (hslot : slotIndex i s < (slotOps i s).length)
    (hc : countersOk i s = true) : s.Active := by
  have hs := h.sound
  refine ⟨⟨hs.params, hs.buf.1, hs.buf.2, fun _ => h.busy, ?_, hs.taken, ?_, ?_⟩, h.busy⟩
  · simp [h.unanswered]
  · simp [State.sequencerOk, h.decodes, h.passed, hslot, hc]
  · simp [h.outOfReset]

/-- A slot begins: `PHASE` is 0, or the command is raw. -/
theorem State.Executes.active_slotStart {i : Instr} {s : State} (h : s.Executes i) (hne : slotOps i s ≠ [])
    (hp : isRaw i = true ∨ s.phase = 0) (hc : countersOk i s = true) : s.Active := by
  have h0 : slotIndex i s = 0 := by rcases hp with hp | hp <;> simp [slotIndex, hp]
  exact h.active (h0 ▸ List.length_pos_iff.2 hne) hc

/-- A command in execution answers. -/
theorem State.Executes.active_respond {i : Instr} {s : State} (h : s.Executes i) {st : Status} {e d : Byte}
    (he : st = .pinError ∨ e = 0) (hd : st = .ok ∨ d = 0) : (s.respond st e d).Active :=
  State.Sound.active_answered (h.sound.congr rfl rfl rfl) h.busy h.outOfReset rfl (responseOk_responseWord he hd)

theorem State.Executes.active_reply {i : Instr} {s : State} (h : s.Executes i) (d : Byte) : (s.reply d).Active :=
  h.active_respond (.inr rfl) (.inl rfl)

theorem State.Executes.active_pinFailure {i : Instr} {s : State} (h : s.Executes i) (e : Byte) :
    (s.pinFailure e).Active :=
  h.active_respond (.inl rfl) (.inr rfl)

/-- What the invariant says of a block that is in the middle of a command and has no response pending. -/
theorem State.Inv.executes {s : State} (h : s.Inv) (hr : s.running = true) :
    ∃ i op, s.Executes i ∧ s.currentOp = some op ∧ slotIndex i s < (slotOps i s).length ∧ countersOk i s = true := by
  have hs := h.sound
  obtain ⟨-, -, -, -, -, -, hseq, hreset⟩ := h
  obtain ⟨hb, hn⟩ : s.busy = true ∧ s.rsp = none := by simpa [State.running] using hr
  have hi : s.inReset = false := by
    by_contra hc
    have := hreset (by simpa using hc)
    simp [hb] at this
  rw [State.sequencerOk, hr] at hseq
  cases hd : decode s.cmd with
  | error e => simp [hd] at hseq
  | ok i =>
    simp only [hd, Bool.not_true, Bool.false_or, Bool.and_eq_true, decide_eq_true_eq,
      Option.isNone_iff_eq_none] at hseq
    obtain ⟨⟨hpass, hslot⟩, hc⟩ := hseq
    refine ⟨i, (slotOps i s)[slotIndex i s], ⟨hs, hb, hi, hn, hd, hpass⟩, ?_, hslot, hc⟩
    rw [State.currentOp, if_pos hr, hd]
    exact List.getElem?_eq_getElem hslot

/-- A request is out only while a command runs. -/
theorem running_of_currentOp {s : State} {op : MicroOp} (h : s.currentOp = some op) : s.running = true := by
  by_contra hr
  simp [State.currentOp, hr] at h

/-! ### The edges of a command -/

theorem writeSlot_ne_nil (p : Params) (b : Bool) : writeSlot p b ≠ [] := by
  cases b <;> exact List.cons_ne_nil _ _

/-- The acceptance of a word that is no command (R81, R82). -/
theorem acceptEdge_of_error (s : State) {w : Word} {e : DecodeError} (hd : decode w = .error e) :
    s.acceptEdge w = (s.latch w).refuse .illegal := by
  simp only [State.acceptEdge, hd]

/-- The acceptance of the word of a command (R93, R214). -/
theorem acceptEdge_of_ok (s : State) {w : Word} {i : Instr} (hd : decode w = .ok i) :
    s.acceptEdge w = checked i (s.latch w) (launch i) := by
  simp only [State.acceptEdge, hd]

/-- A command that has passed its checks is started in range, or answers at once (R24, R153, R176). -/
theorem launch_active {i : Instr} {s : State} (h : s.Executes i) : (launch i s).Active := by
  have slot : isRaw i = false → (∀ t, countersOk i t = true) → slotOps i s.startSlot ≠ [] → s.startSlot.Active :=
    fun _ hc hne => (h.of_transient (t := s.startSlot) rfl).active_slotStart hne (.inr rfl) (hc _)
  have byte : ∀ (u : State) (v : Byte), u = { s with idx := u.idx } → slotOps i (u.startByte v) ≠ [] →
      countersOk i (u.startByte v) = true → (u.startByte v).Active := fun u v hu hne hc =>
    (h.of_transient (t := u.startByte v) (by rw [hu]; rfl)).active_slotStart hne (.inr rfl) hc
  have crc : ∀ len, (crcOfBuffer len s).Executes i := fun len =>
    h.of_transient (by rw [crcOfBuffer_frame])
  have hlen := h.inRange
  cases i with
  | init => exact h.active_slotStart (List.cons_ne_nil _ _) (.inl rfl) rfl
  | sethi => exact h.active_slotStart (List.cons_ne_nil _ _) (.inl rfl) rfl
  | setlo => exact h.active_slotStart (List.cons_ne_nil _ _) (.inl rfl) rfl
  | ishi => exact h.active_slotStart (List.cons_ne_nil _ _) (.inl rfl) rfl
  | islo => exact h.active_slotStart (List.cons_ne_nil _ _) (.inl rfl) rfl
  | wait us => exact h.active_slotStart (List.cons_ne_nil _ _) (.inl rfl) rfl
  | reset => exact slot rfl (fun _ => rfl) (List.cons_ne_nil _ _)
  | rdbit => exact slot rfl (fun _ => rfl) (List.cons_ne_nil _ _)
  | wrbit1 => exact slot rfl (fun _ => rfl) (List.cons_ne_nil _ _)
  | wrbit0 => exact slot rfl (fun _ => rfl) (List.cons_ne_nil _ _)
  | wrbit b => exact slot rfl (fun _ => rfl) (writeSlot_ne_nil _ _)
  | rdbyte => exact byte s 0 rfl (List.cons_ne_nil _ _) rfl
  | wrbyte v => exact byte s v rfl (writeSlot_ne_nil _ _) rfl
  | rdbytes len =>
    rw [launch]
    split
    · exact (h.of_transient (t := s.startSequence) rfl).active_reply 0
    · next hne =>
      exact byte s.startSequence 0 rfl (List.cons_ne_nil _ _) (by
        simpa [countersOk, BitVec.toNat_pos, BitVec.pos_iff_ne_zero] using hne)
  | wrbytes len =>
    rw [launch]
    split
    · exact (h.of_transient (t := s.startSequence) rfl).active_reply 0
    · next hne =>
      exact byte s.startSequence _ rfl (writeSlot_ne_nil _ _) (by
        simpa [countersOk, BitVec.toNat_pos, BitVec.pos_iff_ne_zero] using hne)
  | crc8 len => exact (crc len).active_reply _
  | chkcrc len =>
    exact (crc len).active_respond (.inr rfl) (.inr rfl)
  | ldbuf idx => exact h.active_reply _
  | stbuf idx v => exact (h.memWrite (by simpa [Instr.wellFormed] using hlen) v).active_reply 0
  | getspd => exact h.active_reply _
  | setspd b =>
    exact State.Sound.active_answered (s := setspdBody b s) (h.sound.congr rfl rfl rfl) h.busy h.outOfReset rfl
      (responseOk_responseWord (.inr rfl) (.inl rfl))

/-- A slot inside a byte ends: `BITC` stays below 8, or the byte is complete. -/
theorem afterWriteSlot_active {t : State} {last : State → State} (hb : t.bitc.toNat < 8)
    (hnext : t.endSlot.bitc.toNat < 8 → t.endSlot.Active) (hlast : (last t.endSlot).Active) :
    (afterWriteSlot t last).Active := by
  rw [afterWriteSlot]
  split
  · exact hlast
  · next hne =>
    refine hnext ?_
    have h7 := mt (endSlot_bitc_eq_8 hb).2 hne
    rw [toNat_bitc_succ hb]
    omega

/-- A byte of a sequence is over: `IDX` stays below `len`, or the sequence is complete. -/
theorem endByte_active {i : Instr} {t : State} (len : BitVec 16) (v : Byte) (h : t.Executes i)
    (hlt : t.idx.toNat < len.toNat) (h256 : len.toNat ≤ 256) (hne : slotOps i (t.endByte.startByte v) ≠ [])
    (hc : t.endByte.idx.toNat < len.toNat → countersOk i (t.endByte.startByte v) = true) :
    (if t.endByte.idx.toNat = len.toNat then t.endByte.reply 0 else t.endByte.startByte v).Active := by
  split
  · exact (h.of_transient (t := t.endByte) rfl).active_reply 0
  · next hn =>
    have := toNat_endByte_idx (t := t) (by omega)
    exact (h.of_transient (t := t.endByte.startByte v) rfl).active_slotStart hne (.inr rfl) (hc (by omega))

/-- Past the last micro-operation of a slot the command answers or the next slot is in range (R24). -/
theorem endOfSlot_active {i : Instr} {t : State} (h : t.Executes i) (hne : slotOps i t ≠ [])
    (hc : countersOk i t = true) : (endOfSlot i t).Active := by
  have hlen := h.inRange
  have h256 := h.sound.params.2.2.2
  have next : ∀ u : State, u = { t with sr := u.sr } → slotOps i u.endSlot ≠ [] → countersOk i u.endSlot = true →
      u.endSlot.Active := fun u hu hne hc =>
    (h.of_transient (t := u.endSlot) (by rw [hu]; rfl)).active_slotStart hne (.inr rfl) hc
  cases i with
  | init =>
    exact State.Sound.active_answered (s := t.construct) (h.sound.congr rfl rfl rfl) h.busy h.outOfReset rfl
      (responseOk_responseWord (.inr rfl) (.inl rfl))
  | rdbyte =>
    have hb : t.bitc.toNat < 8 := by simpa [countersOk] using hc
    exact afterWriteSlot_active (t := t.shiftIn) (last := fun u => u.reply u.sr) hb
      (fun h8 => next t.shiftIn rfl (List.cons_ne_nil _ _) (decide_eq_true h8))
      ((h.of_transient (t := t.shiftIn.endSlot) rfl).active_reply _)
  | wrbyte v =>
    have hb : t.bitc.toNat < 8 := by simpa [countersOk] using hc
    exact afterWriteSlot_active (last := fun u => u.reply 0) hb
      (fun h8 => next t rfl (writeSlot_ne_nil _ _) (decide_eq_true h8))
      ((h.of_transient (t := t.endSlot) rfl).active_reply _)
  | rdbytes len =>
    obtain ⟨hb, hi⟩ : t.bitc.toNat < 8 ∧ t.idx.toNat < len.toNat := by simpa [countersOk] using hc
    have hl : len.toNat ≤ t.params.bufDepth := by simpa [Instr.wellFormed] using hlen
    have hx : t.shiftIn.endSlot.storeByte.Executes (.rdbytes len) :=
      (h.of_transient (t := t.shiftIn.endSlot) rfl).memWrite (show t.idx.toNat < _ by exact hi.trans_le hl) _
    exact afterWriteSlot_active (t := t.shiftIn) (last := afterReadByte len) hb
      (fun h8 => next t.shiftIn rfl (List.cons_ne_nil _ _) (by simp [countersOk] at h8 ⊢; exact ⟨h8, hi⟩))
      (endByte_active len 0 hx hi (hl.trans h256) (List.cons_ne_nil _ _) fun hlt => by simpa [countersOk] using hlt)
  | wrbytes len =>
    obtain ⟨hb, hi⟩ : t.bitc.toNat < 8 ∧ t.idx.toNat < len.toNat := by simpa [countersOk] using hc
    have hl : len.toNat ≤ t.params.bufDepth := by simpa [Instr.wellFormed] using hlen
    exact afterWriteSlot_active (last := afterWriteByte len) hb
      (fun h8 => next t rfl (writeSlot_ne_nil _ _) (by simp [countersOk] at h8 ⊢; exact ⟨h8, hi⟩))
      (endByte_active len _ (h.of_transient (t := t.endSlot) rfl) hi (hl.trans h256) (writeSlot_ne_nil _ _)
        fun hlt => by simpa [countersOk] using hlt)
  | crc8 len => exact absurd rfl hne
  | chkcrc len => exact absurd rfl hne
  | ldbuf idx => exact absurd rfl hne
  | stbuf idx v => exact absurd rfl hne
  | getspd => exact absurd rfl hne
  | setspd b => exact absurd rfl hne
  | _ => exact h.active_reply _

/-- An answered micro-operation changes the history, `PADOUT` and `SAMP` alone, whether it succeeds or fails (R212). -/
theorem complete_frame (op : MicroOp) (a : PinAnswer) (s : State) :
    (complete op a s).state = { s with
      history := (complete op a s).state.history, padout := (complete op a s).state.padout,
      samp := (complete op a s).state.samp } := by
  cases op <;> cases a <;> rfl

/-- The answer to a request leaves a response or the next request (R13, R24). -/
theorem answerOp_active {s : State} {op : MicroOp} (a : PinAnswer) (h : s.Inv) (ho : s.currentOp = some op) :
    (s.answerOp op a).Active := by
  obtain ⟨i, -, hx, -, hslot, hc⟩ := h.executes (running_of_currentOp ho)
  have hf := complete_frame op a s
  rw [State.answerOp, hx.decodes]
  dsimp only
  cases hq : complete op a s with
  | failed e t =>
    rw [hq, Run.state] at hf
    exact (hx.of_transient (by rw [hf])).active_pinFailure e
  | done t =>
    rw [hq, Run.state] at hf
    have hxt : (t.passOp i).Executes i := hx.of_transient (by rw [State.passOp, hf]; split <;> rfl)
    have hops : slotOps i (t.passOp i) = slotOps i s := by
      rw [State.passOp, hf]
      split <;> exact slotOps_congr i rfl rfl rfl
    have hct : countersOk i (t.passOp i) = true := by
      rw [← hc, State.passOp, hf]
      cases i <;> rfl
    have hne : slotOps i s ≠ [] := List.ne_nil_of_length_pos (Nat.zero_lt_of_lt hslot)
    dsimp only
    rw [advance]
    split
    · exact endOfSlot_active hxt (hops ▸ hne) hct
    · next hgo =>
      obtain ⟨hraw, hlt⟩ := not_or.1 hgo
      refine hxt.active ?_ hct
      have ht : slotOps i t = slotOps i s := by rw [hf]; exact slotOps_congr i rfl rfl rfl
      rw [slotIndex, if_neg hraw, hops, ← ht]
      exact Nat.lt_of_not_le hlt

/-- A word accepted by an idle block is refused or started (R93, R214). -/
theorem acceptEdge_active {s : State} (h : s.Sound) (hn : s.rsp = none) (w : Word) : (s.acceptEdge w).Active := by
  have refused : ∀ st, ((s.latch w).refuse st).Active := fun st =>
    State.Sound.active_answered (h.congr rfl rfl rfl) rfl rfl rfl (responseOk_responseWord (.inr rfl) (.inr rfl))
  cases hd : decode w with
  | error e =>
    rw [acceptEdge_of_error s hd]
    exact refused _
  | ok i =>
    rw [acceptEdge_of_ok s hd]
    obtain ⟨hr, he⟩ | ⟨st, -, -, he⟩ := checked_cases i (s.latch w) (launch i)
    · rw [he]
      exact launch_active ⟨h.congr rfl rfl rfl, rfl, rfl, hn, hd, hr⟩
    · rw [he]
      exact refused st

/-- Every edge with `rst_n = 1` keeps the invariant, whatever the inputs are. -/
theorem runEdge_inv {s : State} (h : s.Inv) (i : PortIn) : (s.runEdge i).Inv := by
  cases hb : s.busy with
  | false =>
    have hn : s.rsp = none := by
      obtain ⟨-, -, -, hbusy, -⟩ := h
      by_contra hr
      simp [hb, Option.isSome_iff_ne_none.2 hr] at hbusy
    rw [State.runEdge, if_neg (by simp [hb])]
    split
    · exact (acceptEdge_active h.sound hn i.cmdData).1
    · exact State.Sound.inv_idle (h.sound.congr rfl rfl rfl) hb hn
  | true =>
    cases hr : s.rsp with
    | some r =>
      have hrun : s.runEdge i = if i.rspReady then s.handOver else s := by simp [State.runEdge, hb, hr]
      rw [hrun]
      split
      · exact h.sound.inv_handOver h.responseOk
      · exact h
    | none =>
      obtain ⟨-, op, -, ho, -⟩ := h.executes (by simp [State.running, hb, hr])
      rw [runEdge_op i hb hr ho]
      split <;> split
      · exact (answerOp_active i.answer h ho).1
      · exact h
      · exact (answerOp_active (.ok false) h ho).1
      · exact h

/-! ### Whole commands -/

/-- A command leaves the parameters and the responses taken alone, and writes existing cells only (R20, R50). -/
theorem exec_sound {i : Instr} {s t : State} (h : s.Sound) (ht : exec i s = .next t) : t.Sound := by
  have fits : refusal i s = none → (commandRun i s).Ends fun u => u.buf.Fits s.params.bufDepth := by
    intro hr
    have hlen := (refusal_eq_none.1 hr).1
    by_cases hi : ∃ len, i = .rdbytes len
    · obtain ⟨len, rfl⟩ := hi
      exact readBytes_fits h.params.2.2.2 len.toNat (s := s.startSequence) h.buf (by
        simpa [Instr.wellFormed] using hlen)
    · have hb := commandRun_buf i s fun len he => hi ⟨len, he⟩
      cases hq : commandRun i s <;> rw [hq] at hb <;> exact (congrArg (Memory.Fits _) hb).mpr h.buf
  obtain ⟨st, -, -, he⟩ | ⟨u, es, hr, he, hq, hx, -⟩ | ⟨e, u, es, ev, hr, he, hq, hx, -⟩ := exec_cases i s <;>
    obtain rfl : _ = t := Host.Outcome.next.inj (he.symm.trans ht)
  · exact h.congr rfl rfl rfl
  · have hu := fits hr
    rw [hq] at hu
    have hlen := (refusal_eq_none.1 hr).1
    rw [commandClose_frame]
    refine ⟨hx.params ▸ h.params, ?_, hx.taken ▸ h.taken⟩
    show Memory.Fits u.params.bufDepth _
    rw [hx.params]
    dsimp only
    split
    · exact Memory.Fits.write hu (by simpa [Instr.wellFormed] using hlen) _
    · exact hu
  · have hu := fits hr
    rw [hq] at hu
    exact ⟨hx.params ▸ h.params, hx.params ▸ hu, hx.taken ▸ h.taken⟩

/-- The step on a word that is no command (R81, R82). -/
theorem commandStep_of_error {s : State} {w : Word} {rest : List Word} {e : DecodeError} (ho : s.offers = w :: rest)
    (hd : decode w = .error e) :
    s.commandStep = .next ((({ s with offers := rest } : State).latch w).refuse .illegal).handOver := by
  simp only [State.commandStep, ho, hd, deliver]

/-- The step on the word of a command (R93 to R95). -/
theorem commandStep_of_ok {s t : State} {w : Word} {rest : List Word} {i : Instr} (ho : s.offers = w :: rest)
    (hd : decode w = .ok i) (ht : exec i (({ s with offers := rest } : State).latch w) = .next t) :
    s.commandStep = .next t.handOver := by
  simp only [State.commandStep, ho, hd, ht, deliver]

/-- A step from an idle block keeps the invariant. -/
theorem commandStep_inv {s : State} (h : s.Inv) : ∃ t, s.commandStep = .next t ∧ t.Inv := by
  cases ho : s.offers with
  | nil => exact ⟨s, by simp only [State.commandStep, ho], h⟩
  | cons w rest =>
    have hu : (({ s with offers := rest } : State).latch w).Sound := h.sound.congr rfl rfl rfl
    cases hd : decode w with
    | error e =>
      exact ⟨_, commandStep_of_error ho hd, State.Sound.inv_handOver (hu.congr rfl rfl rfl)
        (responseOk_responseWord (.inr rfl) (.inr rfl))⟩
    | ok i =>
      obtain ⟨t, r, -, he, hr, hok, -⟩ := exec_answers i (({ s with offers := rest } : State).latch w)
      exact ⟨_, commandStep_of_ok ho hd he, (exec_sound hu he).inv_handOver (by simpa [hr] using hok)⟩

/-- The environment's bookkeeping does not touch the invariant. -/
theorem usedInputs_inv {s : State} (h : s.Inv) : s.usedInputs.Inv := by
  rw [State.usedInputs]
  split
  · split
    · exact h
    · split
      · exact h
      · exact h
  · exact h

/-- A step in the middle of a command is no fault and keeps the invariant. -/
theorem edgeStep_inv {s : State} (h : s.Inv) (hb : s.busy = true) : ∃ t, s.edgeStep = .next t ∧ t.Inv := by
  refine ⟨s.promptEdge, ?_, runEdge_inv (usedInputs_inv h) s.promptInputs⟩
  have hgo : (s.rsp.isNone && s.currentOp.isNone) = false := by
    cases hr : s.rsp with
    | some r => rfl
    | none =>
      obtain ⟨-, op, -, ho, -⟩ := h.executes (by simp [State.running, hb, hr])
      simp [ho]
  simp [State.edgeStep, hgo]

/-- Settles O8: an idle block takes a whole command, a busy one an edge of its command. -/
theorem everyStepKeepsTheInvariant : Obligations.EveryStepKeepsTheInvariant := by
  intro s h
  cases hb : s.busy with
  | false =>
    rw [step, if_neg (by simp [hb])]
    exact commandStep_inv h
  | true =>
    rw [step, if_pos hb]
    exact edgeStep_inv h hb

/-- Settles O9: the block after reset is idle, with the default parameters and an empty buffer. -/
theorem invariantHoldsAtReset : Obligations.InvariantHoldsAtReset :=
  State.Sound.inv_idle ⟨by decide, ⟨rfl, rfl⟩, rfl⟩ rfl rfl

end Sys2Proof.Machine

/-! ## The clocked sequencer against the whole command (spec/00_scope.md R17; spec/30_encoding.md R93, R94) -/

namespace Sys2Proof.Machine

/-- A command accepted by a running block: one edge for each event leads from its start, or from its refusal, to its
response. -/
theorem promptEdges_exec {i : Instr} {u : State} (hr : u.running = true) (hd : decode u.cmd = .ok i)
    (ha : u.params.Admissible) : ∃ (t : State) (n : Nat), exec i u = .next t ∧
      promptEdges n (checked i u (launch i)) = t ∧ t.history.length = n + u.history.length := by
  rw [exec_eq]
  cases hc : refusal i u with
  | none =>
    obtain ⟨n, hlen, hedges⟩ := promptEdges_command i u hr hd ha hc
    exact ⟨_, n, rfl, by simpa only [checked, hc] using hedges, by simpa only [checked, hc] using hlen⟩
  | some st =>
    exact ⟨u.refuse st, 0, by simp only [checked, hc], by simp only [checked, hc, promptEdges], (Nat.zero_add _).symm⟩

/-- From an offered word on: the step hands over the response `r` of a state that the edge of acceptance and one edge for
each event lead to. -/
theorem commandStep_refines {s : State} {w : Word} {rest : List Word} (hn : s.rsp = none) (ha : s.params.Admissible)
    (ho : s.offers = w :: rest) :
    ∃ (t : State) (r : Word) (n : Nat), s.commandStep = .next t.handOver ∧
      promptEdges n (({ s with offers := rest } : State).acceptEdge w) = t ∧ t.busy = true ∧ t.rsp = some r ∧
      t.history.length = n + s.history.length := by
  cases hd : decode w with
  | error e =>
    exact ⟨_, _, 0, commandStep_of_error ho hd, acceptEdge_of_error _ hd, rfl, rfl, (Nat.zero_add _).symm⟩
  | ok i =>
    have hrun : (({ s with offers := rest } : State).latch w).running = true := by
      simp [State.running, hn]
    obtain ⟨t, n, hexec, hedges, hlen⟩ := promptEdges_exec hrun hd ha
    obtain ⟨t', r, es, hexec', hr, -, -, hb, -⟩ := exec_answers i (({ s with offers := rest } : State).latch w)
    obtain rfl : t = t' := Host.Outcome.next.inj (hexec.symm.trans hexec')
    exact ⟨t, r, n, commandStep_of_ok ho hd hexec, by rw [acceptEdge_of_ok _ hd, hedges], hb, hr, hlen⟩

/-- Settles O11: the edge of acceptance, one edge for each event, and the hand-over. -/
theorem clockEdgesRefineTheCommandStep : Obligations.ClockEdgesRefineTheCommandStep := by
  intro s w rest ⟨hb, hn⟩ ha ho
  obtain ⟨t, r, n, hstep, hedges, hbt, hrt, hlen⟩ := commandStep_refines hn ha ho
  refine ⟨t.handOver, by rw [step, if_neg (by simp [hb]), hstep], ?_⟩
  have hcount : (newEvents s t.handOver).length = n := by
    simp [newEvents, hlen]
  calc promptEdges (2 + (newEvents s t.handOver).length) s
      = promptEdges (1 + n + 1) s := by rw [hcount]; congr 1; omega
    _ = promptEdges 1 (promptEdges n s.promptEdge) := by rw [promptEdges_add, promptEdges_add]; rfl
    _ = t.promptEdge := by rw [promptEdge_accept hb ho, hedges]; rfl
    _ = t.handOver := promptEdge_handOver hbt hrt

end Sys2Proof.Machine

/-! ## Every command ends (spec/00_scope.md R17; spec/60_exceptions.md R231, R236, R238) -/

namespace Sys2Proof.Machine

/-- An edge with `rst_n = 1` at which the request is not answered changes nothing (R231, R236). -/
theorem runEdge_unanswered {s : State} {op : MicroOp} (i : PortIn) (ho : s.currentOp = some op)
    (hno : ¬ if op.isPin then i.pinAck = true else i.dlyDone = true) : s.runEdge i = s := by
  obtain ⟨hb, hn⟩ : s.busy = true ∧ s.rsp = none := by simpa [State.running] using running_of_currentOp ho
  rw [runEdge_op i hb hn ho]
  cases hp : op.isPin <;> simp [hp] at hno <;> simp [hno]

/-- An edge with `rst_n = 1` at which the request is answered performs the micro-operation. -/
theorem runEdge_answered {s : State} {op : MicroOp} (i : PortIn) (ho : s.currentOp = some op)
    (hyes : if op.isPin then i.pinAck = true else i.dlyDone = true) : ∃ a, s.runEdge i = s.answerOp op a := by
  obtain ⟨hb, hn⟩ : s.busy = true ∧ s.rsp = none := by simpa [State.running] using running_of_currentOp ho
  rw [runEdge_op i hb hn ho]
  cases hp : op.isPin
  · exact ⟨.ok false, by simp_all⟩
  · exact ⟨i.answer, by simp_all⟩

/-- A request that is answered `d` edges later, with no hardware reset before, takes effect at one of these edges. -/
theorem edges_answered {s : State} {inputs : Nat → PortIn} (hrst : ∀ n, (inputs n).rstN = true) {op : MicroOp} (d : Nat)
    {n : Nat} (ho : (s.edges inputs n).currentOp = some op)
    (hans : if op.isPin then (inputs (n + d)).pinAck = true else (inputs (n + d)).dlyDone = true) :
    ∃ m a, s.edges inputs m = (s.edges inputs n).answerOp op a := by
  have hedge : ∀ n, s.edges inputs (n + 1) = (s.edges inputs n).runEdge (inputs n) := fun n => by
    rw [State.edges, State.clockEdge, if_pos (hrst n)]
  induction d generalizing n with
  | zero =>
    obtain ⟨a, ha⟩ := runEdge_answered (inputs n) ho hans
    exact ⟨n + 1, a, (hedge n).trans ha⟩
  | succ d ih =>
    by_cases hnow : if op.isPin then (inputs n).pinAck = true else (inputs n).dlyDone = true
    · obtain ⟨a, ha⟩ := runEdge_answered (inputs n) ho hnow
      exact ⟨n + 1, a, (hedge n).trans ha⟩
    · have hsame : s.edges inputs (n + 1) = s.edges inputs n := (hedge n).trans (runEdge_unanswered (inputs n) ho hnow)
      rw [← hsame]
      exact ih (n := n + 1) (by rw [hsame, ho]) (by rwa [Nat.add_right_comm, Nat.add_assoc])

/-- A command in progress comes to a response: each answer leaves fewer answers to come. -/
theorem edges_respond {s : State} {inputs : Nat → PortIn} (hrst : ∀ n, (inputs n).rstN = true)
    (hduty : CapabilitiesAnswer inputs s) (k : Nat) {n : Nat} (h : (s.edges inputs n).Active)
    (hk : (s.edges inputs n).answersLeft < k) :
    ∃ m, (s.edges inputs m).Active ∧ (s.edges inputs m).rsp.isSome = true := by
  induction k generalizing n with
  | zero => omega
  | succ k ih =>
    obtain ⟨hinv, hb⟩ := h
    cases hr : (s.edges inputs n).rsp with
    | some r => exact ⟨n, ⟨hinv, hb⟩, by simp [hr]⟩
    | none =>
      obtain ⟨-, op, -, ho, -⟩ := hinv.executes (by simp [State.running, hb, hr])
      obtain ⟨m, hle, hans⟩ := hduty n op ho
      obtain ⟨d, rfl⟩ := Nat.exists_eq_add_of_le hle
      obtain ⟨m, a, ha⟩ := edges_answered hrst d ho (hans.resolve_left (by simp [hrst]))
      have hactive := answerOp_active a hinv ho
      rw [← ha] at hactive
      obtain hdone | hless := answerOp_progress a hinv ho
      · exact ⟨m, hactive, ha ▸ hdone⟩
      · rw [← ha] at hless
        exact ih hactive (by omega)

/-- Settles O18, by the number of answers that the sequencing registers still leave. -/
theorem commandsEndWhenTheCapabilitiesAnswer : Obligations.CommandsEndWhenTheCapabilitiesAnswer := by
  intro s inputs hinv hb hrst hduty
  obtain ⟨n, ⟨hn, hbn⟩, hsome⟩ := edges_respond hrst hduty _ (n := 0) ⟨hinv, hb⟩ (Nat.lt_succ_self _)
  obtain ⟨r, hr⟩ := Option.isSome_iff_exists.1 hsome
  exact ⟨n, r, hr, hbn, by simpa [hr] using hn.responseOk⟩

end Sys2Proof.Machine

/-! ## Hardware reset and the invariant at every clock edge (spec/10_state.md R35, R45; spec/70_reset_and_hazards.md R250) -/

namespace Sys2Proof.Machine

/-! ### An edge with `rst_n = 0` -/

theorem clockEdge_of_reset (s : State) {i : PortIn} (h : i.rstN = false) : s.clockEdge i = s.hardwareReset := by
  simp [State.clockEdge, h]

theorem clockEdge_of_run (s : State) {i : PortIn} (h : i.rstN = true) : s.clockEdge i = s.runEdge i := by
  simp [State.clockEdge, h]

/-- Dropping cells keeps the canonical form and the bound of R50. -/
theorem Memory.Fits.filter {depth : Nat} {m : Memory} (h : m.Fits depth) (p : Host.Cell → Bool) :
    Memory.Fits depth (m.filter p) := by
  refine ⟨Memory.wf_filter m p h.1, List.all_eq_true.2 fun c hc => ?_⟩
  exact List.all_eq_true.1 h.2 c (List.mem_of_mem_filter hc)

/-- Hardware reset drops cells and puts the block idle, so it keeps the invariant. -/
theorem hardwareReset_inv {s : State} (h : s.Inv) : s.hardwareReset.Inv :=
  State.Sound.inv_idle ⟨h.sound.params, h.sound.buf.filter _, h.sound.taken⟩ rfl rfl

/-- Settles O10: an edge is an edge of a hardware reset or one of the running block. -/
theorem everyClockEdgeKeepsTheInvariant : Obligations.EveryClockEdgeKeepsTheInvariant := by
  intro s i h
  cases hr : i.rstN with
  | false => exact clockEdge_of_reset s hr ▸ hardwareReset_inv h
  | true => exact clockEdge_of_run s hr ▸ runEdge_inv h i

/-! ### What reset leaves -/

/-- Settles O12: the reset state has no cell, no offer and R6's default parameters. -/
theorem resetLeavesAnIdleUnconstructedBlock : Obligations.ResetLeavesAnIdleUnconstructedBlock := by
  refine ⟨rfl, rfl, rfl, rfl, rfl, fun a => rfl, ?_, rfl⟩
  exact invariantHoldsAtReset.sound.params

/-- An idle block with no response pending drives no request on any port. -/
theorem outputs_of_idle {s : State} (h : s.Idle) :
    s.outputs = { cmdReady := true, rsp := none, pin := none, dly := none } := by
  obtain ⟨hb, hr⟩ := h
  simp [State.outputs, State.currentOp, State.running, hb, hr]

/-- The first edge of a hardware reset of an idle block leaves `PADOUT` unknown (R35; log entry 9). -/
theorem padAfterReset_of_idle {s : State} (hb : s.busy = false) (hi : s.inReset = false) :
    s.padAfterReset = .unknown := by
  simp [State.padAfterReset, State.stillReset, hb, hi]

/-- Several edges on end with `rst_n = 0` are one hardware reset (log entry 22). -/
theorem hardwareReset_hardwareReset (s : State) : s.hardwareReset.hardwareReset = s.hardwareReset := by
  have hbuf : (s.hardwareReset.buf.filter fun c => s.hardwareReset.stillReset || s.hardwareReset.wroteCell c.1) =
      s.hardwareReset.buf := by simp
  have hpad : s.hardwareReset.padAfterReset = s.hardwareReset.padout := by simp [State.padAfterReset]
  rw [State.hardwareReset, hbuf, hpad]
  rfl

/-- An idle block to which no command is offered is out of reset after an edge with `rst_n = 1` and otherwise as it was. -/
theorem runEdge_of_idle {s : State} (hb : s.busy = false) {i : PortIn} (hv : i.cmdValid = false) :
    s.runEdge i = { s with inReset := false } := by
  simp [State.runEdge, hb, hv]

/-- Settles O13: an edge with `rst_n = 0` is a hardware reset, which leaves the block idle. -/
theorem hardwareResetPutsTheBlockIdle : Obligations.HardwareResetPutsTheBlockIdle := by
  intro s i hi
  rw [clockEdge_of_reset s hi]
  refine ⟨rfl, rfl, rfl, outputs_of_idle ⟨rfl, rfl⟩, padAfterReset_of_idle, rfl, fun j hj => ?_, fun j hj hv => ?_⟩
  · rw [clockEdge_of_reset _ hj, hardwareReset_hardwareReset]
  · rw [clockEdge_of_run _ hj, runEdge_of_idle rfl hv]

/-! ### RESET, one edge at a time -/

theorem decode_reset : decode 0x07000000#32 = .ok .reset := by decide

/-- A running RESET requests the micro-operation of the reset sequence that `PHASE` names (R24, R121). -/
theorem currentOp_of_reset {s : State} (hr : s.running = true) (hd : decode s.cmd = .ok .reset) :
    s.currentOp = (resetSequence s.params)[s.phase.toNat]? := by
  rw [State.currentOp, if_pos hr, hd]
  rfl

/-- The answer to the last wait of RESET ends the command with the complement of `SAMP` (R121; log entries 8, 12). -/
theorem answerOp_lastWait_of_reset {s : State} (hd : decode s.cmd = .ok .reset) (hp : s.phase = 6) (n : Us)
    (a : PinAnswer) : s.answerOp (.wait n) a =
      { s with history := .waited n :: s.history, phase := 7, rsp := some (responseWord .ok 0 (boolByte !s.samp)) } := by
  have hphase : ((s.log (.waited n)).passOp .reset).phase = 7 := by
    simp [State.passOp, isRaw, hp]
  have hadvance : advance .reset (s.log (.waited n)) = endOfSlot .reset ((s.log (.waited n)).passOp .reset) := by
    rw [advance, if_pos (.inr (hphase ▸ length_slotOps .reset _))]
  simp only [State.answerOp, hd, complete, hadvance]
  simp [endOfSlot, State.passOp, isRaw, State.nextPhase, State.log, State.reply, State.respond, hp]

/-- Settles O20, at each value of `PHASE`. -/
theorem resetPhasesRequestTheirMicroOperation : Obligations.ResetPhasesRequestTheirMicroOperation := by
  intro s hr hcmd
  have hd : decode s.cmd = .ok .reset := hcmd ▸ decode_reset
  have hop : ∀ p : BitVec 4, s.phase = p → s.currentOp = (resetSequence s.params)[p.toNat]? :=
    fun p hp => hp ▸ currentOp_of_reset hr hd
  refine ⟨fun hp => ⟨hp ▸ rfl, hop _ hp⟩, fun hp => ⟨hp ▸ rfl, hop _ hp⟩, fun hp => ⟨hp ▸ rfl, hop _ hp⟩,
    fun hp => ⟨hp ▸ rfl, hop _ hp⟩, fun hp => ⟨hp ▸ rfl, hop _ hp⟩, fun hp => ⟨hp ▸ rfl, hop _ hp⟩,
    fun hp => ⟨hp ▸ rfl, hop _ hp, fun i hi hdone => ?_⟩⟩
  have hwait : s.currentOp = some (.wait s.params.std.J) := hop _ hp
  obtain ⟨hb, hn⟩ : s.busy = true ∧ s.rsp = none := by simpa [State.running] using hr
  have hedge : s.clockEdge i = s.answerOp (.wait s.params.std.J) (.ok false) := by
    rw [clockEdge_of_run s hi, runEdge_op i hb hn hwait]
    simp [MicroOp.isPin, hdone]
  rw [hedge, answerOp_lastWait_of_reset hd hp]
  exact ⟨rfl, rfl, rfl⟩

end Sys2Proof.Machine

/-! ## The line between commands (spec/10_state.md R35, R36) -/

namespace Sys2Proof.Machine

/-! ### `PADOUT` after a procedure that succeeds -/

/-- A procedure that runs to its end leaves `PADOUT` at `pad`. -/
def Run.LeavesPad (pad : PadOut) : Run → Prop
  | .done t => t.padout = pad
  | .failed _ _ => True

theorem Run.LeavesPad.andThen {pad pad' : PadOut} {r : Run} {k : State → Run} (h : r.LeavesPad pad)
    (hk : ∀ t, t.padout = pad → (k t).LeavesPad pad') : (r.andThen k).LeavesPad pad' := by
  cases r with
  | done t => exact hk t h
  | failed e t => trivial

/-- `PADOUT` after a micro-operation that succeeds (R35); the level of a sample does not touch it. -/
def padAfterOp (pad : PadOut) (op : MicroOp) : PadOut := padAfter pad (eventOf op (.ok false))

theorem complete_leavesPad (op : MicroOp) (a : PinAnswer) (s : State) :
    (complete op a s).LeavesPad (padAfterOp s.padout op) := by
  cases op <;> cases a <;> first | rfl | trivial

theorem perform_leavesPad (op : MicroOp) (s : State) : (perform op s).LeavesPad (padAfterOp s.padout op) := by
  unfold perform
  split
  · exact complete_leavesPad op _ { s with oracle := s.oracle.next.2 }
  · exact complete_leavesPad op _ s

theorem runSlot_leavesPad (ops : List MicroOp) (s : State) :
    (runSlot ops s).LeavesPad (ops.foldl padAfterOp s.padout) := by
  induction ops generalizing s with
  | nil => exact (rfl : s.padout = s.padout)
  | cons op ops ih =>
    refine (perform_leavesPad op s).andThen fun t ht => ?_
    rw [List.foldl_cons, ← ht]
    exact ih t.nextPhase

/-- A read slot releases the line before it samples (R133). -/
theorem readBit_leavesPad (s : State) : (readBit s).LeavesPad .released := runSlot_leavesPad (readSlot s.params) s

/-- A write slot of either bit ends with the line released (R133). -/
theorem writeBit_leavesPad (b : Bool) (s : State) : (writeBit b s).LeavesPad .released := by
  cases b
  · exact runSlot_leavesPad (writeSlot0 s.params) s
  · exact runSlot_leavesPad (writeSlot1 s.params) s

theorem readBits_leavesPad (n : Nat) {s : State} (h : s.padout = .released) : (readBits n s).LeavesPad .released := by
  induction n generalizing s with
  | zero => exact h
  | succ n ih => exact (readBit_leavesPad s).andThen fun t ht => ih (s := t.shiftIn.endSlot) ht

theorem writeBits_leavesPad (n : Nat) {s : State} (h : s.padout = .released) :
    (writeBits n s).LeavesPad .released := by
  induction n generalizing s with
  | zero => exact h
  | succ n ih => exact (writeBit_leavesPad _ s).andThen fun t ht => ih (s := t.endSlot) ht

theorem readBytes_leavesPad (n : Nat) {s : State} (h : s.padout = .released) :
    (readBytes n s).LeavesPad .released := by
  induction n generalizing s with
  | zero => exact h
  | succ n ih =>
    exact (readBits_leavesPad 8 (s := s.startByte 0) h).andThen fun t ht => ih (s := t.storeByte.endByte) ht

theorem writeBytes_leavesPad (n : Nat) {s : State} (h : s.padout = .released) :
    (writeBytes n s).LeavesPad .released := by
  induction n generalizing s with
  | zero => exact h
  | succ n ih =>
    exact (writeBits_leavesPad 8 (s := s.startByte _) h).andThen fun t ht => ih (s := t.endByte) ht

/-! ### `PADOUT` after a command that succeeds -/

/-- Every command but SETLO leaves a released line released: it drives nothing, or its last drive is a release. -/
theorem commandRun_leavesPad {i : Instr} {s : State} (hi : i ≠ .setlo) (h : s.padout = .released) :
    (commandRun i s).LeavesPad .released := by
  cases i with
  | setlo => exact absurd rfl hi
  | init => exact perform_leavesPad .high s
  | sethi => exact perform_leavesPad .high s
  | ishi => exact h ▸ perform_leavesPad .sample s
  | islo => exact h ▸ perform_leavesPad .sample s
  | wait us => exact h ▸ perform_leavesPad (.wait us) s
  | reset => exact runSlot_leavesPad (resetSequence s.params) s.startSlot
  | rdbit => exact readBit_leavesPad s.startSlot
  | wrbit1 => exact writeBit_leavesPad true s.startSlot
  | wrbit0 => exact writeBit_leavesPad false s.startSlot
  | wrbit b => exact writeBit_leavesPad b s.startSlot
  | rdbyte => exact readBits_leavesPad 8 (s := s.startByte 0) h
  | wrbyte v => exact writeBits_leavesPad 8 (s := s.startByte v) h
  | rdbytes len => exact readBytes_leavesPad _ (s := s.startSequence) h
  | wrbytes len => exact writeBytes_leavesPad _ (s := s.startSequence) h
  | _ => exact h

/-- The end of a command touches no pad. -/
@[simp] theorem commandClose_padout (i : Instr) (t : State) : (commandClose i t).padout = t.padout := by
  rw [commandClose_frame]

/-- Settles O50: a command that ends with `OK` has performed all its micro-operations, of which the last drive counts. -/
theorem commandsLeaveTheLineReleased : Obligations.CommandsLeaveTheLineReleased := by
  intro i s t ht hok
  obtain ⟨u, -, -, hd, rfl, -, -⟩ := exec_ok_cases ht hok
  rw [commandClose_padout]
  refine ⟨?_, fun hi h => ?_⟩
  · rintro rfl
    have hpad : (commandRun .setlo s).LeavesPad .low := perform_leavesPad .low s
    rwa [hd] at hpad
  · have hpad := commandRun_leavesPad hi h
    rwa [hd] at hpad

end Sys2Proof.Machine

/-! ## Which command writes which register (spec/10_state.md R20) -/

namespace Sys2Proof.Machine

/-! ### What a procedure leaves alone: `SAMP` without a sample, `SR` outside a byte -/

theorem Run.ends_iff {P : State → Prop} {r : Run} : r.Ends P ↔ P r.state := by
  cases r <;> exact Iff.rfl

theorem perform_samp {op : MicroOp} (hop : op ≠ .sample) {l : Bool} {s : State} (h : s.samp = l) :
    (perform op s).Ends fun t => t.samp = l := by
  unfold perform
  cases op with
  | sample => exact absurd rfl hop
  | wait n => exact h
  | low => cases s.oracle.next.1 <;> exact h
  | high => cases s.oracle.next.1 <;> exact h

theorem runSlot_samp {ops : List MicroOp} (hops : .sample ∉ ops) {l : Bool} {s : State} (h : s.samp = l) :
    (runSlot ops s).Ends fun t => t.samp = l := by
  induction ops generalizing s with
  | nil => exact h
  | cons op ops ih =>
    obtain ⟨hop, hrest⟩ := List.ne_and_not_mem_of_not_mem_cons hops
    exact (perform_samp hop.symm h).andThen fun t ht => ih hrest (s := t.nextPhase) ht

theorem sample_notMem_writeSlot (p : Params) (b : Bool) : .sample ∉ writeSlot p b := by
  cases b <;> simp [writeSlot, writeSlot0, writeSlot1]

theorem writeBits_samp (n : Nat) {l : Bool} {s : State} (h : s.samp = l) :
    (writeBits n s).Ends fun t => t.samp = l := by
  induction n generalizing s with
  | zero => exact h
  | succ n ih =>
    exact (runSlot_samp (sample_notMem_writeSlot _ _) h).andThen fun t ht => ih (s := t.endSlot) ht

theorem writeBytes_samp (n : Nat) {l : Bool} {s : State} (h : s.samp = l) :
    (writeBytes n s).Ends fun t => t.samp = l := by
  induction n generalizing s with
  | zero => exact h
  | succ n ih =>
    exact (writeBits_samp 8 (s := s.startByte _) h).andThen fun t ht => ih (s := t.endByte) ht

/-- The commands that sample (R20, `SAMP`). -/
def Samples (i : Instr) : Prop :=
  i = .ishi ∨ i = .islo ∨ i = .reset ∨ i = .rdbit ∨ i = .rdbyte ∨ ∃ len, i = .rdbytes len

/-- The byte commands (R20, `SR`). -/
def UsesShiftRegister (i : Instr) : Prop :=
  i = .rdbyte ∨ (∃ v, i = .wrbyte v) ∨ (∃ len, i = .rdbytes len) ∨ ∃ len, i = .wrbytes len

theorem commandRun_samp {i : Instr} (hi : ¬ Samples i) (s : State) :
    (commandRun i s).Ends fun t => t.samp = s.samp := by
  have slot : ∀ b, (runSlot (writeSlot s.params b) s.startSlot).Ends fun t => t.samp = s.samp :=
    fun b => runSlot_samp (sample_notMem_writeSlot _ b) rfl
  cases i with
  | init => exact perform_samp (op := .high) nofun rfl
  | sethi => exact perform_samp (op := .high) nofun rfl
  | setlo => exact perform_samp (op := .low) nofun rfl
  | wait us => exact perform_samp (op := .wait us) nofun rfl
  | wrbit1 => exact slot true
  | wrbit0 => exact slot false
  | wrbit b => exact slot b
  | wrbyte v => exact writeBits_samp 8 (s := s.startByte v) rfl
  | wrbytes len => exact writeBytes_samp _ (s := s.startSequence) rfl
  | ishi | islo | reset | rdbit | rdbyte | rdbytes len => exact absurd (by simp [Samples]) hi
  | _ => exact rfl

theorem commandRun_sr {i : Instr} (hi : ¬ UsesShiftRegister i) (s : State) :
    (commandRun i s).Ends fun t => t.sr = s.sr := by
  have raw : ∀ op, (perform op s).Ends fun t => t.sr = s.sr := fun op => by
    rw [Run.ends_iff, (perform_frame op s).1]
  have slot : ∀ ops, (runSlot ops s.startSlot).Ends fun t => t.sr = s.sr := fun ops => by
    obtain ⟨-, hsr, -⟩ := Run.ends_iff.1 (runSlot_keeps ops s.startSlot)
    exact Run.ends_iff.2 hsr
  cases i with
  | init | sethi | setlo | ishi | islo | wait us => exact raw _
  | reset | rdbit | wrbit1 | wrbit0 | wrbit b => exact slot _
  | rdbyte | wrbyte v | rdbytes len | wrbytes len => exact absurd (by simp [UsesShiftRegister]) hi
  | _ => exact rfl

/-! ### The column "written by" of R20 -/

/-- From `s` to `t` only registers that command `i` may write have changed. -/
structure Writes (i : Instr) (s t : State) : Prop where
  params : t.params = s.params
  era : t.era = s.era
  inReset : t.inReset = s.inReset
  busy : t.busy = s.busy
  cmd : t.cmd = s.cmd
  offers : t.offers = s.offers
  taken : t.taken = s.taken
  constructed : t.constructed ≠ s.constructed → i = .init ∧ t.constructed = true
  speed : t.speed ≠ s.speed → (i = .init ∧ t.speed = .standard) ∨ ∃ b, i = .setspd b
  buf : t.buf ≠ s.buf → (∃ idx v, i = .stbuf idx v) ∨ ∃ len, i = .rdbytes len
  sr : t.sr ≠ s.sr → UsesShiftRegister i
  samp : t.samp ≠ s.samp → Samples i
  crc : t.crc ≠ s.crc → (∃ len, i = .crc8 len) ∨ ∃ len, i = .chkcrc len

theorem Writes.trans {i : Instr} {s t u : State} (h : Writes i s t) (g : Writes i t u) : Writes i s u where
  params := g.params.trans h.params
  era := g.era.trans h.era
  inReset := g.inReset.trans h.inReset
  busy := g.busy.trans h.busy
  cmd := g.cmd.trans h.cmd
  offers := g.offers.trans h.offers
  taken := g.taken.trans h.taken
  constructed hne := by
    by_cases hu : u.constructed = t.constructed
    · rw [hu] at hne ⊢
      exact h.constructed hne
    · exact g.constructed hu
  speed hne := by
    by_cases hu : u.speed = t.speed
    · rw [hu] at hne ⊢
      exact h.speed hne
    · exact g.speed hu
  buf hne := (hne.ne_or_ne t.buf).elim g.buf fun hs => h.buf hs.symm
  sr hne := (hne.ne_or_ne t.sr).elim g.sr fun hs => h.sr hs.symm
  samp hne := (hne.ne_or_ne t.samp).elim g.samp fun hs => h.samp hs.symm
  crc hne := (hne.ne_or_ne t.crc).elim g.crc fun hs => h.crc hs.symm

/-- A response is no register of R20. -/
theorem respond_writes (i : Instr) (s : State) (st : Status) (e d : Byte) : Writes i s (s.respond st e d) :=
  ⟨rfl, rfl, rfl, rfl, rfl, rfl, rfl, absurd rfl, absurd rfl, absurd rfl, absurd rfl, absurd rfl, absurd rfl⟩

theorem commandRun_writes (i : Instr) (s : State) : Writes i s (commandRun i s).state := by
  obtain ⟨es, hx⟩ : ∃ es, Extends s (commandRun i s).state es := by
    have hgood := commandRun_good i s
    cases hq : commandRun i s with
    | done t =>
      rw [hq] at hgood
      obtain ⟨es, hx, -⟩ := hgood
      exact ⟨es, hx⟩
    | failed e t =>
      rw [hq] at hgood
      obtain ⟨es, ev, hx, -⟩ := hgood
      exact ⟨es ++ [ev], hx⟩
  refine ⟨hx.params, hx.era, hx.inReset, hx.busy, hx.cmd, hx.offers, hx.taken, absurd hx.constructed,
    absurd hx.speed, fun h => .inr ?_, fun h => ?_, fun h => ?_, absurd hx.crc⟩
  · by_contra hi
    exact h (Run.ends_iff.1 (commandRun_buf i s fun len he => hi ⟨len, he⟩))
  · by_contra hi
    exact h (Run.ends_iff.1 (commandRun_sr hi s))
  · by_contra hi
    exact h (Run.ends_iff.1 (commandRun_samp hi s))

theorem commandClose_writes (i : Instr) (t : State) : Writes i t (commandClose i t) := by
  rw [commandClose_frame]
  refine ⟨rfl, rfl, rfl, rfl, rfl, rfl, rfl, fun h => ?_, fun h => ?_, fun h => ?_, absurd rfl, absurd rfl, fun h => ?_⟩
  · by_cases hi : i = .init
    · exact ⟨hi, if_pos hi⟩
    · exact absurd (if_neg hi) h
  · cases i <;> simp at h ⊢
  · cases i <;> simp at h ⊢
  · cases i <;> simp at h ⊢

theorem exec_writes {i : Instr} {s t : State} (ht : exec i s = .next t) : Writes i s t := by
  have hrun := commandRun_writes i s
  obtain ⟨st, -, -, h⟩ | ⟨u, es, -, h, hq, -, -⟩ | ⟨e, u, es, ev, -, h, hq, -, -, -⟩ := exec_cases i s <;>
    obtain rfl : _ = t := Host.Outcome.next.inj (h.symm.trans ht)
  · exact respond_writes i s st 0 0
  · rw [hq] at hrun
    exact hrun.trans (commandClose_writes i u)
  · rw [hq] at hrun
    exact hrun.trans (respond_writes i u .pinError e 0)

/-- Settles O53: the micro-operations and the end of a command each write only what R20 lists. -/
theorem onlyTheListedCommandsWriteEachRegister : Obligations.OnlyTheListedCommandsWriteEachRegister := by
  intro i s t ht
  obtain ⟨hp, he, hreset, hb, hc, ho, hta, hcon, hsp, hbuf, hsr, hsamp, hcrc⟩ := exec_writes ht
  exact ⟨hp, he, hreset, hb, hc, ho, hta, hcon, hsp, hbuf, hsr, hsamp, hcrc⟩

end Sys2Proof.Machine

/-! ## Noninterference: `SPEED`, the Overdrive table and the transient registers (spec/10_state.md R20, R31, R41)

A register map changes registers that no micro-operation reads. Where a command writes one of them, the map becomes the
identity on it, so the run from a mapped state follows the run from the state itself by ever narrower maps. -/

namespace Sys2Proof.Machine

/-! ### Register maps -/

/-- A change of the transient registers (R20), of `SPEED` (R30) and of the Overdrive table (R12). -/
structure RegMap where
  cmd : Word → Word := id
  phase : BitVec 4 → BitVec 4 := id
  bitc : BitVec 4 → BitVec 4 := id
  idx : BitVec 9 → BitVec 9 := id
  sr : Byte → Byte := id
  samp : Bool → Bool := id
  crc : Byte → Byte := id
  speed : Speed → Speed := id
  od : TimingTable → TimingTable := id

/-- The state with its registers changed. -/
def State.mapRegs (f : RegMap) (s : State) : State :=
  { s with
    cmd := f.cmd s.cmd, phase := f.phase s.phase, bitc := f.bitc s.bitc, idx := f.idx s.idx, sr := f.sr s.sr,
    samp := f.samp s.samp, crc := f.crc s.crc, speed := f.speed s.speed
    params := { s.params with od := f.od s.params.od } }

/-- `g` changes no register that `f` does not change, and treats alike what no command writes: `CMD` and the table. -/
structure RegMap.Narrows (g f : RegMap) : Prop where
  cmd : g.cmd = f.cmd
  od : g.od = f.od
  phase : f.phase = id → g.phase = id
  bitc : f.bitc = id → g.bitc = id
  idx : f.idx = id → g.idx = id
  sr : f.sr = id → g.sr = id
  samp : f.samp = id → g.samp = id
  crc : f.crc = id → g.crc = id
  speed : f.speed = id → g.speed = id

theorem RegMap.Narrows.refl (f : RegMap) : f.Narrows f := ⟨rfl, rfl, id, id, id, id, id, id, id⟩

theorem RegMap.Narrows.trans {f g h : RegMap} (a : h.Narrows g) (b : g.Narrows f) : h.Narrows f where
  cmd := a.cmd.trans b.cmd
  od := a.od.trans b.od
  phase := a.phase ∘ b.phase
  bitc := a.bitc ∘ b.bitc
  idx := a.idx ∘ b.idx
  sr := a.sr ∘ b.sr
  samp := a.samp ∘ b.samp
  crc := a.crc ∘ b.crc
  speed := a.speed ∘ b.speed

/-- The map once a sample has written `SAMP`. -/
def RegMap.sampled (f : RegMap) : RegMap := { f with samp := id }

/-- The map once a slot or the reset sequence has begun. -/
def RegMap.slotStarted (f : RegMap) : RegMap := { f with phase := id }

/-- The map once a byte has begun. -/
def RegMap.byteStarted (f : RegMap) : RegMap := { f with sr := id, bitc := id, phase := id }

/-- The map once a sequence has begun. -/
def RegMap.sequenceStarted (f : RegMap) : RegMap := { f with idx := id }

/-- The map once a checksum has begun. -/
def RegMap.checksumStarted (f : RegMap) : RegMap := { f with crc := id, idx := id }

/-- The map once `SPEED` has been written. -/
def RegMap.speedSet (f : RegMap) : RegMap := { f with speed := id }

theorem RegMap.sampled_narrows (f : RegMap) : f.sampled.Narrows f :=
  ⟨rfl, rfl, id, id, id, id, fun _ => rfl, id, id⟩

theorem RegMap.slotStarted_narrows (f : RegMap) : f.slotStarted.Narrows f :=
  ⟨rfl, rfl, fun _ => rfl, id, id, id, id, id, id⟩

theorem RegMap.byteStarted_narrows (f : RegMap) : f.byteStarted.Narrows f :=
  ⟨rfl, rfl, fun _ => rfl, fun _ => rfl, id, fun _ => rfl, id, id, id⟩

theorem RegMap.sequenceStarted_narrows (f : RegMap) : f.sequenceStarted.Narrows f :=
  ⟨rfl, rfl, id, id, fun _ => rfl, id, id, id, id⟩

theorem RegMap.checksumStarted_narrows (f : RegMap) : f.checksumStarted.Narrows f :=
  ⟨rfl, rfl, id, id, fun _ => rfl, id, id, fun _ => rfl, id⟩

theorem RegMap.speedSet_narrows (f : RegMap) : f.speedSet.Narrows f :=
  ⟨rfl, rfl, id, id, id, id, id, id, fun _ => rfl⟩

/-- A map that leaves alone the registers that the slots of a byte read. -/
structure RegMap.SparesByte (f : RegMap) : Prop where
  phase : f.phase = id
  bitc : f.bitc = id
  sr : f.sr = id

theorem RegMap.SparesByte.narrow {f g : RegMap} (h : f.SparesByte) (hg : g.Narrows f) : g.SparesByte :=
  ⟨hg.phase h.phase, hg.bitc h.bitc, hg.sr h.sr⟩

theorem RegMap.byteStarted_sparesByte (f : RegMap) : f.byteStarted.SparesByte := ⟨rfl, rfl, rfl⟩

/-! ### Updates of the sequencing registers under a map -/

theorem nextPhase_mapRegs {f : RegMap} (hp : f.phase = id) (s : State) :
    (s.mapRegs f).nextPhase = s.nextPhase.mapRegs f := by
  simp [State.mapRegs, State.nextPhase, hp]

theorem endSlot_mapRegs {f : RegMap} (h : f.SparesByte) (s : State) :
    (s.mapRegs f).endSlot = s.endSlot.mapRegs f := by
  simp [State.mapRegs, State.endSlot, h.phase, h.bitc]

theorem shiftIn_mapRegs {f : RegMap} (h : f.SparesByte) (hs : f.samp = id) (s : State) :
    (s.mapRegs f).shiftIn = s.shiftIn.mapRegs f := by
  simp [State.mapRegs, State.shiftIn, h.sr, hs]

theorem endByte_mapRegs {f : RegMap} (hb : f.bitc = id) (hi : f.idx = id) (s : State) :
    (s.mapRegs f).endByte = s.endByte.mapRegs f := by
  simp [State.mapRegs, State.endByte, hb, hi]

theorem storeByte_mapRegs {f : RegMap} (hs : f.sr = id) (hi : f.idx = id) (s : State) :
    (s.mapRegs f).storeByte = s.storeByte.mapRegs f := by
  simp [State.mapRegs, State.storeByte, State.memWrite, hs, hi]

/-! ### Runs under a map -/

/-- `r'` comes to what `r` comes to, with the registers changed by a narrower map than `f`, one with `Q` on success. -/
def Run.Follows (f : RegMap) (Q : RegMap → Prop) : Run → Run → Prop
  | .done t, r' => ∃ g : RegMap, g.Narrows f ∧ Q g ∧ r' = .done (t.mapRegs g)
  | .failed e t, r' => ∃ g : RegMap, g.Narrows f ∧ r' = .failed e (t.mapRegs g)

theorem Run.Follows.imp {f f' : RegMap} {Q Q' : RegMap → Prop} {r r' : Run} (h : r.Follows f Q r')
    (hf : f.Narrows f') (hq : ∀ g : RegMap, g.Narrows f → Q g → Q' g) : r.Follows f' Q' r' := by
  cases r with
  | done t =>
    obtain ⟨g, hg, hQ, he⟩ := h
    exact ⟨g, hg.trans hf, hq g hg hQ, he⟩
  | failed e t =>
    obtain ⟨g, hg, he⟩ := h
    exact ⟨g, hg.trans hf, he⟩

theorem Run.Follows.andThen {f : RegMap} {Q Q' : RegMap → Prop} {r r' : Run} {k : State → Run} (h : r.Follows f Q r')
    (hk : ∀ (t : State) (g : RegMap), g.Narrows f → Q g → (k t).Follows g Q' (k (t.mapRegs g))) :
    (r.andThen k).Follows f Q' (r'.andThen k) := by
  cases r with
  | done t =>
    obtain ⟨g, hg, hQ, rfl⟩ := h
    exact (hk t g hg hQ).imp hg fun _ _ => id
  | failed e t =>
    obtain ⟨g, hg, rfl⟩ := h
    exact ⟨g, hg, rfl⟩

theorem Run.Follows.finish {f : RegMap} {Q : RegMap → Prop} {r r' : Run} {close : State → State}
    (h : r.Follows f Q r')
    (hc : ∀ (t : State) (g : RegMap), Q g → ∃ g' : RegMap, g'.Narrows g ∧ close (t.mapRegs g) = (close t).mapRegs g') :
    ∃ g : RegMap, g.Narrows f ∧ r'.finish close = (r.finish close).mapRegs g := by
  cases r with
  | done t =>
    obtain ⟨g, hg, hQ, rfl⟩ := h
    obtain ⟨g', hg', he⟩ := hc t g hQ
    exact ⟨g', hg'.trans hg, he⟩
  | failed e t =>
    obtain ⟨g, hg, rfl⟩ := h
    exact ⟨g, hg, rfl⟩

/-- A micro-operation reads none of the registers; a sample that succeeds has written `SAMP`. -/
theorem complete_follows (f : RegMap) (op : MicroOp) (a : PinAnswer) (s : State) :
    (complete op a s).Follows f (fun g => op = .sample → g.samp = id) (complete op a (s.mapRegs f)) := by
  cases op with
  | wait n => exact ⟨f, .refl f, nofun, rfl⟩
  | low =>
    cases a with
    | ok l => exact ⟨f, .refl f, nofun, rfl⟩
    | err e => exact ⟨f, .refl f, rfl⟩
  | high =>
    cases a with
    | ok l => exact ⟨f, .refl f, nofun, rfl⟩
    | err e => exact ⟨f, .refl f, rfl⟩
  | sample =>
    cases a with
    | ok l => exact ⟨f.sampled, f.sampled_narrows, fun _ => rfl, rfl⟩
    | err e => exact ⟨f, .refl f, rfl⟩

theorem perform_follows (f : RegMap) (op : MicroOp) (s : State) :
    (perform op s).Follows f (fun g => op = .sample → g.samp = id) (perform op (s.mapRegs f)) := by
  unfold perform
  split
  · exact complete_follows f op _ { s with oracle := s.oracle.next.2 }
  · exact complete_follows f op _ s

theorem runSlot_follows {f : RegMap} (hp : f.phase = id) (ops : List MicroOp) (s : State) :
    (runSlot ops s).Follows f (fun g => .sample ∈ ops → g.samp = id) (runSlot ops (s.mapRegs f)) := by
  induction ops generalizing f s with
  | nil => exact ⟨f, .refl f, nofun, rfl⟩
  | cons op ops ih =>
    refine (perform_follows f op s).andThen fun t g hg hop => ?_
    rw [nextPhase_mapRegs (hg.phase hp)]
    refine (ih (hg.phase hp) t.nextPhase).imp (.refl g) fun g' hg' hrest hmem => ?_
    obtain hhead | htail := List.mem_cons.1 hmem
    · exact hg'.samp (hop hhead.symm)
    · exact hrest htail

theorem readBit_follows {f : RegMap} (hp : f.phase = id) (s : State) :
    (readBit s).Follows f (fun g => g.samp = id) (readBit (s.mapRegs f)) :=
  (runSlot_follows hp (readSlot s.params) s).imp (.refl f) fun _ _ h => h (by simp [readSlot])

theorem writeBit_follows {f : RegMap} (hp : f.phase = id) (b : Bool) (s : State) :
    (writeBit b s).Follows f (fun _ => True) (writeBit b (s.mapRegs f)) :=
  (runSlot_follows hp (writeSlot s.params b) s).imp (.refl f) fun _ _ _ => trivial

theorem readBits_follows {f : RegMap} (h : f.SparesByte) (n : Nat) (s : State) :
    (readBits n s).Follows f (fun _ => True) (readBits n (s.mapRegs f)) := by
  induction n generalizing f s with
  | zero => exact ⟨f, .refl f, trivial, rfl⟩
  | succ n ih =>
    refine (readBit_follows h.phase s).andThen fun t g hg hsamp => ?_
    have hbyte := h.narrow hg
    rw [shiftIn_mapRegs hbyte hsamp, endSlot_mapRegs hbyte]
    exact ih hbyte t.shiftIn.endSlot

theorem writeBits_follows {f : RegMap} (h : f.SparesByte) (n : Nat) (s : State) :
    (writeBits n s).Follows f (fun _ => True) (writeBits n (s.mapRegs f)) := by
  induction n generalizing f s with
  | zero => exact ⟨f, .refl f, trivial, rfl⟩
  | succ n ih =>
    have hbit : selectBit (s.mapRegs f).sr (s.mapRegs f).bitc = selectBit s.sr s.bitc := by
      simp [State.mapRegs, h.sr, h.bitc]
    rw [writeBits, writeBits, hbit]
    refine (writeBit_follows h.phase _ s).andThen fun t g hg _ => ?_
    rw [endSlot_mapRegs (h.narrow hg)]
    exact ih (h.narrow hg) t.endSlot

/-- A byte loads `SR`, `BITC` and `PHASE` before it reads them (R150). -/
theorem readByte_follows (f : RegMap) (s : State) :
    (readByte s).Follows f RegMap.SparesByte (readByte (s.mapRegs f)) :=
  (readBits_follows f.byteStarted_sparesByte 8 (s.startByte 0)).imp f.byteStarted_narrows
    fun _ hg _ => f.byteStarted_sparesByte.narrow hg

theorem writeByte_follows (f : RegMap) (v : Byte) (s : State) :
    (writeByte v s).Follows f RegMap.SparesByte (writeByte v (s.mapRegs f)) :=
  (writeBits_follows f.byteStarted_sparesByte 8 (s.startByte v)).imp f.byteStarted_narrows
    fun _ hg _ => f.byteStarted_sparesByte.narrow hg

theorem readBytes_follows {f : RegMap} (hi : f.idx = id) (n : Nat) (s : State) :
    (readBytes n s).Follows f (fun _ => True) (readBytes n (s.mapRegs f)) := by
  induction n generalizing f s with
  | zero => exact ⟨f, .refl f, trivial, rfl⟩
  | succ n ih =>
    refine (readByte_follows f s).andThen fun t g hg hbyte => ?_
    rw [storeByte_mapRegs hbyte.sr (hg.idx hi), endByte_mapRegs hbyte.bitc (hg.idx hi)]
    exact ih (hg.idx hi) t.storeByte.endByte

theorem writeBytes_follows {f : RegMap} (hi : f.idx = id) (n : Nat) (s : State) :
    (writeBytes n s).Follows f (fun _ => True) (writeBytes n (s.mapRegs f)) := by
  induction n generalizing f s with
  | zero => exact ⟨f, .refl f, trivial, rfl⟩
  | succ n ih =>
    have hread : (s.mapRegs f).memRead (s.mapRegs f).idx.toNat = s.memRead s.idx.toNat := by
      simp [State.mapRegs, State.memRead, hi]
    rw [writeBytes, writeBytes, hread]
    refine (writeByte_follows f _ s).andThen fun t g hg hbyte => ?_
    rw [endByte_mapRegs hbyte.bitc (hg.idx hi)]
    exact ih (hg.idx hi) t.endByte

/-! ### Commands under a map -/

/-- The map leaves alone the register from which command `i` takes its answer. -/
def RegMap.SparesAnswer (i : Instr) (f : RegMap) : Prop :=
  match i with
  | .ishi | .islo | .reset | .rdbit => f.samp = id
  | .rdbyte => f.sr = id
  | .getspd => f.speed = id
  | _ => True

/-- The register from which a command takes its answer is written before, except `SPEED` by GETSPD. -/
theorem commandRun_follows {i : Instr} {f : RegMap} (hspeed : i = .getspd → f.speed = id) (s : State) :
    (commandRun i s).Follows f (RegMap.SparesAnswer i) (commandRun i (s.mapRegs f)) := by
  have slot : ∀ ops, (∀ g : RegMap, (.sample ∈ ops → g.samp = id) → g.SparesAnswer i) →
      (runSlot ops s.startSlot).Follows f (RegMap.SparesAnswer i) (runSlot ops (s.mapRegs f).startSlot) :=
    fun ops hq => (runSlot_follows (f := f.slotStarted) rfl ops s.startSlot).imp f.slotStarted_narrows fun g _ => hq g
  cases i with
  | init => exact (perform_follows f .high s).imp (.refl f) fun _ _ _ => trivial
  | sethi => exact (perform_follows f .high s).imp (.refl f) fun _ _ _ => trivial
  | setlo => exact (perform_follows f .low s).imp (.refl f) fun _ _ _ => trivial
  | ishi => exact (perform_follows f .sample s).imp (.refl f) fun _ _ h => h rfl
  | islo => exact (perform_follows f .sample s).imp (.refl f) fun _ _ h => h rfl
  | wait us => exact (perform_follows f (.wait us) s).imp (.refl f) fun _ _ _ => trivial
  | reset => exact slot (resetSequence s.params) fun _ h => h (by simp [resetSequence])
  | rdbit => exact slot (readSlot s.params) fun _ h => h (by simp [readSlot])
  | wrbit1 => exact slot (writeSlot1 s.params) fun _ _ => trivial
  | wrbit0 => exact slot (writeSlot0 s.params) fun _ _ => trivial
  | wrbit b => exact slot (writeSlot s.params b) fun _ _ => trivial
  | rdbyte => exact (readByte_follows f s).imp (.refl f) fun _ _ h => h.sr
  | wrbyte v => exact (writeByte_follows f v s).imp (.refl f) fun _ _ _ => trivial
  | rdbytes len =>
    exact (readBytes_follows (f := f.sequenceStarted) rfl _ s.startSequence).imp f.sequenceStarted_narrows
      fun _ _ _ => trivial
  | wrbytes len =>
    exact (writeBytes_follows (f := f.sequenceStarted) rfl _ s.startSequence).imp f.sequenceStarted_narrows
      fun _ _ _ => trivial
  | getspd => exact ⟨f, .refl f, hspeed rfl, rfl⟩
  | _ => exact ⟨f, .refl f, trivial, rfl⟩

theorem crcFold_mapRegs {f : RegMap} (hc : f.crc = id) (hi : f.idx = id) (n : Nat) (s : State) :
    crcFold n (s.mapRegs f) = (crcFold n s).mapRegs f := by
  induction n generalizing s with
  | zero => rfl
  | succ n ih =>
    rw [crcFold, crcFold, ← ih]
    simp [State.mapRegs, State.memRead, hc, hi]

/-- A checksum sets `CRC` and `IDX` before it reads them (R172). -/
theorem crcOfBuffer_mapRegs (f : RegMap) (len : BitVec 16) (s : State) :
    crcOfBuffer len (s.mapRegs f) = (crcOfBuffer len s).mapRegs f.checksumStarted :=
  crcFold_mapRegs (f := f.checksumStarted) rfl rfl len.toNat { s with crc := 0, idx := 0 }

theorem commandClose_mapRegs {i : Instr} (t : State) (g : RegMap) (h : g.SparesAnswer i) :
    ∃ g' : RegMap, g'.Narrows g ∧ commandClose i (t.mapRegs g) = (commandClose i t).mapRegs g' := by
  have answer : ∀ {α : Type} (F : α → Byte) (x y : α), x = y →
      ∃ g' : RegMap, g'.Narrows g ∧ (t.mapRegs g).reply (F x) = (t.reply (F y)).mapRegs g' := by
    rintro α F x _ rfl
    exact ⟨g, .refl g, rfl⟩
  cases i with
  | init => exact ⟨g.speedSet, g.speedSet_narrows, rfl⟩
  | setspd b => exact ⟨g.speedSet, g.speedSet_narrows, rfl⟩
  | ishi => exact answer boolByte _ _ (congrFun h t.samp)
  | islo => exact answer (fun b => boolByte !b) _ _ (congrFun h t.samp)
  | reset => exact answer (fun b => boolByte !b) _ _ (congrFun h t.samp)
  | rdbit => exact answer boolByte _ _ (congrFun h t.samp)
  | rdbyte => exact answer id _ _ (congrFun h t.sr)
  | getspd => exact answer (fun v => boolByte (Speed.bit v)) _ _ (congrFun h t.speed)
  | crc8 len =>
    refine ⟨g.checksumStarted, g.checksumStarted_narrows, ?_⟩
    rw [commandClose, crc8Body, crcOfBuffer_mapRegs]
    rfl
  | chkcrc len =>
    refine ⟨g.checksumStarted, g.checksumStarted_narrows, ?_⟩
    rw [commandClose, chkcrcBody, crcOfBuffer_mapRegs]
    rfl
  | _ => exact ⟨g, .refl g, rfl⟩

/-- A command does the same from a state with other values in these registers, GETSPD with another `SPEED` excepted. -/
theorem exec_mapRegs {i : Instr} {f : RegMap} (hspeed : i = .getspd → f.speed = id) {s t : State}
    (ht : exec i s = .next t) : ∃ g : RegMap, g.Narrows f ∧ exec i (s.mapRegs f) = .next (t.mapRegs g) := by
  have hchecks : refusal i (s.mapRegs f) = refusal i s := rfl
  rw [exec_eq, checked] at ht ⊢
  rw [hchecks]
  obtain rfl := Host.Outcome.next.inj ht
  cases refusal i s with
  | some st => exact ⟨f, .refl f, rfl⟩
  | none =>
    obtain ⟨g, hg, he⟩ := (commandRun_follows hspeed s).finish commandClose_mapRegs
    exact ⟨g, hg, congrArg _ he⟩

/-- Settles O51: the map sets `SPEED` and the Overdrive table and leaves every other register alone. -/
theorem speedChangesNoTrace : Obligations.SpeedChangesNoTrace := by
  intro i s t speed od hi ht
  obtain ⟨g, hg, he⟩ := exec_mapRegs (f := { speed := fun _ => speed, od := fun _ => od }) (absurd · hi) ht
  refine ⟨g.speed t.speed, he.trans (congrArg _ ?_)⟩
  simp [State.mapRegs, hg.cmd, hg.od, hg.phase, hg.bitc, hg.idx, hg.sr, hg.samp, hg.crc]

/-- Settles O52: the map sets the transient registers and leaves `SPEED` and the Overdrive table alone. -/
theorem transientRegistersDoNotMatter : Obligations.TransientRegistersDoNotMatter := by
  intro i s t cmd phase bitc idx sr crc samp ht
  obtain ⟨g, hg, he⟩ := exec_mapRegs (f := {
    cmd := fun _ => cmd, phase := fun _ => phase, bitc := fun _ => bitc, idx := fun _ => idx, sr := fun _ => sr,
    crc := fun _ => crc, samp := fun _ => samp }) (fun _ => rfl) ht
  refine ⟨_, he, ?_⟩
  simp [State.mapRegs, hg.cmd, hg.od, hg.speed]

end Sys2Proof.Machine

/-! ## Bytes and buffer cells (spec/20_memory.md R55, R58, R61; spec/43_byte_ops.md R150 to R152;
spec/45_buffer_speed.md R185, R186) -/

namespace Sys2Proof.Machine

/-! ### A command that passes its checks, and one that does not -/

/-- A command that passes its checks runs to its end, or to the pin failure (R212, R214). -/
theorem exec_of_pass {i : Instr} {s : State} (hw : i.wellFormed s.params.bufDepth = true) (hs : ¬ StateRefuses s i) :
    exec i s = .next ((commandRun i s).finish (commandClose i)) := by
  simp only [exec_eq, checked, refusal_eq_none.2 ⟨hw, hs⟩]

/-- A command in range that the state check stops does nothing but answer `BAD_STATE` (R214, R216). -/
theorem exec_of_stateRefuses {i : Instr} {s : State} (hw : i.wellFormed s.params.bufDepth = true)
    (hs : StateRefuses s i) : exec i s = .next { s with rsp := some 0x50000000#32 } := by
  simp only [exec_eq, checked, refusal_eq_badState.2 ⟨hw, hs⟩]
  rfl

/-- A constructed block refuses INIT alone for its state (R216). -/
theorem not_stateRefuses_of_constructed {i : Instr} {s : State} (h : s.constructed = true) (hi : i ≠ .init) :
    ¬ StateRefuses s i := by
  cases i <;> simp_all [StateRefuses]

/-- A command word with its low byte set apart (R71). -/
theorem pack_eq_or (op : BitVec 8) (a : BitVec 16) (d : Byte) : pack op a d = pack op a 0 ||| d.setWidth 32 := by
  have h (b : Byte) : (pack op a b).toNat = (op ++ a).toNat <<< 8 ||| b.toNat := BitVec.toNat_append _ _
  apply BitVec.eq_of_toNat_eq
  rw [BitVec.toNat_or, h, h, BitVec.toNat_setWidth, Nat.mod_eq_of_lt (by omega)]
  simp

/-! ### One byte -/

/-- A constructed block reads the byte and answers it, or the pin error (R151). -/
theorem exec_rdbyte {s : State} (h : s.constructed = true) :
    exec .rdbyte s = .next ((readByte s).finish fun t => t.reply t.sr) :=
  exec_of_pass rfl (not_stateRefuses_of_constructed h nofun)

/-- A constructed block writes the byte and answers without data, or the pin error (R152). -/
theorem exec_wrbyte {s : State} (v : Byte) (h : s.constructed = true) :
    exec (.wrbyte v) s = .next ((writeByte v s).finish fun t => t.reply 0) :=
  exec_of_pass rfl (not_stateRefuses_of_constructed h nofun)

/-- Settles O32: RDBYTE is `readByte` and its reply, or the pin failure. -/
theorem rdbyteAssemblesTheSampledBits : Obligations.RdbyteAssemblesTheSampledBits := by
  refine ⟨rfl, fun s xs o hc h8 hg => ?_, fun s xs ls e o hc h8 hl hg => ?_,
    fun s hc => exec_of_stateRefuses rfl hc⟩
  · rw [exec_rdbyte hc, readByte_ok h8 hg]
    rfl
  · rw [List.append_assoc] at hg
    obtain ⟨phase, bitc, sr, samp, hr⟩ := readByte_abort h8 hl hg
    rw [exec_rdbyte hc, hr]
    exact ⟨_, rfl, rfl⟩

/-- Settles O33: WRBYTE is `writeByte` and its reply, or the pin failure. -/
theorem wrbyteSendsItsBits : Obligations.WrbyteSendsItsBits := by
  refine ⟨fun v => pack_eq_or 0x0D 0 v, fun s v ls o hc hl hg => ?_, fun s v k ls e o hc hk h1 h2 hg => ?_,
    fun s v hc => exec_of_stateRefuses rfl hc⟩
  · rw [exec_wrbyte v hc, writeByte_ok hl hg]
    rfl
  · obtain ⟨phase, bitc, hr⟩ := writeByte_abort hk h1 h2 hg
    rw [exec_wrbyte v hc, hr]
    exact ⟨_, rfl, rfl⟩

/-! ### One cell of the buffer -/

/-- LDBUF of an existing cell answers what the cell reads as and does nothing else (R185). -/
theorem exec_ldbuf {s : State} {j : BitVec 16} (h : j.toNat < s.params.bufDepth) :
    exec (.ldbuf j) s = .next (s.reply (s.memRead j.toNat)) :=
  exec_of_pass (decide_eq_true h) not_false

/-- STBUF to an existing cell writes it, and answers without data (R186). -/
theorem exec_stbuf {s : State} {i : BitVec 16} (v : Byte) (h : i.toNat < s.params.bufDepth) :
    exec (.stbuf i v) s = .next ((s.memWrite i.toNat v).reply 0) :=
  exec_of_pass (decide_eq_true h) not_false

/-- A response leaves what every cell reads as (R58). -/
@[simp] theorem State.memRead_reply (s : State) (d : Byte) (a : Nat) : (s.reply d).memRead a = s.memRead a := rfl

/-- What each cell named by an index operand reads as after `MemWrite` to one of them (R52, R61 (c)). -/
theorem State.memRead_memWrite (s : State) (i j : BitVec 16) (v : Byte) :
    (s.memWrite i.toNat v).memRead j.toNat = if j = i then v else s.memRead j.toNat := by
  split
  case isTrue h => rw [h, State.memRead_memWrite_same]
  case isFalse h => exact State.memRead_memWrite_other s v (mt BitVec.eq_of_toNat_eq h)

/-- Settles O44: an LDBUF changes no cell, so the second one reads what the first one did. -/
theorem ldbufReturnsTheLatestWrite : Obligations.LdbufReturnsTheLatestWrite := by
  intro s t i j v hi hj ht
  obtain rfl : (s.memWrite i.toNat v).reply 0 = t := Host.Outcome.next.inj ((exec_stbuf v hi).symm.trans ht)
  refine ⟨_, _, exec_ldbuf (by simpa using hj), exec_ldbuf (by simpa using hj), ?_, ?_⟩
  · simp
  · simp [State.memRead_memWrite]

end Sys2Proof.Machine

/-! ## Encoding and decoding (spec/30_encoding.md R71 to R73, R80 to R83) -/

namespace Sys2Proof

open Laws.RowOfCommand (pack_and_pack)

/-! ### Fields -/

/-- Words with the same three fields are the same word, and only those (R71). -/
theorem pack_inj {op op' : BitVec 8} {a a' : BitVec 16} {d d' : Byte} :
    pack op a d = pack op' a' d' ↔ op = op' ∧ a = a' ∧ d = d' := by
  refine ⟨fun h => ⟨?_, ?_, ?_⟩, fun ⟨ho, ha, hd⟩ => by rw [ho, ha, hd]⟩
  · simpa using congrArg opField h
  · simpa using congrArg aField h
  · simpa using congrArg dField h

/-- The operand `b` is the lowest bit of the field `d` (R73). -/
theorem bField_eq (w : Word) : bField w = (dField w).getLsbD 0 := by
  simp [bField, dField]

/-- A field `d` of format B is the zero extension of its lowest bit exactly when the other seven bits are 0 (R72). -/
theorem and_254_eq_zero_iff : ∀ d : Byte, d &&& 0xFE#8 = 0#8 ↔ d = boolByte (d.getLsbD 0) := by decide

/-! ### Formats (R72) -/

/-- The bits that a format fixes: the opcode, and the bits marked "zero". -/
def Format.mask : Format → Word
  | .N => pack (BitVec.allOnes 8) (BitVec.allOnes 16) (BitVec.allOnes 8)
  | .U => pack (BitVec.allOnes 8) 0 (BitVec.allOnes 8)
  | .B => pack (BitVec.allOnes 8) (BitVec.allOnes 16) 0xFE
  | .V => pack (BitVec.allOnes 8) (BitVec.allOnes 16) 0
  | .L => pack (BitVec.allOnes 8) 0 (BitVec.allOnes 8)
  | .I => pack (BitVec.allOnes 8) 0 (BitVec.allOnes 8)
  | .X => pack (BitVec.allOnes 8) 0 0

/-- The word of the format that has opcode `op` and the operands that stand in `w`. -/
def Format.word (op : BitVec 8) (w : Word) : Format → Word
  | .N => pack op 0 0
  | .U => pack op (aField w) 0
  | .B => pack op 0 (boolByte (bField w))
  | .V => pack op 0 (dField w)
  | .L => pack op (aField w) 0
  | .I => pack op (aField w) 0
  | .X => pack op (aField w) (dField w)

@[simp] theorem Format.opField_word (f : Format) (op : BitVec 8) (w : Word) : opField (f.word op w) = op := by
  cases f <;> exact opField_pack _ _ _

/-- The fixed bits of a word are those of opcode `op` exactly when the word is made of `op` and its own operands. -/
theorem Format.and_mask_eq_iff (f : Format) (op : BitVec 8) (w : Word) :
    w &&& f.mask = pack op 0 0 ↔ w = f.word op w := by
  obtain ⟨o, a, d, rfl⟩ : ∃ o a d, w = pack o a d := ⟨_, _, _, (pack_fields w).symm⟩
  cases f <;> simp [-BitVec.reduceAllOnes, Format.mask, Format.word, pack_and_pack, pack_inj,
    and_254_eq_zero_iff, bField_eq]

/-! ### Rows of the opcode map (R80) -/

/-- A row's mask is that of its format, and its match word has the row's opcode and no operand bit. -/
theorem row_mask_pattern : ∀ r ∈ opcodeRows, r.mask = r.format.mask ∧ r.pattern = pack r.op 0 0 := by
  decide

/-- The command a row reads from a word has the row's mnemonic, and is encoded with the row's opcode and format. -/
theorem row_operands : ∀ r ∈ opcodeRows, ∀ w,
    encode (r.operands w) = r.format.word r.op w ∧ (r.operands w).mnemonic = r.mnemonic := by
  simp only [opcodeRows, List.cons_append, List.nil_append, List.forall_mem_cons, List.not_mem_nil, false_implies,
    implies_true, and_true]
  and_intros <;> exact fun w => ⟨rfl, rfl⟩

theorem nodup_rows_op : (opcodeRows.map OpcodeRow.op).Nodup := by decide
theorem nodup_rows_mnemonic : (opcodeRows.map OpcodeRow.mnemonic).Nodup := by decide

/-- A word is in the match set of a row exactly when it is the word of the command that the row reads from it (R82). -/
theorem row_matches_iff {r : OpcodeRow} (hr : r ∈ opcodeRows) (w : Word) :
    w &&& r.mask = r.pattern ↔ encode (r.operands w) = w := by
  obtain ⟨hmask, hpattern⟩ := row_mask_pattern r hr
  obtain ⟨hencode, -⟩ := row_operands r hr w
  rw [hmask, hpattern, hencode, Format.and_mask_eq_iff, eq_comm]

/-- A word in the match set of a row has the row's opcode. -/
theorem opField_of_match {r : OpcodeRow} (hr : r ∈ opcodeRows) {w : Word} (h : w &&& r.mask = r.pattern) :
    opField w = r.op := by
  obtain ⟨hencode, -⟩ := row_operands r hr w
  rw [← (row_matches_iff hr w).1 h, hencode, Format.opField_word]

/-- Every command is read from its own word by a row of the map. -/
theorem exists_row_reads (i : Instr) : ∃ r ∈ opcodeRows, r.operands (encode i) = i := by
  have row (k : Nat) {r : OpcodeRow} (hr : opcodeRows[k]? = some r) (h : r.operands (encode i) = i) :
      ∃ r ∈ opcodeRows, r.operands (encode i) = i := ⟨r, List.mem_of_getElem? hr, h⟩
  cases i with
  | init => exact row 0 rfl rfl
  | sethi => exact row 1 rfl rfl
  | setlo => exact row 2 rfl rfl
  | ishi => exact row 3 rfl rfl
  | islo => exact row 4 rfl rfl
  | wait us => exact row 5 rfl (congrArg _ (aField_pack _ _ _))
  | reset => exact row 6 rfl rfl
  | rdbit => exact row 7 rfl rfl
  | wrbit1 => exact row 8 rfl rfl
  | wrbit0 => exact row 9 rfl rfl
  | wrbit b => exact row 10 rfl (congrArg _ (bField_pack _ _ _))
  | rdbyte => exact row 11 rfl rfl
  | wrbyte v => exact row 12 rfl (congrArg _ (dField_pack _ _ _))
  | rdbytes len => exact row 13 rfl (congrArg _ (aField_pack _ _ _))
  | wrbytes len => exact row 14 rfl (congrArg _ (aField_pack _ _ _))
  | crc8 len => exact row 15 rfl (congrArg _ (aField_pack _ _ _))
  | chkcrc len => exact row 16 rfl (congrArg _ (aField_pack _ _ _))
  | ldbuf idx => exact row 17 rfl (congrArg _ (aField_pack _ _ _))
  | stbuf idx v => exact row 18 rfl (congrArg₂ _ (aField_pack _ _ _) (dField_pack _ _ _))
  | getspd => exact row 19 rfl rfl
  | setspd b => exact row 20 rfl (congrArg _ (bField_pack _ _ _))

/-! ### The decoder (R83) -/

/-- The look-up by opcode finds the one row that has it. -/
theorem find?_op_eq_some_iff {op : BitVec 8} {r : OpcodeRow} :
    opcodeRows.find? (fun r => r.op == op) = some r ↔ r ∈ opcodeRows ∧ r.op = op := by
  have found {q : OpcodeRow} (hq : opcodeRows.find? (fun r => r.op == op) = some q) : q ∈ opcodeRows ∧ q.op = op :=
    ⟨List.mem_of_find?_eq_some hq, by simpa using List.find?_some hq⟩
  refine ⟨found, fun ⟨hr, hop⟩ => ?_⟩
  cases hq : opcodeRows.find? (fun r => r.op == op) with
  | none => exact absurd hop (by simpa using List.find?_eq_none.1 hq r hr)
  | some q =>
    obtain ⟨hmem, hqop⟩ := found hq
    rw [List.inj_on_of_nodup_map nodup_rows_op hmem hr (hqop.trans hop.symm)]

/-- A word decodes to what a row reads from it, when it is in the match set of that row, and not otherwise. -/
theorem decode_eq_ok_iff {w : Word} {i : Instr} :
    decode w = .ok i ↔ ∃ r ∈ opcodeRows, w &&& r.mask = r.pattern ∧ r.operands w = i := by
  constructor
  · intro h
    unfold decode at h
    split at h
    · cases h
    · next r hfind =>
      split at h
      · next hmatch => exact ⟨r, (find?_op_eq_some_iff.1 hfind).1, hmatch, Except.ok.inj h⟩
      · cases h
  · rintro ⟨r, hr, hmatch, rfl⟩
    have hfind := find?_op_eq_some_iff.2 ⟨hr, (opField_of_match hr hmatch).symm⟩
    simp only [decode, hfind, if_pos hmatch]

/-- A word that is in no match set is an error of the decoder (R81, R82). -/
theorem decode_error_of_no_match {w : Word} (h : ∀ r ∈ opcodeRows, w &&& r.mask ≠ r.pattern) :
    ∃ e, decode w = .error e := by
  cases hd : decode w with
  | error e => exact ⟨e, rfl⟩
  | ok i =>
    obtain ⟨r, hr, hmatch, -⟩ := decode_eq_ok_iff.1 hd
    exact absurd hmatch (h r hr)

/-- Settles O1: the row that reads the command from its word matches that word. -/
theorem encodeThenDecodeGivesTheCommand : Obligations.EncodeThenDecodeGivesTheCommand := by
  intro i
  obtain ⟨r, hr, hread⟩ := exists_row_reads i
  exact decode_eq_ok_iff.2 ⟨r, hr, (row_matches_iff hr _).2 (congrArg encode hread), hread⟩

/-- Settles O2: the row that decodes the word matches it. -/
theorem decodedWordIsTheEncodedCommand : Obligations.DecodedWordIsTheEncodedCommand := by
  intro w i h
  obtain ⟨r, hr, hmatch, rfl⟩ := decode_eq_ok_iff.1 h
  exact (row_matches_iff hr w).1 hmatch

end Sys2Proof

namespace Sys2Proof.Machine

/-! ### Words that are no command -/

/-- The step of an idle block on a word that is no command (R81, R82, R93, R94). -/
theorem step_of_error {s : State} {w : Word} {rest : List Word} {e : DecodeError} (hs : s.Idle)
    (ho : s.offers = w :: rest) (hd : decode w = .error e) :
    step s = .next { s with offers := rest, cmd := w, inReset := false, taken := 0x30000000#32 :: s.taken } := by
  obtain ⟨hb, hr⟩ := hs
  rw [step, if_neg (by simp [hb]), commandStep_of_error ho hd]
  simp only [State.handOver, State.refuse, State.respond, State.latch, hb, hr]
  rfl

/-- A word decodes to a command of a row's mnemonic exactly when it is in the match set of that row. -/
theorem row_matches_iff_decode {r : OpcodeRow} (hr : r ∈ opcodeRows) (w : Word) :
    w &&& r.mask = r.pattern ↔ ∃ i, decode w = .ok i ∧ i.mnemonic = r.mnemonic := by
  constructor
  · exact fun h => ⟨r.operands w, decode_eq_ok_iff.2 ⟨r, hr, h, rfl⟩, (row_operands r hr w).2⟩
  · rintro ⟨i, hd, hm⟩
    obtain ⟨q, hq, hmatch, rfl⟩ := decode_eq_ok_iff.1 hd
    have hname : q.mnemonic = r.mnemonic := (row_operands q hq w).2.symm.trans hm
    exact List.inj_on_of_nodup_map nodup_rows_mnemonic hq hr hname ▸ hmatch

/-- Settles O3: a word has one opcode, so it is in one match set at most, and the decoder looks for that one. -/
theorem wordIsLegalExactlyWhenItsRowMatches : Obligations.WordIsLegalExactlyWhenItsRowMatches := by
  refine ⟨fun r hr w => row_matches_iff_decode hr w, ?_, fun s w rest hs ho h => ?_⟩
  · refine (List.pairwise_map.1 nodup_rows_op).imp_of_mem fun hr hr' hop => ⟨hop, fun w ⟨h, h'⟩ => hop ?_⟩
    exact (opField_of_match hr h).symm.trans (opField_of_match hr' h')
  · obtain ⟨e, hd⟩ := decode_error_of_no_match h
    exact step_of_error hs ho hd

/-- The opcodes of the map are 0x01 to 0x15 (R80). -/
theorem row_op_defined : ∀ r ∈ opcodeRows, r.op ≠ 0 ∧ r.op.toNat < 0x16 := by decide

/-- Settles O4: no row has such an opcode. -/
theorem undefinedOpcodeDoesNothing : Obligations.UndefinedOpcodeDoesNothing := by
  intro s w rest hs ho hop
  obtain ⟨e, hd⟩ : ∃ e, decode w = .error e := by
    refine decode_error_of_no_match fun r hr hmatch => ?_
    obtain ⟨hne, hlt⟩ := row_op_defined r hr
    rw [← opField_of_match hr hmatch] at hne hlt
    exact hop.elim hne (Nat.not_le.2 hlt)
  exact step_of_error hs ho hd

/-! ### The step of an idle block (R93 to R95) -/

/-- With no word offered an idle block stays as it is (R250). -/
theorem step_of_no_offer {s : State} (hb : s.busy = false) (ho : s.offers = []) : step s = .next s := by
  simp [step, State.commandStep, hb, ho]

/-- The step of an idle block on the word of a command (R93, R95). -/
theorem step_of_ok {s : State} {w : Word} {rest : List Word} {i : Instr} (hb : s.busy = false)
    (ho : s.offers = w :: rest) (hd : decode w = .ok i) :
    step s = deliver (exec i (({ s with offers := rest } : State).latch w)) := by
  simp only [step, State.commandStep, hb, ho, hd, Bool.false_eq_true, if_false]

/-- A pending response is handed over (R94). -/
theorem handOver_of_pending {t : State} {r : Word} (h : t.rsp = some r) :
    t.handOver = { t with busy := false, rsp := none, taken := r :: t.taken } := by
  rw [State.handOver, h]
  rfl

/-- Settles O6. The word `withFetchWord` offers is the one given, as it has 32 bits. -/
theorem stepRunsTheDecodedCommand : Obligations.StepRunsTheDecodedCommand := by
  refine ⟨fun s => step_of_no_offer, fun s w rest i => step_of_ok, fun t r h => ?_, fun s w i hd hw => ?_⟩
  · rw [deliver, handOver_of_pending h]
  · have ho : (s.withFetchWord 32 w).offers = BitVec.ofNat 32 w :: s.offers := by
      rw [State.withFetchWord, Nat.mod_eq_of_lt hw]
    exact step_of_ok rfl ho hd

/-! ### The outcomes of each command (R76, R211) -/

/-- Only a command with a pin access can fail at one (R211). -/
theorem touchesPin_of_failed {i : Instr} {s t : State} {e : Byte} (h : commandRun i s = .failed e t) :
    touchesPin i = true := by
  by_contra hpin
  by_cases hw : ∃ us, i = .wait us
  · obtain ⟨us, rfl⟩ := hw
    cases h
  · rw [commandRun_internal i s (by simpa using hpin) fun us hi => hw ⟨us, hi⟩] at h
    cases h

/-- Settles O49, by the three ways a command can end. -/
theorem outcomesOfEachCommand : Obligations.OutcomesOfEachCommand := by
  intro i s t ht
  obtain ⟨st, hr, hst, h⟩ | ⟨u, es, -, h, -⟩ | ⟨e, u, es, ev, -, h, hfail, -⟩ := exec_cases i s <;>
    obtain rfl : _ = t := Host.Outcome.next.inj (h.symm.trans ht)
  · simp only [answered_iff (t := s.refuse st) rfl]
    rcases hst with rfl | rfl
    · simp [refusal_eq_badOperand.1 hr]
    · simp [(refusal_eq_badState.1 hr).2]
  · obtain ⟨d, h, hd⟩ | ⟨h, hi⟩ := commandClose_rsp i u <;> simp only [answered_iff h, h]
    · suffices returnsValue i = false → responseWord .ok 0 d = 0 by simpa
      exact fun hv => by rw [hd hv]; rfl
    · simp [hi]
  · simp only [answered_iff (t := u.pinFailure e) rfl]
    simp [touchesPin_of_failed hfail]

/-! ### The host port (R93, R94) -/

/-- The start of a command leaves `CMD` and `BUSY` as the acceptance set them. -/
theorem launch_cmd_busy (i : Instr) (s : State) : (launch i s).cmd = s.cmd ∧ (launch i s).busy = s.busy := by
  have crc (len : BitVec 16) : (crcOfBuffer len s).cmd = s.cmd ∧ (crcOfBuffer len s).busy = s.busy := by
    rw [crcOfBuffer_frame]
    exact ⟨rfl, rfl⟩
  cases i with
  | rdbytes len =>
    rw [launch]
    split <;> exact ⟨rfl, rfl⟩
  | wrbytes len =>
    rw [launch]
    split <;> exact ⟨rfl, rfl⟩
  | crc8 len => exact crc len
  | chkcrc len => exact crc len
  | _ => exact ⟨rfl, rfl⟩

/-- An accepted word is latched in `CMD`, and `BUSY` is set, whether it is refused or started (R93). -/
theorem acceptEdge_cmd_busy (s : State) (w : Word) : (s.acceptEdge w).cmd = w ∧ (s.acceptEdge w).busy = true := by
  cases hd : decode w with
  | error e =>
    rw [acceptEdge_of_error s hd]
    exact ⟨rfl, rfl⟩
  | ok i =>
    rw [acceptEdge_of_ok s hd]
    obtain ⟨-, h⟩ | ⟨st, -, -, h⟩ := checked_cases i (s.latch w) (launch i) <;> rw [h]
    · exact launch_cmd_busy i (s.latch w)
    · exact ⟨rfl, rfl⟩

/-- The end of a slot leaves `CMD` (R24). -/
theorem endOfSlot_cmd (i : Instr) (s : State) : (endOfSlot i s).cmd = s.cmd := by
  cases i with
  | rdbyte =>
    rw [endOfSlot, afterReadSlot]
    split <;> rfl
  | wrbyte v =>
    rw [endOfSlot, afterWriteSlot]
    split <;> rfl
  | rdbytes len =>
    rw [endOfSlot, afterReadSlot, afterReadByte]
    split <;> [split; skip] <;> rfl
  | wrbytes len =>
    rw [endOfSlot, afterWriteSlot, afterWriteByte]
    split <;> [split; skip] <;> rfl
  | _ => rfl

theorem passOp_cmd (s : State) (i : Instr) : (s.passOp i).cmd = s.cmd := by
  rw [State.passOp]
  split <;> rfl

theorem advance_cmd (i : Instr) (s : State) : (advance i s).cmd = s.cmd := by
  rw [advance]
  split
  · rw [endOfSlot_cmd, passOp_cmd]
  · exact passOp_cmd s i

/-- The answer to a request leaves `CMD` (R24, R93). -/
theorem answerOp_cmd (s : State) (op : MicroOp) (a : PinAnswer) : (s.answerOp op a).cmd = s.cmd := by
  have hframe := congrArg State.cmd (complete_frame op a s)
  rw [State.answerOp]
  split
  · rfl
  · next i _ =>
    cases hq : complete op a s with
    | done t =>
      rw [hq] at hframe
      exact (advance_cmd i t).trans hframe
    | failed e t =>
      rw [hq] at hframe
      exact hframe

/-- While `BUSY`, an edge leaves `CMD` (R93). -/
theorem runEdge_cmd_of_busy {s : State} (hb : s.busy = true) (i : PortIn) : (s.runEdge i).cmd = s.cmd := by
  rw [State.runEdge, if_pos hb]
  split
  · split <;> rfl
  · split
    · rfl
    · split
      · split
        · exact answerOp_cmd s _ _
        · rfl
      · split
        · exact answerOp_cmd s _ _
        · rfl

/-- Settles O15: a busy block takes an answer or hands over, which looks at neither command signal and leaves `CMD`. -/
theorem busyBlockAcceptsNoCommand : Obligations.BusyBlockAcceptsNoCommand := by
  refine ⟨fun s => rfl, fun s i hb hi hv => ?_, fun s i v w hb => ⟨?_, fun hi => ?_⟩⟩
  · have hedge : s.clockEdge i = s.acceptEdge i.cmdData := by
      simp [clockEdge_of_run s hi, State.runEdge, hb, hv]
    exact hedge ▸ acceptEdge_cmd_busy s i.cmdData
  · simp only [State.clockEdge, State.runEdge, hb, if_true, PortIn.answer]
  · rw [clockEdge_of_run s hi, runEdge_cmd_of_busy hb]

/-- Settles O16: while a response waits no request is out, and an edge does nothing but hand it over. -/
theorem responseIsHeldUntilTaken : Obligations.ResponseIsHeldUntilTaken := by
  intro s i r hb hr hi
  have hop : s.currentOp = none := by simp [State.currentOp, State.running, hr]
  have hedge : s.clockEdge i = if i.rspReady then s.handOver else s := by
    simp [clockEdge_of_run s hi, State.runEdge, hb, hr]
  rw [hedge, handOver_of_pending hr]
  exact ⟨hr, by simp [State.outputs, hop], by simp [State.outputs, hop], fun h => by simp [h], fun h => by simp [h]⟩

end Sys2Proof.Machine

/-! ## The raw pin and delay commands (spec/40_pin_delay_primitives.md R101 to R106) -/

namespace Sys2Proof.Machine

/-! ### One access, one answer -/

/-- A pin access takes the oracle's next answer and leaves the oracle after it (R10, R232). -/
theorem perform_of_isPin {op : MicroOp} {s : State} {a : PinAnswer} {o : Oracle} (hop : op.isPin = true)
    (h : s.oracle.next = (a, o)) : perform op s = complete op a { s with oracle := o } := by
  rw [perform, if_pos hop, h]

/-- A command that is one pin access, in a state that lets it run: the answered access, then the command's end or the pin
failure (R212). -/
theorem exec_of_access (i : Instr) (op : MicroOp) {s : State} {a : PinAnswer} {o : Oracle}
    (hw : i.wellFormed s.params.bufDepth = true) (hs : ¬ StateRefuses s i) (hrun : commandRun i s = perform op s)
    (hop : op.isPin = true) (h : s.oracle.next = (a, o)) :
    exec i s = .next ((complete op a { s with oracle := o }).finish (commandClose i)) := by
  rw [exec_of_pass hw hs, hrun, perform_of_isPin hop h]

/-- An unconstructed block lets INIT run (R216). -/
theorem not_stateRefuses_init {s : State} (h : s.constructed = false) : ¬ StateRefuses s .init := by
  simp [StateRefuses, h]

/-- Settles O21: INIT is one `PinHigh` and the construction, or the pin failure. -/
theorem initConstructsTheDriver : Obligations.InitConstructsTheDriver :=
  ⟨rfl,
    fun _ _ _ hc => exec_of_access .init .high rfl (not_stateRefuses_init hc) rfl rfl,
    fun _ _ _ hc => exec_of_access .init .high rfl (not_stateRefuses_init hc) rfl rfl,
    fun _ hc => exec_of_stateRefuses rfl hc⟩

/-- Settles O22: SETHI is one `PinHigh` and an answer without data, or the pin failure. -/
theorem sethiReleasesTheLine : Obligations.SethiReleasesTheLine :=
  ⟨rfl,
    fun _ _ _ hc => exec_of_access .sethi .high rfl (not_stateRefuses_of_constructed hc nofun) rfl rfl,
    fun _ _ _ hc => exec_of_access .sethi .high rfl (not_stateRefuses_of_constructed hc nofun) rfl rfl,
    fun _ hc => exec_of_stateRefuses rfl hc⟩

/-- Settles O23: SETLO is one `PinLow` and an answer without data, or the pin failure. -/
theorem setloPullsTheLineLow : Obligations.SetloPullsTheLineLow :=
  ⟨rfl,
    fun _ _ _ hc => exec_of_access .setlo .low rfl (not_stateRefuses_of_constructed hc nofun) rfl rfl,
    fun _ _ _ hc => exec_of_access .setlo .low rfl (not_stateRefuses_of_constructed hc nofun) rfl rfl,
    fun _ hc => exec_of_stateRefuses rfl hc⟩

/-- The response word of an `OK` whose data is one bit (R74). -/
theorem responseWord_ok_boolByte (b : Bool) :
    responseWord .ok 0 (boolByte b) = if b then 0x00000001#32 else 0x00000000#32 := by
  cases b <;> rfl

/-- Settles O24: ISHI is one sample and its level, or the pin failure. -/
theorem ishiReportsTheLevel : Obligations.IshiReportsTheLevel := by
  refine ⟨rfl, fun s l o hc ho => ?_, fun s e o hc ho => ?_, fun s hc => exec_of_stateRefuses rfl hc⟩
  · rw [← responseWord_ok_boolByte]
    exact exec_of_access .ishi .sample rfl (not_stateRefuses_of_constructed hc nofun) rfl rfl ho
  · exact exec_of_access .ishi .sample rfl (not_stateRefuses_of_constructed hc nofun) rfl rfl ho

/-- Settles O25: ISLO is one sample and the complement of its level, or the pin failure. -/
theorem isloReportsTheComplement : Obligations.IsloReportsTheComplement := by
  refine ⟨rfl, fun s l o hc ho => ?_, fun s e o hc ho => ?_, fun s hc => exec_of_stateRefuses rfl hc⟩
  · have hword : responseWord .ok 0 (boolByte !l) = if l then 0x00000000#32 else 0x00000001#32 := by
      rw [responseWord_ok_boolByte]
      cases l <;> rfl
    rw [← hword]
    exact exec_of_access .islo .sample rfl (not_stateRefuses_of_constructed hc nofun) rfl rfl ho
  · exact exec_of_access .islo .sample rfl (not_stateRefuses_of_constructed hc nofun) rfl rfl ho

/-! ### The wait -/

/-- The number a command word is, from its three fields (R71). -/
theorem toNat_pack (op : BitVec 8) (a : BitVec 16) (d : Byte) :
    (pack op a d).toNat = (op.toNat <<< 16 ||| a.toNat) <<< 8 ||| d.toNat := by
  rw [← BitVec.toNat_append op a]
  exact BitVec.toNat_append _ _

/-- A command word whose low byte is zero, with its 16-bit field set apart (R71). -/
theorem pack_zero_eq_or (op : BitVec 8) (a : BitVec 16) :
    pack op a 0 = pack op 0 0 ||| (a.setWidth 32 <<< 8) := by
  apply BitVec.eq_of_toNat_eq
  rw [BitVec.toNat_or, toNat_pack, toNat_pack, BitVec.toNat_shiftLeft, BitVec.toNat_setWidth,
    Nat.mod_eq_of_lt (by omega), Nat.mod_eq_of_lt (by omega)]
  simp [Nat.shiftLeft_or_distrib]

/-- Settles O26: WAIT is one wait, which always succeeds, and an answer without data. -/
theorem waitIssuesOneRequest : Obligations.WaitIssuesOneRequest :=
  ⟨fun us => pack_zero_eq_or 0x06 us,
    fun _ _ hc => exec_of_pass rfl (not_stateRefuses_of_constructed hc nofun),
    fun _ _ hc => exec_of_stateRefuses rfl hc⟩

end Sys2Proof.Machine

/-! ## Reset and presence detect (spec/41_reset_presence.md R121 to R124) -/

namespace Sys2Proof.Machine

/-! ### The reset sequence -/

/-- The trace of a reset sequence that sampled `l` (R121). -/
def resetTrace (p : Params) (l : Bool) : List Event :=
  [.waited p.std.G, .low, .waited p.std.H, .high, .waited p.std.I, .sampled l, .waited p.std.J]

/-- The trace of a reset sequence cut short by error `e` at its access number `j`: 0 the pull-low, 1 the release, 2 the
sample (R124). -/
def resetAbort (p : Params) (j : Nat) (e : Byte) : List Event :=
  match j with
  | 0 => [.waited p.std.G, .lowFailed e]
  | 1 => [.waited p.std.G, .low, .waited p.std.H, .highFailed e]
  | _ => [.waited p.std.G, .low, .waited p.std.H, .high, .waited p.std.I, .sampleFailed e]

/-- A reset sequence whose three accesses succeed: the accesses of a read slot, after one wait more (R121). -/
theorem commandRun_reset_ok {s : State} {x : SlotAnswer} {o : Oracle} (h : s.oracle.Gives x.answers o) :
    commandRun .reset s = .done { s with
      oracle := o, phase := 7, samp := x.level, padout := .released,
      history := (resetTrace s.params x.level).reverse ++ s.history } := by
  obtain ⟨h1, h2, h3, rfl⟩ := h
  simp [commandRun, resetSequence, State.startSlot, runSlot, perform, MicroOp.isPin, complete, State.log,
    State.nextPhase, h1, h2, h3, resetTrace, T, tableEntry]

/-- A reset sequence in which access number `ls.length` fails; `PADOUT` is as after a read slot cut short there
(R124). -/
theorem commandRun_reset_abort {s : State} {ls : List Bool} {e : Byte} {o : Oracle} (hl : ls.length ≤ 2)
    (h : s.oracle.Gives (drivesOk ls ++ [.err e]) o) :
    commandRun .reset s = .failed e { s with
      oracle := o, phase := BitVec.ofNat 4 (2 * ls.length + 1), padout := readAbortPad ls.length,
      history := (resetAbort s.params ls.length e).reverse ++ s.history } := by
  match ls, hl with
  | [], _ | [_], _ | [_, _], _ =>
    simp only [drivesOk_nil, drivesOk_cons, List.nil_append, List.cons_append, Oracle.gives_cons, Oracle.gives_nil] at h
    simp [commandRun, resetSequence, State.startSlot, runSlot, perform, MicroOp.isPin, complete, State.log,
      State.nextPhase, h, resetAbort, readAbortPad, T, tableEntry]

/-- A reset sequence that runs to its end has sampled one level, and `SAMP` holds it (R121). -/
theorem commandRun_reset_done {s u : State} (h : commandRun .reset s = .done u) :
    u.history = (resetTrace s.params u.samp).reverse ++ s.history := by
  obtain ⟨x, o, hg⟩ | ⟨ls, e, o, hl, hg⟩ := s.oracle.readSlot_cases
  · rw [commandRun_reset_ok hg] at h
    cases h
    rfl
  · rw [commandRun_reset_abort hl hg] at h
    cases h

/-! ### The command -/

/-- A constructed block runs the reset sequence and answers the complement of `SAMP`, or the pin error (R121, R124). -/
theorem exec_reset {s : State} (h : s.constructed = true) :
    exec .reset s = .next ((commandRun .reset s).finish fun t => t.reply (boolByte !t.samp)) :=
  exec_of_pass rfl (not_stateRefuses_of_constructed h nofun)

/-- RESET when access number `ls.length` fails (R124). -/
theorem exec_reset_abort {s : State} {ls : List Bool} {e : Byte} {o : Oracle} (hc : s.constructed = true)
    (hl : ls.length ≤ 2) (h : s.oracle.Gives (drivesOk ls ++ [.err e]) o) :
    exec .reset s = .next { s with
      oracle := o, phase := BitVec.ofNat 4 (2 * ls.length + 1), padout := readAbortPad ls.length,
      history := (resetAbort s.params ls.length e).reverse ++ s.history,
      rsp := some (responseWord .pinError e 0) } := by
  rw [exec_reset hc, commandRun_reset_abort hl h]
  rfl

/-- The response word of an `OK` whose data is the complement of a bit (R74). -/
theorem responseWord_ok_boolByte_not (b : Bool) :
    responseWord .ok 0 (boolByte !b) = if b then 0x00000000#32 else 0x00000001#32 := by
  cases b <;> rfl

/-- Settles O27: RESET is the reset sequence and the presence bit, or the pin failure at one of the three accesses. -/
theorem resetSendsThePulseAndReportsPresence : Obligations.ResetSendsThePulseAndReportsPresence := by
  refine ⟨rfl, fun s x o hc hg => ?_, fun s e o hc hg => ?_, fun s a e o hc hg => ?_, fun s a b e o hc hg => ?_,
    fun s hc => exec_of_stateRefuses rfl hc⟩
  · rw [exec_reset hc, commandRun_reset_ok hg, ← responseWord_ok_boolByte_not]
    rfl
  · exact exec_reset_abort (ls := []) hc (by simp) hg
  · exact exec_reset_abort (ls := [a]) hc (by simp) hg
  · exact exec_reset_abort (ls := [a, b]) hc (by simp) hg

/-! ### The presence bit on a wired-AND line -/

/-- The level a reset sequence samples on a wired-AND line: the line is released, so only a device that pulls at the
instant `T(G) + T(H) + T(I)` makes it low (R122, R233). -/
theorem level_of_wiredAnd_resetTrace {device : Nat → Bool} {pad : PadOut} {p : Params} {l : Bool}
    (h : WiredAnd device 0 pad (resetTrace p l)) :
    l = !device (p.std.G.toNat + p.std.H.toNat + p.std.I.toNat) := by
  obtain ⟨-, -, -, -, -, hsample, -⟩ := h
  simpa [lineLevel, padAfter, nominalUs] using hsample l rfl _ rfl

/-- Settles O28: a RESET that ends with `OK` answers the complement of the level that the line had at its sample. -/
theorem presenceIsTheLineAtTheSampleInstant : Obligations.PresenceIsTheLineAtTheSampleInstant := by
  intro s t device ht hok hwire
  obtain ⟨u, -, -, hd, rfl, -, -⟩ := exec_ok_cases ht hok
  rw [newEvents_eq (by rw [commandClose_history, commandRun_reset_done hd])] at hwire
  simp [commandClose, level_of_wiredAnd_resetTrace hwire]

end Sys2Proof.Machine

/-! ## Bit slots (spec/42_bit_slots.md R131 to R140) -/

namespace Sys2Proof

/-- A word with the opcode of a row, but not in the row's match set, has a bit set that must be zero (R82, R83). -/
theorem decode_of_reservedBits {r : OpcodeRow} (hr : r ∈ opcodeRows) {w : Word} (hop : opField w = r.op)
    (hne : w &&& r.mask ≠ r.pattern) : decode w = .error (.reservedBits r.op) := by
  have hfind := find?_op_eq_some_iff.2 ⟨hr, hop.symm⟩
  simp only [decode, hfind, if_neg hne]

/-- The mask of a row of format B covers `cmd[23:1]`, and the match word has zeros there (R72). -/
theorem row_formatB_reserved : ∀ r ∈ opcodeRows, r.format = .B →
    r.mask.extractLsb' 1 23 = BitVec.allOnes 23 ∧ r.pattern.extractLsb' 1 23 = 0 := by
  decide

/-- A word in the match set of a row of format B has zeros in `cmd[23:1]` (R72, R82). -/
theorem reserved_eq_zero_of_formatB {r : OpcodeRow} (hr : r ∈ opcodeRows) (hB : r.format = .B) {w : Word}
    (hmatch : w &&& r.mask = r.pattern) : w.extractLsb' 1 23 = 0 := by
  obtain ⟨hmask, hpattern⟩ := row_formatB_reserved r hr hB
  calc w.extractLsb' 1 23
      = (w &&& r.mask).extractLsb' 1 23 := by rw [BitVec.extractLsb'_and, hmask, BitVec.and_allOnes]
    _ = 0 := by rw [hmatch, hpattern]

/-- A word with the opcode of a row of format B and any of `cmd[23:1]` set is illegal (R72, R82). -/
theorem decode_of_formatB_reserved {r : OpcodeRow} (hr : r ∈ opcodeRows) (hB : r.format = .B) {w : Word}
    (hop : opField w = r.op) (hbits : w.extractLsb' 1 23 ≠ 0) : decode w = .error (.reservedBits r.op) :=
  decode_of_reservedBits hr hop (mt (reserved_eq_zero_of_formatB hr hB) hbits)

end Sys2Proof

namespace Sys2Proof.Machine

/-! ### One read slot -/

/-- A slot counts `PHASE` from 0 (R24). -/
theorem startSlot_phase_add (s : State) (n : BitVec 4) : s.startSlot.phase + n = n := BitVec.zero_add n

/-- A constructed block runs one read slot from `PHASE` 0 and answers `SAMP`, or the pin error (R135). -/
theorem exec_rdbit {s : State} (h : s.constructed = true) :
    exec .rdbit s = .next ((readBit s.startSlot).finish fun t => t.reply (boolByte t.samp)) :=
  exec_of_pass rfl (not_stateRefuses_of_constructed h nofun)

/-- Settles O29: RDBIT is one read slot and the level it sampled, or the pin failure at one of the three accesses. -/
theorem rdbitReadsOneSlot : Obligations.RdbitReadsOneSlot := by
  refine ⟨rfl, fun s x o hc hg => ?_, fun s ls e o hc hl hg => ?_, fun s hc => exec_of_stateRefuses rfl hc⟩
  · rw [exec_rdbit hc, readBit_ok (s := s.startSlot) hg, ← responseWord_ok_boolByte]
    rfl
  · rw [exec_rdbit hc, readBit_abort (s := s.startSlot) hl hg, startSlot_phase_add]
    rfl

/-! ### One write slot -/

/-- A constructed block runs one write slot from `PHASE` 0 and answers without data, or the pin error (R138). -/
theorem exec_wrbit {s : State} (b : Bool) (h : s.constructed = true) :
    exec (.wrbit b) s = .next ((writeBit b s.startSlot).finish fun t => t.reply 0) :=
  exec_of_pass rfl (not_stateRefuses_of_constructed h nofun)

/-- WRBIT 1 has the checks, the slot and the end of WRBIT1 (R136, R138). -/
theorem exec_wrbit_true (s : State) : exec (.wrbit true) s = exec .wrbit1 s := rfl

/-- WRBIT 0 has the checks, the slot and the end of WRBIT0 (R137, R138). -/
theorem exec_wrbit_false (s : State) : exec (.wrbit false) s = exec .wrbit0 s := rfl

/-- WRBIT when both accesses succeed (R133, R138). -/
theorem exec_wrbit_ok {s : State} (bit : Bool) {a b : Bool} {o : Oracle} (hc : s.constructed = true)
    (h : s.oracle.Gives [.ok a, .ok b] o) :
    exec (.wrbit bit) s = .next { s with
      oracle := o, phase := 4, padout := .released, rsp := some 0x00000000#32,
      history := (writeTrace s.params bit).reverse ++ s.history } := by
  rw [exec_wrbit bit hc, writeBit_ok (s := s.startSlot) h]
  rfl

/-- WRBIT when access number `ls.length` fails (R140). -/
theorem exec_wrbit_abort {s : State} (bit : Bool) {ls : List Bool} {e : Byte} {o : Oracle}
    (hc : s.constructed = true) (hl : ls.length ≤ 1) (h : s.oracle.Gives (drivesOk ls ++ [.err e]) o) :
    exec (.wrbit bit) s = .next { s with
      oracle := o, phase := BitVec.ofNat 4 (2 * ls.length), padout := .unknown,
      history := (writeAbort s.params bit ls.length e).reverse ++ s.history,
      rsp := some (responseWord .pinError e 0) } := by
  rw [exec_wrbit bit hc, writeBit_abort (s := s.startSlot) hl h, startSlot_phase_add]
  rfl

/-- Settles O30: WRBIT1 and WRBIT0 are WRBIT of the bits 1 and 0. -/
theorem writeBitCommandsSendTheirSlot : Obligations.WriteBitCommandsSendTheirSlot := by
  refine ⟨rfl, rfl, fun s a b o hc hg => ?_, fun s ls e o hc hl hg => ?_,
    fun s hc => ⟨exec_of_stateRefuses rfl hc, exec_of_stateRefuses rfl hc⟩⟩
  · rw [← exec_wrbit_true, ← exec_wrbit_false]
    exact ⟨exec_wrbit_ok true hc hg, exec_wrbit_ok false hc hg⟩
  · rw [← exec_wrbit_true, ← exec_wrbit_false]
    exact ⟨exec_wrbit_abort true hc hl hg, exec_wrbit_abort false hc hl hg⟩

/-- Settles O31: WRBIT has format B, and is the write slot of its bit. -/
theorem wrbitSendsTheChosenSlot : Obligations.WrbitSendsTheChosenSlot := by
  refine ⟨rfl, rfl, fun w hop hbits => ?_, fun s => ⟨exec_wrbit_true s, exec_wrbit_false s⟩,
    fun s bit a b o => exec_wrbit_ok bit, fun s bit hc => exec_of_stateRefuses rfl hc⟩
  have hrow : opcodeRows[10] ∈ opcodeRows := List.getElem_mem _
  exact decode_of_formatB_reserved hrow rfl hop hbits

end Sys2Proof.Machine

/-! ## Byte sequences and the loopback pin (spec/43_byte_ops.md R153 to R158) -/

namespace Sys2Proof.Machine

/-! ### What sequence commands share -/

/-- A command out of range does nothing but answer `BAD_OPERAND` (R214, R215). -/
theorem exec_of_not_wellFormed {i : Instr} {s : State} (hw : i.wellFormed s.params.bufDepth = false) :
    exec i s = .next { s with rsp := some 0x40000000#32 } := by
  simp only [exec_eq, checked, refusal_eq_badOperand.2 hw]
  rfl

/-- `IDX` cannot overflow in a sequence: it starts at 0, and the buffer has at most 256 cells (R7, R51). -/
theorem startSequence_idx_add_lt {s : State} {n : Nat} (hp : s.params.Admissible) (hn : n ≤ s.params.bufDepth) :
    s.startSequence.idx.toNat + n < 512 := by
  obtain ⟨-, -, -, hdepth⟩ := hp
  change 0 + n < 512
  omega

/-- The buffer after the first `n` bytes that a list of bits makes are stored from cell 0 on: the cells below `n` hold them,
every other cell is as it was (R154, R156). -/
theorem read_writeAll_bytesOfBits (m : Memory) (n : Nat) (bs : List Bool) :
    (∀ a, a < n → (m.writeAll 0 (bytesOfBits n bs)).read a = some (byteOfBits ((bs.drop (8 * a)).take 8))) ∧
    (∀ a, n ≤ a → (m.writeAll 0 (bytesOfBits n bs)).read a = m.read a) := by
  refine ⟨fun a ha => ?_, fun a ha => ?_⟩ <;> rw [Memory.read_writeAll, length_bytesOfBits]
  · rw [if_pos (by omega), Nat.sub_zero, getElem?_bytesOfBits n a bs ha]
  · rw [if_neg (by omega)]

/-- `PADOUT` after a sequence of `len` bytes: as it was when there is none (R153). -/
theorem padAfterSlots_toNat (len : BitVec 16) (pad : PadOut) :
    padAfterSlots len.toNat pad = if len = 0 then pad else .released := by
  simp only [padAfterSlots, ← BitVec.toNat_inj, BitVec.ofNat_eq_ofNat, BitVec.toNat_zero]

/-! ### RDBYTES -/

/-- A constructed block reads the bytes of a sequence in range and answers without data, or the pin error (R154). -/
theorem exec_rdbytes {s : State} {len : BitVec 16} (hc : s.constructed = true) (hl : len.toNat ≤ s.params.bufDepth) :
    exec (.rdbytes len) s = .next ((readBytes len.toNat s.startSequence).finish fun t => t.reply 0) :=
  exec_of_pass (decide_eq_true hl) (not_stateRefuses_of_constructed hc nofun)

/-- Settles O34: RDBYTES is `readBytes` from cell 0 and its reply. -/
theorem rdbytesFillsTheBuffer : Obligations.RdbytesFillsTheBuffer := by
  refine ⟨fun len => pack_zero_eq_or 0x0E len, fun s len xs o hp hc hl h8 hg => ?_,
    fun s len hlt => exec_of_not_wellFormed (decide_eq_false (Nat.not_le.2 hlt)),
    fun s len hl hc => exec_of_stateRefuses (decide_eq_true hl) hc⟩
  obtain ⟨phase, bitc, sr, samp, hr⟩ :=
    readBytes_ok len.toNat xs (s := s.startSequence) h8 (startSequence_idx_add_lt hp hl) hg
  rw [exec_rdbytes hc hl, hr, padAfterSlots_toNat]
  exact ⟨_, rfl, rfl, read_writeAll_bytesOfBits s.buf len.toNat (levels xs)⟩

/-! ### WRBYTES -/

/-- A constructed block writes the bytes of a sequence in range and answers without data, or the pin error (R155). -/
theorem exec_wrbytes {s : State} {len : BitVec 16} (hc : s.constructed = true) (hl : len.toNat ≤ s.params.bufDepth) :
    exec (.wrbytes len) s = .next ((writeBytes len.toNat s.startSequence).finish fun t => t.reply 0) :=
  exec_of_pass (decide_eq_true hl) (not_stateRefuses_of_constructed hc nofun)

/-- The trace of a sequence written from cell 0 on (R155). -/
theorem writeCellsTrace_zero (s : State) (n : Nat) :
    writeCellsTrace s.startSequence 0 n = (List.range n).flatMap fun a => writeByteTrace s.params (s.memRead a) := by
  simp only [writeCellsTrace, Nat.zero_add]
  rfl

/-- Settles O35: WRBYTES is `writeBytes` from cell 0 and its reply. -/
theorem wrbytesSendsTheBuffer : Obligations.WrbytesSendsTheBuffer := by
  refine ⟨fun len => pack_zero_eq_or 0x0F len, fun s len ls o hp hc hl h16 hg => ?_,
    fun s len hlt => exec_of_not_wellFormed (decide_eq_false (Nat.not_le.2 hlt)),
    fun s len hl hc => exec_of_stateRefuses (decide_eq_true hl) hc⟩
  obtain ⟨phase, bitc, sr, hr⟩ :=
    writeBytes_ok len.toNat ls (s := s.startSequence) h16 (startSequence_idx_add_lt hp hl) hg
  rw [exec_wrbytes hc hl, hr, padAfterSlots_toNat, ← writeCellsTrace_zero]
  exact ⟨_, rfl, rfl⟩

/-! ### A failed access inside a sequence -/

/-- Settles O36: the procedures stop at the failed access, and the pin failure changes the response alone. -/
theorem byteSequencesStopAtTheFailedAccess : Obligations.ByteSequencesStopAtTheFailedAccess := by
  refine ⟨fun s len k m xs ls e o hp hc hl hk hm h8 hls hg => ?_,
    fun s len k m ls e o hp hc hl hk hm h1 h2 hg => ?_⟩
  · rw [List.append_assoc] at hg
    obtain ⟨phase, bitc, idx, sr, samp, hr⟩ := readBytes_abort len.toNat k xs (s := s.startSequence) hk
      (by omega) (by omega) (startSequence_idx_add_lt hp hl) hls hg
    rw [exec_rdbytes hc hl, hr]
    exact ⟨_, rfl, rfl, read_writeAll_bytesOfBits s.buf k (levels xs)⟩
  · obtain ⟨phase, bitc, idx, sr, hr⟩ := writeBytes_abort len.toNat k m ls (s := s.startSequence) hk hm h1 h2
      (startSequence_idx_add_lt hp hl) hg
    have hcell : s.startSequence.memRead (s.startSequence.idx.toNat + k) = s.memRead k :=
      congrArg s.memRead (Nat.zero_add k)
    rw [exec_wrbytes hc hl, hr, hcell, ← writeCellsTrace_zero]
    exact ⟨_, rfl, rfl⟩

/-! ### The loopback pin -/

/-- Read slots do not begin with a sample. -/
theorem noSampleFirst_reads (p : Params) (ls : List Bool) : noSampleFirst (ls.flatMap (readTrace p)) = true := by
  cases ls with
  | nil => rfl
  | cons l ls => exact noSampleFirst_readTrace p l (ls.flatMap (readTrace p))

/-- The slots a loopback pin sees in a byte written and the read slots after it (R158). -/
theorem wireSlots_writeThenReads {p : Params} (hp : p.Admissible) (v : Byte) (ls : List Bool) :
    wireSlots p (writeByteTrace p v ++ ls.flatMap (readTrace p)) = (bitsOf v).map .wrote ++ ls.map .read := by
  have hreads : wireSlots p (ls.flatMap (readTrace p)) = ls.map .read := by
    simpa [wireSlots] using wireSlots_reads p ls []
  rw [writeByteTrace, wireSlots_writes hp (bitsOf v) (noSampleFirst_reads p ls), hreads]

/-- A loopback pin records the bits of the byte written, and nothing from the read slots after it (R158). -/
theorem loopbackBits_writeThenReads {p : Params} (hp : p.Admissible) (v : Byte) (ls : List Bool) :
    loopbackBits p (writeByteTrace p v ++ ls.flatMap (readTrace p)) = bitsOf v := by
  rw [loopbackBits, wireSlots_writeThenReads hp]
  simp [List.filterMap_map, Function.comp_def, WireSlot.recorded]

/-- Eight read slots after a byte written, replayed by a loopback pin, sample its bits (R158). -/
theorem levels_eq_bitsOf_of_replays {p : Params} (hp : p.Admissible) {v : Byte} {ls : List Bool} (h8 : ls.length = 8)
    (h : Replays [] (wireSlots p (writeByteTrace p v ++ ls.flatMap (readTrace p)))) : ls = bitsOf v := by
  rw [wireSlots_writeThenReads hp, replays_writes, List.nil_append, ← List.append_nil (ls.map _)] at h
  exact replays_reads (h8.trans (length_bitsOf v).symm) h

/-- A RESET before it leaves nothing to replay, also where the tables make its pulse look like a read slot (R158). -/
theorem replays_reset (p : Params) (l : Bool) (es : List Event) :
    Replays [] (wireSlots p (resetTrace p l ++ es)) ↔ Replays [] (wireSlots p es) := by
  simp only [resetTrace, List.cons_append, List.nil_append, wireSlots, slotOf, T, tableEntry]
  split <;> simp [Replays]

/-- A loopback pin's answers to a read slot that replays `b`. -/
def replaySlot (b : Bool) : SlotAnswer := ⟨true, true, b⟩

@[simp] theorem levels_map_replaySlot (bs : List Bool) : levels (bs.map replaySlot) = bs := by
  simp [levels, replaySlot, Function.comp_def]

/-- An oracle scripted with a loopback pin's answers gives those of read slots that replay the bits. -/
theorem gives_loopbackAnswers (bs : List Bool) (draws : Nat) :
    Oracle.Gives { script := loopbackAnswers bs, draws := draws } ((bs.map replaySlot).flatMap SlotAnswer.answers)
      { script := [], draws := draws } := by
  induction bs with
  | nil => rfl
  | cons b bs ih => exact ⟨rfl, rfl, rfl, ih⟩

/-- Settles O37: the read slots sample the bits that the write slots sent, in the same order. -/
theorem loopbackReturnsTheByteWritten : Obligations.LoopbackReturnsTheByteWritten := by
  obtain ⟨-, hreset, -⟩ := resetSendsThePulseAndReportsPresence
  obtain ⟨-, hwrite, -⟩ := wrbyteSendsItsBits
  obtain ⟨-, hread, -⟩ := rdbyteAssemblesTheSampledBits
  refine ⟨fun s v ls o draws hp hc hl hg => ?_, fun s v y ls xs o hp hc hl h8 hg => ?_⟩
  · refine ⟨_, _, hwrite s v ls o hc hl hg,
      hread _ ((bitsOf v).map replaySlot) { script := [], draws := draws } hc (by simp) ?_, ?_⟩
    · have hbits := loopbackBits_writeThenReads hp v []
      rw [List.flatMap_nil, List.append_nil] at hbits
      rw [newEvents_eq rfl, hbits]
      exact gives_loopbackAnswers (bitsOf v) draws
    · simp [byteOfBits_bitsOf]
  · obtain ⟨o₂, hdrives, hxs⟩ := (Oracle.gives_append _ _ _ _).1 hg
    obtain ⟨o₁, hy, hls⟩ := (Oracle.gives_append _ _ _ _).1 hdrives
    refine ⟨_, _, _, hreset s y o₁ hc hy, hwrite _ v ls o₂ hc hl hls, hread _ xs o hc h8 hxs, ?_⟩
    rw [newEvents_eq (es := resetTrace s.params y.level ++
      (writeByteTrace s.params v ++ (levels xs).flatMap (readTrace s.params)))
      (by simp only [List.reverse_append, List.append_assoc]; rfl)]
    refine ⟨(loopbackBits_reset s.params y.level _).trans (loopbackBits_writeThenReads hp v (levels xs)), fun h => ?_⟩
    have hlevels := levels_eq_bitsOf_of_replays hp (by simpa using h8) ((replays_reset s.params y.level _).1 h)
    simp only [hlevels, byteOfBits_bitsOf]

end Sys2Proof.Machine

/-! ## The CRC8 validator (spec/44_crc8.md R170 to R174) -/

namespace Sys2Proof.Machine

/-! ### The two commands -/

/-- `CRC` and `IDX` after the fold of CRC8 and CHKCRC in range: the buffer has at most 256 cells (R7, R171). -/
theorem crcOfBuffer_of_admissible {s : State} {len : BitVec 16} (hp : s.params.Admissible)
    (hl : len.toNat ≤ s.params.bufDepth) :
    crcOfBuffer len s = { s with
      idx := BitVec.ofNat 9 len.toNat, crc := crcSeq ((List.range len.toNat).map s.memRead) } := by
  obtain ⟨-, -, -, hdepth⟩ := hp
  exact crcOfBuffer_eq len s (hl.trans hdepth)

/-- CRC8 in range folds the buffer and answers `CRC`, constructed or not (R172). -/
theorem exec_crc8 {s : State} {len : BitVec 16} (hl : len.toNat ≤ s.params.bufDepth) :
    exec (.crc8 len) s = .next (crcOfBuffer len s).crcReply :=
  exec_of_pass (decide_eq_true hl) id

/-- CHKCRC in range folds the buffer and answers whether `CRC` is 0, constructed or not (R173). -/
theorem exec_chkcrc {s : State} {len : BitVec 16} (hl : len.toNat ≤ s.params.bufDepth) :
    exec (.chkcrc len) s = .next (crcOfBuffer len s).crcVerdict :=
  exec_of_pass (decide_eq_true hl) id

/-- Settles O38: CRC8 is the fold over the buffer and its reply. -/
theorem crcCommandAnswersTheChecksum : Obligations.CrcCommandAnswersTheChecksum := by
  refine ⟨fun len => pack_zero_eq_or 0x10 len, fun s len hp hl => ?_,
    fun s len hlt => exec_of_not_wellFormed (decide_eq_false (Nat.not_le.2 hlt))⟩
  rw [exec_crc8 hl, crcOfBuffer_of_admissible hp hl]
  rfl

/-- The response word of CHKCRC carries no data, whatever the checksum is (R74, R173). -/
theorem responseWord_crcVerdict (c : Byte) :
    responseWord (if c = 0 then .ok else .crcNonzero) 0 0 = if c = 0 then 0x00000000#32 else 0x20000000#32 := by
  split <;> rfl

/-- Settles O39: CHKCRC is the fold over the buffer and its verdict. -/
theorem chkcrcAnswersWhetherTheChecksumIsZero : Obligations.ChkcrcAnswersWhetherTheChecksumIsZero := by
  refine ⟨fun len => pack_zero_eq_or 0x11 len, fun s len hp hl => ?_,
    fun s len hlt => exec_of_not_wellFormed (decide_eq_false (Nat.not_le.2 hlt))⟩
  rw [exec_chkcrc hl, crcOfBuffer_of_admissible hp hl, ← responseWord_crcVerdict]
  rfl

/-! ### The zero property (R174 (a), (b)) -/

/-- The bits of a byte, folded into that byte, are shifted out of it: each meets itself as the low bit (R174 (a)). -/
theorem foldl_crcBit_self (c : Byte) (k : Nat) :
    (List.range k).foldl (fun a i => crcBit a (c.getLsbD i)) c = c >>> k := by
  induction k with
  | zero => simp
  | succ k ih =>
    have hlow : (c >>> k).getLsbD 0 = c.getLsbD k := by simp
    rw [List.range_succ, List.foldl_append, ih, List.foldl_cons, List.foldl_nil, crcBit, hlow, Bool.xor_self,
      BitVec.shiftRight_add]
    rfl

@[simp] theorem crcByte_self (c : Byte) : crcByte c c = 0 := by
  rw [crcByte, foldl_crcBit_self]
  exact BitVec.ushiftRight_eq_zero (Nat.le_refl 8)

theorem crcSeq_append_crcSeq (bytes : List Byte) : crcSeq (bytes ++ [crcSeq bytes]) = 0 := by
  rw [crcSeq, List.foldl_append]
  exact crcByte_self (crcSeq bytes)

/-- Settles O40: a checksum folded into itself is 0, and CHKCRC answers `OK` to 0. -/
theorem checksumOfDataWithItsChecksumIsZero : Obligations.ChecksumOfDataWithItsChecksumIsZero := by
  refine ⟨crcSeq_append_crcSeq, fun s len bytes hp hl hbytes => ⟨_, exec_chkcrc hl, ?_⟩⟩
  rw [crcOfBuffer_of_admissible hp hl, hbytes, crcSeq_append_crcSeq]
  exact (answered_iff rfl).2 rfl

/-! ### Linearity and single errors (R174 (c)) -/

/-- Folding is linear in the bytes and the running checksum together. -/
theorem foldl_crcByte_zipWith_xor {xs ys : List Byte} (h : xs.length = ys.length) (c d : Byte) :
    (List.zipWith (· ^^^ ·) xs ys).foldl crcByte (c ^^^ d) = xs.foldl crcByte c ^^^ ys.foldl crcByte d := by
  induction xs generalizing ys c d with
  | nil =>
    obtain rfl : ys = [] := List.length_eq_zero_iff.1 h.symm
    rfl
  | cons x xs ih =>
    match ys, h with
    | y :: ys, h =>
      rw [List.zipWith_cons_cons, List.foldl_cons, List.foldl_cons, List.foldl_cons, crcByte_xor]
      exact ih (Nat.succ.inj h) _ _

/-- One step with the bit 0 loses nothing: the low bit shifted out is the high bit of the result, since the polynomial has
that bit set (R170). -/
theorem eq_zero_of_crcBit_false {e : Byte} (h : crcBit e false = 0) : e = 0 := by
  have hlow : e.getLsbD 0 = decide (e.toNat % 2 = 1) := by simp [BitVec.getLsbD, Nat.testBit_zero]
  rw [crcBit, hlow, Bool.xor_false] at h
  split at h
  next =>
    have hpoly : e >>> 1 = 0x8C#8 := BitVec.xor_eq_zero_iff.1 h
    bv_omega
  next heven =>
    rw [decide_eq_true_eq] at heven
    bv_omega

/-- One step loses nothing of the running checksum. -/
theorem crcBit_left_injective (b : Bool) : Function.Injective fun c => crcBit c b := by
  intro c d h
  have hxor : crcBit (c ^^^ d) false = 0 := by
    rw [← Bool.xor_self b, crcBit_xor]
    exact BitVec.xor_eq_zero_iff.2 h
  exact BitVec.xor_eq_zero_iff.1 (eq_zero_of_crcBit_false hxor)

/-- A fold whose steps lose nothing of the accumulator loses nothing of where it began. -/
theorem foldl_injective {α β : Type} {f : β → α → β} (hf : ∀ a, Function.Injective fun b => f b a) (as : List α) :
    Function.Injective fun b => as.foldl f b := by
  induction as with
  | nil => exact Function.injective_id
  | cons a as ih => exact ih.comp (hf a)

theorem crcByte_left_injective (v : Byte) : Function.Injective fun c => crcByte c v :=
  foldl_injective (fun i => crcBit_left_injective (v.getLsbD i)) (List.range 8)

/-- The running checksum and the next byte count only through their exclusive or. -/
theorem crcByte_eq_crcByte_xor_zero (c v : Byte) : crcByte c v = crcByte (c ^^^ v) 0 := by
  calc crcByte c v
      = crcByte c v ^^^ crcByte v v := by rw [crcByte_self]; exact BitVec.xor_zero.symm
    _ = crcByte (c ^^^ v) (v ^^^ v) := (crcByte_xor c v v v).symm
    _ = crcByte (c ^^^ v) 0 := congrArg _ BitVec.xor_self

theorem crcByte_right_injective (c : Byte) : Function.Injective (crcByte c) := by
  intro v w h
  rw [crcByte_eq_crcByte_xor_zero c v, crcByte_eq_crcByte_xor_zero c w] at h
  exact (BitVec.xor_right_inj c).1 (crcByte_left_injective 0 h)

/-- Any change of one byte changes the checksum, from any running checksum on. -/
theorem foldl_crcByte_set_ne {xs : List Byte} {k : Nat} {v w : Byte} (hv : xs[k]? = some v) (hne : w ≠ v) (c : Byte) :
    (xs.set k w).foldl crcByte c ≠ xs.foldl crcByte c := by
  induction xs generalizing k c with
  | nil => cases hv
  | cons x xs ih =>
    cases k with
    | zero =>
      obtain rfl : x = v := Option.some.inj hv
      exact fun h => hne (crcByte_right_injective c (foldl_injective crcByte_left_injective xs h))
    | succ k => exact ih hv (crcByte c x)

/-- A flipped bit makes another byte. -/
theorem xor_bit_ne {i : Nat} (hi : i < 8) (v : Byte) : v ^^^ (1#8 <<< i) ≠ v := by
  intro h
  have hbit := congrArg (·.getLsbD i) h
  simp [hi] at hbit

/-- Settles O41: the fold is linear, and no change of a single byte is lost in it. -/
theorem checksumDetectsEverySingleBitError : Obligations.ChecksumDetectsEverySingleBitError :=
  ⟨fun _ _ h => foldl_crcByte_zipWith_xor h 0 0, fun _ _ _ v hi hv => foldl_crcByte_set_ne hv (xor_bit_ne hi v) 0⟩

end Sys2Proof.Machine

/-! ## Buffer access and the speed register (spec/45_buffer_speed.md R185 to R188) -/

namespace Sys2Proof

/-- A word with the opcode of a row that reads no operand from `cmd[7:0]`, and any of those bits set, is illegal
(R72, R82). -/
theorem decode_of_dField_reserved {r : OpcodeRow} (hr : r ∈ opcodeRows) {w : Word} {a : BitVec 16}
    (hword : encode (r.operands w) = pack r.op a 0) (hop : opField w = r.op) (hd : dField w ≠ 0) :
    decode w = .error (.reservedBits r.op) := by
  refine decode_of_reservedBits hr hop fun hmatch => hd ?_
  rw [← (row_matches_iff hr w).1 hmatch, hword, dField_pack]

/-- A word with the opcode of a row that takes both fields as operands decodes: no bit of it must be zero (R72, R82). -/
theorem decode_of_no_reserved {r : OpcodeRow} (hr : r ∈ opcodeRows) {w : Word}
    (hword : encode (r.operands w) = pack r.op (aField w) (dField w)) (hop : opField w = r.op) :
    decode w = .ok (r.operands w) := by
  refine decode_eq_ok_iff.2 ⟨r, hr, (row_matches_iff hr w).2 ?_, rfl⟩
  rw [hword, ← hop, pack_fields]

end Sys2Proof

namespace Sys2Proof.Machine

/-! ### The buffer commands -/

/-- Settles O42: LDBUF has no operand in `cmd[7:0]`, and answers the cell alone. -/
theorem ldbufReadsOneCell : Obligations.LdbufReadsOneCell := by
  refine ⟨fun idx => pack_zero_eq_or 0x12 idx, fun w hop hd => ?_, fun s idx h => exec_ldbuf h,
    fun s idx h => exec_of_not_wellFormed (decide_eq_false (Nat.not_lt.2 h))⟩
  have hrow : opcodeRows[17] ∈ opcodeRows := List.getElem_mem _
  exact decode_of_dField_reserved hrow rfl hop hd

/-- Settles O43: STBUF takes every bit below its opcode as an operand, and is one write of the buffer and a reply. -/
theorem stbufWritesOneCell : Obligations.StbufWritesOneCell := by
  refine ⟨fun idx v => ?_, fun w hop => ?_, fun s idx v h => ⟨_, exec_stbuf v h, rfl, ?_, fun a ha => ?_⟩,
    fun s idx v h => exec_of_not_wellFormed (decide_eq_false (Nat.not_lt.2 h))⟩
  · exact (pack_eq_or 0x13 idx v).trans (congrArg (· ||| v.setWidth 32) (pack_zero_eq_or 0x13 idx))
  · have hrow : opcodeRows[18] ∈ opcodeRows := List.getElem_mem _
    exact decode_of_no_reserved hrow rfl hop
  · rw [State.memRead_reply, State.memRead_memWrite_same]
  · exact Memory.read_write_other s.buf v ha

/-! ### The speed commands -/

/-- The bit of `SPEED` is 1 in Overdrive alone (R30). -/
theorem Speed.bit_eq_decide (x : Speed) : x.bit = decide (x = .overdrive) := by
  cases x <;> rfl

/-- A bit written to `SPEED` is the bit read from it (R30, R188). -/
theorem Speed.bit_ofBit (b : Bool) : (Speed.ofBit b).bit = b := by
  cases b <;> rfl

/-- A constructed block answers the bit of `SPEED` and does nothing else (R187). -/
theorem exec_getspd {s : State} {b : Bool} (h : s.constructed = true) (hb : s.speed.bit = b) :
    exec .getspd s = .next { s with rsp := some (if b then 0x00000001#32 else 0x00000000#32) } := by
  rw [← responseWord_ok_boolByte, ← hb]
  exact exec_of_pass rfl (not_stateRefuses_of_constructed h nofun)

/-- A constructed block sets `SPEED` and answers without data (R188). -/
theorem exec_setspd {s : State} (b : Bool) (h : s.constructed = true) :
    exec (.setspd b) s = .next { s with speed := Speed.ofBit b, rsp := some 0x00000000#32 } :=
  exec_of_pass rfl (not_stateRefuses_of_constructed h nofun)

/-- Settles O45: GETSPD answers the bit of `SPEED`, which is 1 in Overdrive. -/
theorem getspdAnswersTheSpeed : Obligations.GetspdAnswersTheSpeed := by
  refine ⟨rfl, fun s hc => ?_, fun s hc => exec_of_stateRefuses rfl hc⟩
  simp only [exec_getspd hc (Speed.bit_eq_decide s.speed), decide_eq_true_eq]

/-- Settles O46: SETSPD has format B, and the next GETSPD answers the bit it set. -/
theorem setspdChangesOnlyTheSpeed : Obligations.SetspdChangesOnlyTheSpeed := by
  refine ⟨rfl, rfl, fun w hop hbits => ?_, fun s b hc => ⟨exec_setspd b hc, fun t ht => ?_⟩,
    fun s b hc => exec_of_stateRefuses rfl hc⟩
  · have hrow : opcodeRows[20] ∈ opcodeRows := List.getElem_mem _
    exact decode_of_formatB_reserved hrow rfl hop hbits
  · obtain rfl := Host.Outcome.next.inj ((exec_setspd b hc).symm.trans ht)
    exact exec_getspd hc (Speed.bit_ofBit b)

end Sys2Proof.Machine

/-! ## Host programs (spec/46_command_dispatch.md R203, R206)

Two idle blocks that agree differ in the transient registers, which `RegMap` covers, and in what has happened outside them
so far, which no command reads: a command started after another past does the same, after that past. -/

namespace Sys2Proof.Machine

/-! ### The past of a block -/

/-- What no command reads: the ghosts `PADOUT` and event history (R14, R35), the words of the host port (R92, R94) and the
mark of hardware reset. -/
structure Past where
  padout : PadOut
  history : List Event
  offers : List Word
  taken : List Word
  inReset : Bool

/-- The past that a block has behind it. -/
def State.past (s : State) : Past := ⟨s.padout, s.history, s.offers, s.taken, s.inReset⟩

/-- The state whose events come after those of `p`; `PADOUT` follows from them (`Extends.padout`). -/
def State.after (p : Past) (s : State) : State :=
  { s with
    padout := s.history.foldr (fun e pad => padAfter pad e) p.padout, history := s.history ++ p.history
    offers := p.offers, taken := p.taken, inReset := p.inReset }

/-- What a procedure comes to, with its state changed. -/
def Run.map (f : State → State) : Run → Run
  | .done t => .done (f t)
  | .failed e t => .failed e (f t)

theorem Run.map_andThen {f : State → State} {k : State → Run} (r : Run) (hk : ∀ t, k (f t) = (k t).map f) :
    (r.map f).andThen k = (r.andThen k).map f := by
  cases r with
  | done t => exact hk t
  | failed e t => rfl

theorem Run.map_finish {f : State → State} {close : State → State} (r : Run) (hc : ∀ t, close (f t) = f (close t))
    (hfail : ∀ t e, (f t).pinFailure e = f (t.pinFailure e)) : (r.map f).finish close = f (r.finish close) := by
  cases r with
  | done t => exact hc t
  | failed e t => exact hfail t e

/-! ### Procedures and commands after a past -/

section
variable (p : Past)

/-- An event after a past is an event at the end of the history, and decides `PADOUT` as it does without that past. -/
theorem complete_after (op : MicroOp) (a : PinAnswer) (s : State) :
    complete op a (s.after p) = (complete op a s).map (State.after p) := by
  cases op with
  | wait n => rfl
  | low => cases a <;> rfl
  | high => cases a <;> rfl
  | sample => cases a <;> rfl

theorem perform_after (op : MicroOp) (s : State) : perform op (s.after p) = (perform op s).map (State.after p) := by
  unfold perform
  split
  · exact complete_after p op _ { s with oracle := s.oracle.next.2 }
  · exact complete_after p op _ s

theorem runSlot_after (ops : List MicroOp) (s : State) :
    runSlot ops (s.after p) = (runSlot ops s).map (State.after p) := by
  induction ops generalizing s with
  | nil => rfl
  | cons op ops ih =>
    rw [runSlot, perform_after]
    exact Run.map_andThen _ fun t => ih t.nextPhase

theorem readBits_after (n : Nat) (s : State) : readBits n (s.after p) = (readBits n s).map (State.after p) := by
  induction n generalizing s with
  | zero => rfl
  | succ n ih =>
    have hslot : readBit (s.after p) = (readBit s).map (State.after p) := runSlot_after p (readSlot s.params) s
    rw [readBits, hslot]
    exact Run.map_andThen _ fun t => ih t.shiftIn.endSlot

theorem writeBits_after (n : Nat) (s : State) : writeBits n (s.after p) = (writeBits n s).map (State.after p) := by
  induction n generalizing s with
  | zero => rfl
  | succ n ih =>
    have hslot : ∀ b, writeBit b (s.after p) = (writeBit b s).map (State.after p) :=
      fun b => runSlot_after p (writeSlot s.params b) s
    rw [writeBits, hslot]
    exact Run.map_andThen _ fun t => ih t.endSlot

theorem readBytes_after (n : Nat) (s : State) : readBytes n (s.after p) = (readBytes n s).map (State.after p) := by
  induction n generalizing s with
  | zero => rfl
  | succ n ih =>
    have hbyte : readByte (s.after p) = (readByte s).map (State.after p) := readBits_after p 8 (s.startByte 0)
    rw [readBytes, hbyte]
    exact Run.map_andThen _ fun t => ih t.storeByte.endByte

theorem writeBytes_after (n : Nat) (s : State) : writeBytes n (s.after p) = (writeBytes n s).map (State.after p) := by
  induction n generalizing s with
  | zero => rfl
  | succ n ih =>
    have hbyte : ∀ v, writeByte v (s.after p) = (writeByte v s).map (State.after p) :=
      fun v => writeBits_after p 8 (s.startByte v)
    rw [writeBytes, hbyte]
    exact Run.map_andThen _ fun t => ih t.endByte

theorem commandRun_after (i : Instr) (s : State) :
    commandRun i (s.after p) = (commandRun i s).map (State.after p) := by
  cases i with
  | init | sethi => exact perform_after p .high s
  | setlo => exact perform_after p .low s
  | ishi | islo => exact perform_after p .sample s
  | wait us => exact perform_after p (.wait us) s
  | reset => exact runSlot_after p (resetSequence s.params) s.startSlot
  | rdbit => exact runSlot_after p (readSlot s.params) s.startSlot
  | wrbit1 => exact runSlot_after p (writeSlot1 s.params) s.startSlot
  | wrbit0 => exact runSlot_after p (writeSlot0 s.params) s.startSlot
  | wrbit b => exact runSlot_after p (writeSlot s.params b) s.startSlot
  | rdbyte => exact readBits_after p 8 (s.startByte 0)
  | wrbyte v => exact writeBits_after p 8 (s.startByte v)
  | rdbytes len => exact readBytes_after p len.toNat s.startSequence
  | wrbytes len => exact writeBytes_after p len.toNat s.startSequence
  | _ => rfl

theorem crcFold_after (n : Nat) (s : State) : crcFold n (s.after p) = (crcFold n s).after p := by
  induction n generalizing s with
  | zero => rfl
  | succ n ih => exact ih { s with crc := crcByte s.crc (s.memRead s.idx.toNat), idx := s.idx + 1 }

theorem crcOfBuffer_after (len : BitVec 16) (s : State) :
    crcOfBuffer len (s.after p) = (crcOfBuffer len s).after p :=
  crcFold_after p len.toNat { s with crc := 0, idx := 0 }

theorem commandClose_after (i : Instr) (t : State) : commandClose i (t.after p) = (commandClose i t).after p := by
  cases i with
  | crc8 len =>
    rw [commandClose, crc8Body, crcOfBuffer_after]
    rfl
  | chkcrc len =>
    rw [commandClose, chkcrcBody, crcOfBuffer_after]
    rfl
  | _ => rfl

/-- A command does the same after any past. -/
theorem exec_after {i : Instr} {s t : State} (ht : exec i s = .next t) : exec i (s.after p) = .next (t.after p) := by
  have hchecks : refusal i (s.after p) = refusal i s := rfl
  rw [exec_eq, checked] at ht ⊢
  rw [hchecks]
  obtain rfl := Host.Outcome.next.inj ht
  cases refusal i s with
  | some st => rfl
  | none =>
    dsimp only
    rw [commandRun_after, Run.map_finish _ (commandClose_after p i) fun _ _ => rfl]

end

/-! ### Commands on two blocks that agree -/

/-- The map that gives the transient registers the values they have in `t`. -/
def RegMap.ofState (t : State) : RegMap where
  cmd _ := t.cmd
  phase _ := t.phase
  bitc _ := t.bitc
  idx _ := t.idx
  sr _ := t.sr
  samp _ := t.samp
  crc _ := t.crc

/-- Two blocks that agree differ in the transient registers and in their pasts alone. -/
theorem SameBlock.eq_mapRegs_after {s t : State} (h : SameBlock s t) (hb : s.busy = t.busy) (hr : s.rsp = t.rsp) :
    t = (({ s with history := [] } : State).mapRegs (.ofState t)).after t.past := by
  simp only [State.after, State.mapRegs, RegMap.ofState, State.past, h.params, h.constructed, h.speed, h.buf, h.era,
    h.oracle, hb, hr, id, List.foldr_nil, List.nil_append]

/-- `s'` and `t'` agree, and the same trace leads to them from `s` and from `t`. -/
structure RunsAlike (s t s' t' : State) : Prop where
  same : SameBlock s' t'
  trace : ∃ es, s'.history = es ++ s.history ∧ t'.history = es ++ t.history

theorem RunsAlike.trans {s t s' t' s'' t'' : State} (h : RunsAlike s t s' t') (h' : RunsAlike s' t' s'' t'') :
    RunsAlike s t s'' t'' := by
  obtain ⟨es, hs, ht⟩ := h.trace
  obtain ⟨es', hs', ht'⟩ := h'.trace
  exact ⟨h'.same, es' ++ es, by rw [hs', hs, List.append_assoc], by rw [ht', ht, List.append_assoc]⟩

theorem RunsAlike.newEvents_eq {s t s' t' : State} (h : RunsAlike s t s' t') : newEvents s s' = newEvents t t' := by
  obtain ⟨es, hs, ht⟩ := h.trace
  simp [newEvents, hs, ht]

/-- A command answers alike on two blocks that agree: it runs on the block with neither past. -/
theorem exec_alike (i : Instr) {s t : State} (h : SameBlock s t) (hb : s.busy = t.busy) (hr : s.rsp = t.rsp) :
    ∃ (s' t' : State) (r : Word), exec i s = .next s' ∧ exec i t = .next t' ∧ s'.rsp = some r ∧ t'.rsp = some r ∧
      RunsAlike s t s' t' := by
  obtain ⟨u, r, -, hu, hur, -⟩ := exec_answers i { s with history := [] }
  obtain ⟨g, hg, hu'⟩ := exec_mapRegs (f := .ofState t) (fun _ => rfl) hu
  have hspeed : g.speed = id := hg.speed rfl
  have hod : g.od = id := hg.od
  refine ⟨u.after s.past, (u.mapRegs g).after t.past, r, exec_after s.past hu, ?_, hur, hur, ?_, u.history, rfl, rfl⟩
  · rw [h.eq_mapRegs_after hb hr]
    exact exec_after t.past hu'
  · constructor <;> simp [State.after, State.mapRegs, hspeed, hod]

/-- The answer to an offered word, a command's or not, is alike on two idle blocks that agree (R93 to R95). -/
theorem step_offer_alike (w : Word) {s t : State} (hs : s.Idle) (ht : t.Idle) (h : SameBlock s t) :
    ∃ (s' t' : State) (r : Word), step (s.offer w) = .next s' ∧ step (t.offer w) = .next t' ∧
      s'.taken.head? = some r ∧ t'.taken.head? = some r ∧ s'.Idle ∧ t'.Idle ∧ RunsAlike s t s' t' := by
  have hstep : ∀ u : State, u.Idle → step (u.offer w) = (u.offer w).commandStep := fun u hu => by simp [step, hu.1]
  have hlatch : SameBlock (s.latch w) (t.latch w) := ⟨h.params, h.constructed, h.speed, h.buf, h.era, h.oracle⟩
  obtain ⟨u, v, r, hu, hv, hur, hvr, hsame, htrace⟩ : ∃ (u v : State) (r : Word),
      (s.offer w).commandStep = .next u.handOver ∧ (t.offer w).commandStep = .next v.handOver ∧
      u.rsp = some r ∧ v.rsp = some r ∧ RunsAlike (s.latch w) (t.latch w) u v := by
    cases hd : decode w with
    | error e =>
      refine ⟨_, _, _, commandStep_of_error rfl hd, commandStep_of_error rfl hd, rfl, rfl, ?_, [], rfl, rfl⟩
      exact ⟨h.params, h.constructed, h.speed, h.buf, h.era, h.oracle⟩
    | ok i =>
      obtain ⟨u, v, r, hu, hv, hrest⟩ := exec_alike i hlatch rfl (hs.2.trans ht.2.symm)
      exact ⟨u, v, r, commandStep_of_ok rfl hd hu, commandStep_of_ok rfl hd hv, hrest⟩
  refine ⟨u.handOver, v.handOver, r, (hstep s hs).trans hu, (hstep t ht).trans hv, by simp [hur], by simp [hvr],
    ⟨rfl, rfl⟩, ⟨rfl, rfl⟩, ?_, htrace⟩
  exact ⟨hsame.params, hsame.constructed, hsame.speed, hsame.buf, hsame.era, hsame.oracle⟩

/-! ### Host programs on two blocks that agree -/

/-- A host program goes on from the response the step has given it (R200). -/
theorem HostProg.run_issue {α : Type} {w r : Word} {next : Word → HostProg α} {s t : State}
    (hstep : step (s.offer w) = .next t) (hr : t.taken.head? = some r) :
    (HostProg.issue w next).run s = (next r).run t := by
  obtain ⟨rest, htaken⟩ := List.head?_eq_some_iff.1 hr
  simp only [HostProg.run, hstep, htaken]

/-- An idle block has no request outstanding (R206). -/
theorem State.Idle.final {s : State} (h : s.Idle) : s.Final := by
  refine ⟨h, ?_, ?_⟩ <;> rw [outputs_of_idle h]

/-- By induction on the host program: it sees the same responses, so it issues the same words. -/
theorem HostProg.run_alike {α : Type} (program : HostProg α) {s t : State} (hs : s.Idle) (ht : t.Idle)
    (h : SameBlock s t) : ∃ (out : α) (s' t' : State), program.run s = some (out, s') ∧
      program.run t = some (out, t') ∧ s'.Idle ∧ t'.Idle ∧ RunsAlike s t s' t' := by
  induction program generalizing s t with
  | done a => exact ⟨a, s, t, rfl, rfl, hs, ht, h, [], rfl, rfl⟩
  | issue w next ih =>
    obtain ⟨u, v, r, hu, hv, hur, hvr, hui, hvi, huv⟩ := step_offer_alike w hs ht h
    obtain ⟨out, s', t', hs', ht', hsi, hti, hst⟩ := ih r hui hvi huv.same
    exact ⟨out, s', t', (run_issue hu hur).trans hs', (run_issue hv hvr).trans ht', hsi, hti, huv.trans hst⟩

/-- Settles O56: an idle block is final, and what the two runs add to their histories is one trace. -/
theorem hostProgramSeesNoEarlierProgram : Obligations.HostProgramSeesNoEarlierProgram := by
  intro α program s t hs ht h
  obtain ⟨out, s', t', hrun, hrun', hsi, hti, halike⟩ := program.run_alike hs ht h
  exact ⟨out, s', t', hrun, hrun', halike.same, State.Idle.final hsi, State.Idle.final hti, halike.newEvents_eq⟩

end Sys2Proof.Machine

/-! ## Requests and their answers (spec/60_exceptions.md R230, R231, R235, R236, R238) -/

namespace Sys2Proof.Machine

/-! ### An outstanding request -/

/-- A request is out only while the block is `BUSY` and no response waits (R93, R94). -/
theorem busy_unanswered_of_currentOp {s : State} {op : MicroOp} (h : s.currentOp = some op) :
    s.busy = true ∧ s.rsp = none := by
  simpa [State.running] using running_of_currentOp h

/-- A request is out only for a word that decodes (R24, R83). -/
theorem decode_of_currentOp {s : State} {op : MicroOp} (h : s.currentOp = some op) : ∃ i, decode s.cmd = .ok i := by
  rw [State.currentOp, if_pos (running_of_currentOp h)] at h
  cases hd : decode s.cmd with
  | ok i => exact ⟨i, rfl⟩
  | error e => simp [hd] at h

/-- The pin port requests exactly the accesses (R230). -/
theorem MicroOp.pinOp_isSome (op : MicroOp) : op.pinOp.isSome = op.isPin := by cases op <;> rfl

/-- The delay port requests exactly the waits (R235). -/
theorem MicroOp.dlyUs_isSome (op : MicroOp) : op.dlyUs.isSome = !op.isPin := by cases op <;> rfl

/-- A micro-operation is requested on one port only. -/
theorem MicroOp.pinOp_or_dlyUs_none (op : MicroOp) : op.pinOp = none ∨ op.dlyUs = none := by
  cases op
  case wait us => exact .inl rfl
  all_goals exact .inr rfl

/-- "3 is never issued" (R230). -/
theorem MicroOp.pinOp_ne_three (op : MicroOp) : op.pinOp ≠ some 3 := by
  cases op <;> simp [MicroOp.pinOp]

/-- A request on the pin port is an outstanding access. -/
theorem access_of_pin_isSome {s : State} (h : s.outputs.pin.isSome = true) :
    ∃ op, s.currentOp = some op ∧ op.isPin = true := by
  obtain ⟨code, hcode⟩ := Option.isSome_iff_exists.1 h
  obtain ⟨op, ho, hpin⟩ := Option.bind_eq_some_iff.1 hcode
  exact ⟨op, ho, by rw [← MicroOp.pinOp_isSome, hpin]; rfl⟩

/-- A request on the delay port is an outstanding wait. -/
theorem wait_of_dly_isSome {s : State} (h : s.outputs.dly.isSome = true) :
    ∃ op, s.currentOp = some op ∧ op.isPin = false := by
  obtain ⟨us, hus⟩ := Option.isSome_iff_exists.1 h
  obtain ⟨op, ho, hdly⟩ := Option.bind_eq_some_iff.1 hus
  exact ⟨op, ho, by rw [← Bool.not_eq_true', ← MicroOp.dlyUs_isSome, hdly]; rfl⟩

/-! ### The event of an answer -/

theorem complete_history (op : MicroOp) (a : PinAnswer) (s : State) :
    (complete op a s).state.history = eventOf op a :: s.history := by
  cases op <;> cases a <;> rfl

/-- The end of a slot changes the construction, `BUF`, the sequencing registers, `SR` and the response alone. -/
theorem endOfSlot_frame (i : Instr) (s : State) :
    endOfSlot i s = { s with
      constructed := (endOfSlot i s).constructed, speed := (endOfSlot i s).speed, buf := (endOfSlot i s).buf
      phase := (endOfSlot i s).phase, bitc := (endOfSlot i s).bitc, idx := (endOfSlot i s).idx
      sr := (endOfSlot i s).sr, rsp := (endOfSlot i s).rsp } := by
  cases i with
  | rdbyte =>
    rw [endOfSlot, afterReadSlot]
    split <;> rfl
  | wrbyte v =>
    rw [endOfSlot, afterWriteSlot]
    split <;> rfl
  | rdbytes len =>
    rw [endOfSlot, afterReadSlot, afterReadByte]
    split <;> [split; skip] <;> rfl
  | wrbytes len =>
    rw [endOfSlot, afterWriteSlot, afterWriteByte]
    split <;> [split; skip] <;> rfl
  | _ => rfl

/-- The sequencer adds no event of its own. -/
theorem advance_history (i : Instr) (s : State) : (advance i s).history = s.history := by
  have hpass : (s.passOp i).history = s.history := by
    rw [State.passOp]
    split <;> rfl
  rw [advance]
  split
  · rw [endOfSlot_frame, hpass]
  · exact hpass

/-- An answered request is recorded as its event, and as nothing else (R14). -/
theorem answerOp_history {s : State} {op : MicroOp} (a : PinAnswer) (ho : s.currentOp = some op) :
    (s.answerOp op a).history = eventOf op a :: s.history := by
  obtain ⟨i, hd⟩ := decode_of_currentOp ho
  rw [← complete_history op a s, State.answerOp, hd]
  dsimp only
  cases complete op a s with
  | done t => exact advance_history i t
  | failed e t => rfl

/-! ### Edges with a request out -/

/-- An edge that answers an access performs it (R231). -/
theorem clockEdge_of_ack {s : State} {op : MicroOp} {i : PortIn} (ho : s.currentOp = some op) (hi : i.rstN = true)
    (hop : op.isPin = true) (hack : i.pinAck = true) : s.clockEdge i = s.answerOp op i.answer := by
  obtain ⟨hb, hn⟩ := busy_unanswered_of_currentOp ho
  rw [clockEdge_of_run s hi, runEdge_op i hb hn ho, if_pos hop, if_pos hack]

/-- An edge that ends a wait performs it (R236). -/
theorem clockEdge_of_done {s : State} {n : Us} {i : PortIn} (ho : s.currentOp = some (.wait n)) (hi : i.rstN = true)
    (hdone : i.dlyDone = true) : s.clockEdge i = s.answerOp (.wait n) (.ok false) := by
  obtain ⟨hb, hn⟩ := busy_unanswered_of_currentOp ho
  have hop : ¬ (MicroOp.wait n).isPin = true := Bool.false_ne_true
  rw [clockEdge_of_run s hi, runEdge_op i hb hn ho, if_neg hop, if_pos hdone]

/-- An edge without the answer leaves the block, and its request, as they are (R231, R236, R238). -/
theorem clockEdge_unanswered {s : State} {op : MicroOp} {i : PortIn} (ho : s.currentOp = some op) (hi : i.rstN = true)
    (hno : (if op.isPin then i.pinAck else i.dlyDone) = false) : s.clockEdge i = s := by
  rw [clockEdge_of_run s hi]
  refine runEdge_unanswered i ho ?_
  cases hop : op.isPin <;> simpa [hop] using hno

/-- Settles O19: a request is one micro-operation, which has one port. -/
theorem oneStableRequestAtATime : Obligations.OneStableRequestAtATime := by
  intro s
  refine ⟨?_, ?_, fun i hpin hi hack => ?_, fun i hdly hi hdone => ?_, fun i op ho hi => ⟨fun hop hack => ?_, ?_⟩⟩
  · rw [State.outputs]
    cases s.currentOp with
    | none => exact .inl rfl
    | some op => exact op.pinOp_or_dlyUs_none
  · intro h
    obtain ⟨op, -, hop⟩ := Option.bind_eq_some_iff.1 h
    exact op.pinOp_ne_three hop
  · obtain ⟨op, ho, hop⟩ := access_of_pin_isSome hpin
    exact clockEdge_unanswered ho hi (by rw [hop]; exact hack)
  · obtain ⟨op, ho, hop⟩ := wait_of_dly_isSome hdly
    exact clockEdge_unanswered ho hi (by rw [hop]; exact hdone)
  · rw [clockEdge_of_ack ho hi hop hack]
    exact ⟨rfl, answerOp_history _ ho⟩
  · rintro n rfl hdone
    rw [clockEdge_of_done ho hi hdone]
    exact ⟨by rw [State.outputs, ho]; rfl, answerOp_history _ ho⟩

/-- Settles O17, by induction on the edges: none of them changes the state. -/
theorem unansweredRequestHangsTheBlock : Obligations.UnansweredRequestHangsTheBlock := by
  intro s op inputs ho hno
  obtain ⟨hb, -⟩ := busy_unanswered_of_currentOp ho
  refine ⟨?_, hb, by rw [State.outputs, hb]; rfl, fun i hi => by rw [clockEdge_of_reset s hi]; rfl⟩
  induction inputs with
  | nil => rfl
  | cons i inputs ih =>
    obtain ⟨⟨hi, hack, hdone⟩, hrest⟩ := List.forall_mem_cons.1 hno
    rw [List.foldl_cons, clockEdge_unanswered ho hi (by rw [hack, hdone, ite_self])]
    exact ih hrest

end Sys2Proof.Machine

/-! ## Hardware reset during a command (spec/70_reset_and_hazards.md R251) -/

namespace Sys2Proof.Machine

/-- Dropping other cells leaves what a kept cell holds. -/
theorem Memory.read_filter (m : Memory) {p : Nat → Bool} {a : Nat} (ha : p a = true) :
    Memory.read (m.filter fun c => p c.1) a = Memory.read m a := by
  induction m with
  | nil => rfl
  | cons c m ih =>
    obtain ⟨b, v⟩ := c
    cases hb : p b with
    | true => simp [Memory.read, hb, ih]
    | false =>
      have hne : a ≠ b := fun h => by simp [← h, ha] at hb
      simp [Memory.read, hb, hne, ih]

/-- A cell that the abandoned command has written keeps its byte (R251; log entry 10). -/
theorem read_hardwareReset {s : State} {a : Nat} (h : s.wroteCell a = true) :
    Memory.read s.hardwareReset.buf a = Memory.read s.buf a :=
  Memory.read_filter s.buf (p := fun a => s.stillReset || s.wroteCell a) (by rw [h, Bool.or_true])

/-- A command whose response is no refusal has passed its checks (R75, R214). -/
theorem executed_of_status_lt {s : State} (h : ∀ r, s.rsp = some r → (rspStatus r).toNat < 3) : s.executed = true := by
  rw [State.executed]
  cases hr : s.rsp with
  | none => rfl
  | some r => exact decide_eq_true (h r hr)

/-- The cells below `IDX` of an RDBYTES (log entry 10). -/
theorem wroteCell_of_rdbytes {s : State} {len : BitVec 16} {a : Nat} (hb : s.busy = true) (he : s.executed = true)
    (hd : decode s.cmd = .ok (.rdbytes len)) (ha : a < s.idx.toNat) : s.wroteCell a = true := by
  simp [State.wroteCell, hb, he, hd, ha]

/-- The cell of an STBUF (log entry 10). -/
theorem wroteCell_of_stbuf {s : State} {idx : BitVec 16} {v : Byte} (hb : s.busy = true) (he : s.executed = true)
    (hd : decode s.cmd = .ok (.stbuf idx v)) : s.wroteCell idx.toNat = true := by
  simp [State.wroteCell, hb, he, hd]

/-- `PADOUT` after a hardware reset that abandons a command (R251; log entries 9, 23). -/
theorem padAfterReset_of_busy {s : State} (hb : s.busy = true) :
    s.padAfterReset = if s.padout = .low ∧ s.currentOp ≠ some .high then .low else .unknown := by
  have hstill : s.stillReset = false := by simp [State.stillReset, hb]
  by_cases h : s.padout = .low ∧ s.currentOp ≠ some .high
  · simp [State.padAfterReset, hstill, hb, h]
  · rw [if_neg h, State.padAfterReset, if_neg]
    simpa [hstill, hb] using h

/-- Further edges with `rst_n = 0` are the same reset, however many they are (log entry 22). -/
theorem foldl_clockEdge_hardwareReset (s : State) {resets : List PortIn} (h : ∀ j ∈ resets, j.rstN = false) :
    resets.foldl State.clockEdge s.hardwareReset = s.hardwareReset := by
  induction resets with
  | nil => rfl
  | cons j resets ih =>
    obtain ⟨hj, hrest⟩ := List.forall_mem_cons.1 h
    rw [List.foldl_cons, clockEdge_of_reset _ hj, hardwareReset_hardwareReset, ih hrest]

/-- Settles O14: the edge is a hardware reset, which leaves the block idle. -/
theorem hardwareResetAbandonsTheCommand : Obligations.HardwareResetAbandonsTheCommand := by
  intro s i hb hi
  rw [clockEdge_of_reset s hi]
  have hout := outputs_of_idle (s := s.hardwareReset) ⟨rfl, rfl⟩
  have hpad := padAfterReset_of_busy hb
  refine ⟨rfl, rfl, rfl, by rw [hout], by rw [hout], fun hlow hop => hpad.trans (if_pos ⟨hlow, hop⟩),
    fun h => hpad.trans (if_neg fun ⟨hlow, hop⟩ => h.elim (· hlow) hop),
    fun resets h => foldl_clockEdge_hardwareReset s h, fun len a hr hd ha => ?_, fun idx v hr hd => ?_⟩
  · exact read_hardwareReset (wroteCell_of_rdbytes hb (executed_of_status_lt hr) hd ha)
  · have hok : s.executed = true := by rw [State.executed, hr]; rfl
    exact read_hardwareReset (wroteCell_of_stbuf hb hok hd)

end Sys2Proof.Machine

/-! ## Refusals (spec/60_exceptions.md R214 to R216), and the table of R275 -/

namespace Sys2Proof.Machine

/-- A command that ends without a pin error answers `OK` or `CRC_NONZERO` (R211). -/
theorem commandClose_answered (i : Instr) (t : State) :
    (commandClose i t).Answered .ok ∨ (commandClose i t).Answered .crcNonzero := by
  obtain ⟨d, h, -⟩ | ⟨h, -⟩ := commandClose_rsp i t
  · exact .inl ((answered_iff h).2 rfl)
  · exact .inr ((answered_iff h).2 rfl)

/-- Settles O47: the first three clauses are the three refusals; past the checks a command runs to its end or to the pin
failure. -/
theorem refusedCommandDoesNothing : Obligations.RefusedCommandDoesNothing := by
  refine ⟨fun s w rest e hs ho hd => step_of_error hs ho hd, fun i s hw => exec_of_not_wellFormed hw,
    fun i s hw hs => exec_of_stateRefuses hw hs, fun i s t hw hs ht => ?_⟩
  obtain rfl : (commandRun i s).finish (commandClose i) = t :=
    Host.Outcome.next.inj ((exec_of_pass hw hs).symm.trans ht)
  cases commandRun i s with
  | done u => exact (commandClose_answered i u).imp_right .inr
  | failed e u => exact .inr (.inl ((answered_iff (t := u.pinFailure e) rfl).2 rfl))

/-- Settles O54: what the table lists is the tally of the trace. -/
theorem countsAndDurationsOfEachCommand : Obligations.CountsAndDurationsOfEachCommand :=
  fun _ _ _ hp ht hok => (tally_eq _).symm.trans (tally_newEvents_of_ok hp ht hok)

end Sys2Proof.Machine

/-! ## The reference units (spec/60_exceptions.md R234, R237) -/

namespace Sys2Proof.Machine

/-! ### The pin adapter -/

/-- An adapter that is not acknowledging acts on a request and acknowledges it in the next cycle (log entry 17). -/
theorem PinAdapter.edge_request {a : PinAdapter} (h : a.ack = false) (op : BitVec 2) :
    a.edge (some op) = { pullLow := if op = 1 then true else if op = 0 then false else a.pullLow, ack := true } := by
  simp [PinAdapter.edge, h]

/-- Settles O57, at each `pin_op`. -/
theorem referenceAdapterDrivesOpenDrain : Obligations.ReferenceAdapterDrivesOpenDrain := by
  refine ⟨fun a d h => ?_, fun b mhz host d => ⟨rfl, rfl, rfl, rfl, rfl⟩⟩
  simp only [PinAdapter.edge_request h]
  exact ⟨rfl, rfl, rfl, rfl, rfl, rfl⟩

/-! ### The delay unit -/

/-- After `k` edges beyond the loading one the counter has counted `k` down. -/
theorem DelayUnit.count_iterate_edge (mhz : Nat) (n : Us) {k : Nat} (hk : k ≤ n.toNat * mhz) :
    (fun d => DelayUnit.edge mhz d (some n))^[k + 1] { count := none } = { count := some (n.toNat * mhz - k) } := by
  induction k with
  | zero => rfl
  | succ k ih =>
    obtain ⟨m, hm⟩ : ∃ m, n.toNat * mhz - k = m + 1 := Nat.exists_eq_succ_of_ne_zero (by omega)
    rw [Function.iterate_succ_apply', ih (by omega), hm, show n.toNat * mhz - (k + 1) = m by omega]
    rfl

/-- Settles O58: the counter is at 0 once it has counted `n * F_CLK_MHZ` down. -/
theorem referenceDelayUnitCountsDown : Obligations.ReferenceDelayUnitCountsDown := by
  intro mhz k n hk
  rw [DelayUnit.count_iterate_edge mhz n hk, DelayUnit.done]
  simp only [beq_eq_decide, Option.some.injEq]
  exact decide_eq_decide.2 (by omega)

end Sys2Proof.Machine

/-! ## The words of the spec's encoding vectors (spec/95_test_vectors.md section 2.1) -/

namespace Sys2Proof

/-- Settles O5: the decoder is run on each word. -/
theorem specWordsDecodeAsWritten : Obligations.SpecWordsDecodeAsWritten :=
  ⟨rfl, rfl, rfl, rfl, rfl, rfl, rfl, rfl, rfl, rfl, rfl, rfl⟩

end Sys2Proof
